-- ==== Sys2Proof/Word.lean ====
section
/-! DEFINITION. The word types of the LZ77 codec core and the limit of its integer type. -/

namespace Sys2Proof

/-- A byte of a buffer: 8 bits, numbered 7 down to 0 (R7). -/
abbrev Byte := BitVec 8

/-- A control register: 32 bits (R19). -/
abbrev Word := BitVec 32

/-- `INT_MAX`, the largest value of the type `INT`, a 32-bit signed integer (R4). -/
abbrev intMax : Nat := 2147483647

end Sys2Proof
end

