-- ==== Sys2Proof/Config.lean ====
section
/-! DEFINITION. What an implementation fixes (the OPEN parameters of R4 at their defaults; the tables, `HASH`, `TABLE_SIZE`
and `MCL` stand beside the code that consults them) and the free values: constants without a body, for the values the spec
leaves unspecified. -/

namespace Sys2Proof

/-- `PADDR_BITS` of R4, at its default 64: the width of a physical byte address. -/
abbrev Config.paddrBits : Nat := 64

/-- `VARINT_MAX_BYTES` of R4: a header varint has at most 5 bytes. -/
abbrev Config.varintMaxBytes : Nat := 5

/-- `WINDOW` of R4: the match finder hashes 4 bytes. -/
abbrev Config.window : Nat := 4

/-- What a byte of memory that no write and no discard has touched reads as.
DESIGN CHOICE (log 2): the spec says only "whatever the platform's memory holds" (R37). -/
abbrev Config.unlistedByte : Byte := 0

/-- The free value of the byte at physical address `a` in an output view that the `d`-th draw discarded (R121, R162, R221;
U1 and U2 of 93_implementation_defined.md): any value. -/
opaque Config.freeByte (d a : Nat) : Byte

/-- The free value of working register number `k` from the `d`-th draw, the start of a command (R10, R170; U4): any value in
`0 .. INT_MAX`. -/
opaque Config.freeInt (d k : Nat) : BitVec 31

/-- The free contents of the hash table from the `d`-th draw (R37, R161; U4): any value. -/
opaque Config.freeTable (d : Nat) : List (Option Nat)

/-- The free choice of the busy state that a read of `STATUS` shows while `BUSY = 1` (R21; U3): the code is one more than this,
so 1 to 9. -/
opaque Config.freeBusyState (d : Nat) : Fin 9

end Sys2Proof
end

