-- ==== Sys2Proof/Syntax.lean ====
section
/-! DEFINITION. The instructions: the header, the operations of the compressed block format and the four host commands
(R1: the block format is read as the instruction set), and the types of a Format Variant Table (R66). -/

namespace Sys2Proof

/-- The kind of an operation (R66). -/
inductive OpKind where
  | literal
  | copy
  deriving DecidableEq, Repr

/-- The tag classes of FVT0 and FVT1 (R71, R76): those that have a row in the opcode table. -/
inductive ClassName where
  | litI | litT1 | litT2 | litT3 | litT4 | copy1 | copy2 | copy4 | copyX
  deriving DecidableEq, Repr

/-- The name of a tag class, a text (R66): the mnemonic of a row of the opcode table, or any other. -/
inductive OpName where
  | row (c : ClassName)
  | text (t : String)
  deriving DecidableEq, Repr

/-- A tag class: one row of a Format Variant Table (R66). `pattern` is the field the spec calls `match`. -/
structure TagClass where
  name : OpName
  mask : Byte
  pattern : Byte
  kind : OpKind
  lenInline : Option (Nat × Nat)
  lenInlineMax : Option Nat
  lenBias : Nat
  nL : Nat
  offInline : Option (Nat × Nat)
  offShift : Nat
  nO : Nat
  deriving DecidableEq, Repr

/-- A Format Variant Table (R65, R66). -/
structure FVT where
  hasHeader : Bool
  minMatch : Nat
  maxOffset : Nat
  backwardExtend : Bool
  classes : List TagClass
  deriving DecidableEq, Repr

/-- The instructions, one constructor for each mnemonic of the opcode table. `len` and `off` are the assembled length and
offset (R68, R69); a literal's payload stays in the input buffer. -/
inductive Instr where
  /-- `HDR` (R112): a varint of `size` bytes with value `value`. -/
  | hdr (size value : Nat)
  /-- `LIT_I` (R122). -/
  | litI (len : Nat)
  /-- `LIT_T1` (R123). -/
  | litT1 (len : Nat)
  /-- `LIT_T2` (R124). -/
  | litT2 (len : Nat)
  /-- `LIT_T3` (R125). -/
  | litT3 (len : Nat)
  /-- `LIT_T4` (R126). -/
  | litT4 (len : Nat)
  /-- `COPY1` (R127). -/
  | copy1 (len off : Nat)
  /-- `COPY2` (R128). -/
  | copy2 (len off : Nat)
  /-- `COPY4` (R129), FVT0 only. -/
  | copy4 (len off : Nat)
  /-- `COPYX` (R130), FVT1 only. -/
  | copyX (len off : Nat)
  /-- A reserved tag of FVT1 (R114, R76). -/
  | reservedFvt1 (tag : Byte)
  /-- `MAXLEN` (R173). -/
  | maxlen
  /-- `COMPRESS` (R174). -/
  | compress
  /-- `GETULEN` (R176). -/
  | getulen
  /-- `DECOMPRESS` (R179). -/
  | decompress
  deriving DecidableEq, Repr

/-- How an instruction stands in the hardware: a header or an operation as bytes of the input view in ascending offset order,
a command as the value of the control register `CMD`. -/
inductive Code where
  | header (bytes : List Byte)
  | operation (bytes : List Byte)
  | command (word : Word)
  deriving DecidableEq, Repr

end Sys2Proof
end

