-- ==== Sys2Proof/WellFormed.lean ====
section
/-! DEFINITION. Which operands each instruction's encoding admits (the length range and the largest offset columns of R71 and
R76, the reserved tags of R76, the legal varints of R63). -/

namespace Sys2Proof

/-- `lo <= x <= hi`. -/
abbrev inRange (lo hi x : Nat) : Bool := decide (lo ≤ x) && decide (x ≤ hi)

/-- The operands the encoding of the instruction can carry. -/
def Instr.wf : Instr → Bool
  | .hdr size value => inRange 1 5 size && decide (value < 2 ^ (7 * size)) && decide (value ≤ intMax)
  | .litI len => inRange 1 60 len
  | .litT1 len => inRange 1 256 len
  | .litT2 len => inRange 1 65536 len
  | .litT3 len => inRange 1 16777216 len
  | .litT4 len => inRange 1 intMax len
  | .copy1 len off => inRange 4 11 len && decide (off ≤ 2047)
  | .copy2 len off => inRange 1 64 len && decide (off ≤ 65535)
  | .copy4 len off => inRange 1 64 len && decide (off ≤ intMax)
  | .copyX len off => inRange 1 intMax len && decide (off ≤ 65535)
  | .reservedFvt1 tag => decide (tag.toNat % 4 = 3) && decide (tag.toNat ≠ 3)
  | .maxlen => true
  | .compress => true
  | .getulen => true
  | .decompress => true

end Sys2Proof
end

