-- ==== Sys2Proof/Decode.lean ====
section
/-! DEFINITION. The encoding (30_encoding.md): bit slices and little-endian values, the Format Variant Tables, the decoder,
total on any bytes and rejecting by name, and after it the encoder. -/

namespace Sys2Proof

/-! ### Bits and byte order -/

/-- `b[hi:lo]`, the unsigned value of bits `hi` down to `lo` (R7). -/
def bits (b : Byte) (hi lo : Nat) : Nat := b.toNat / 2 ^ lo % 2 ^ (hi + 1 - lo)

/-- The little-endian value of a byte list (R8). -/
def le : List Byte → Nat
  | [] => 0
  | b :: bs => b.toNat + 256 * le bs

/-- The `n` little-endian bytes of `v`: byte `k` is `floor(v / 256^k) mod 256` (R79). -/
def leBytes : Nat → Nat → List Byte
  | 0, _ => []
  | n + 1, v => BitVec.ofNat 8 v :: leBytes n (v / 256)

/-! ### The tables (R70, R71, R76) -/

/-- A literal class with `n` length trailers, tag `t` (R71). -/
def literalTrailerClass (name : ClassName) (t : Byte) (n : Nat) : TagClass :=
  { name := .row name, mask := 0xFF, pattern := t, kind := .literal, lenInline := none, lenInlineMax := none, lenBias := 1,
    nL := n, offInline := none, offShift := 0, nO := 0 }

/-- The row of each class (R71; `copyX` R76). -/
def ClassName.row : ClassName → TagClass
  | .litI => { name := .row .litI, mask := 0x03, pattern := 0x00, kind := .literal, lenInline := some (7, 2),
               lenInlineMax := some 59, lenBias := 1, nL := 0, offInline := none, offShift := 0, nO := 0 }
  | .litT1 => literalTrailerClass .litT1 0xF0 1
  | .litT2 => literalTrailerClass .litT2 0xF4 2
  | .litT3 => literalTrailerClass .litT3 0xF8 3
  | .litT4 => literalTrailerClass .litT4 0xFC 4
  | .copy1 => { name := .row .copy1, mask := 0x03, pattern := 0x01, kind := .copy, lenInline := some (4, 2),
                lenInlineMax := none, lenBias := 4, nL := 0, offInline := some (7, 5), offShift := 8, nO := 1 }
  | .copy2 => { name := .row .copy2, mask := 0x03, pattern := 0x02, kind := .copy, lenInline := some (7, 2),
                lenInlineMax := none, lenBias := 1, nL := 0, offInline := none, offShift := 0, nO := 2 }
  | .copy4 => { name := .row .copy4, mask := 0x03, pattern := 0x03, kind := .copy, lenInline := some (7, 2),
                lenInlineMax := none, lenBias := 1, nL := 0, offInline := none, offShift := 0, nO := 4 }
  | .copyX => { name := .row .copyX, mask := 0xFF, pattern := 0x03, kind := .copy, lenInline := none,
                lenInlineMax := none, lenBias := 1, nL := 4, offInline := none, offShift := 0, nO := 2 }

/-- FVT0 (R70, R71). -/
def fvt0 : FVT :=
  { hasHeader := true, minMatch := 4, maxOffset := 65535, backwardExtend := false,
    classes := [ClassName.litI.row, ClassName.litT1.row, ClassName.litT2.row, ClassName.litT3.row, ClassName.litT4.row,
                ClassName.copy1.row, ClassName.copy2.row, ClassName.copy4.row] }

/-- FVT1: FVT0 with class 7 replaced by `COPYX` and with backward extension (R76). -/
def fvt1 : FVT :=
  { hasHeader := true, minMatch := 4, maxOffset := 65535, backwardExtend := true,
    classes := [ClassName.litI.row, ClassName.litT1.row, ClassName.litT2.row, ClassName.litT3.row, ClassName.litT4.row,
                ClassName.copy1.row, ClassName.copy2.row, ClassName.copyX.row] }

/-- The tables the engine holds, `FVT[0]` and `FVT[1]`; their number is `NFMT` (R4). -/
def tables : List FVT := [fvt0, fvt1]

/-! ### Classification and assembly (R67 to R69) -/

/-- The value of an inline field of tag `t`; 0 where the class has none. -/
def inlineField (t : Byte) : Option (Nat × Nat) → Nat
  | none => 0
  | some (hi, lo) => bits t hi lo

/-- Whether class `c` takes tag `t` (R66, R67). -/
def TagClass.takes (c : TagClass) (t : Byte) : Bool :=
  t &&& c.mask == c.pattern &&
    match c.lenInlineMax with
    | none => true
    | some m => decide (inlineField t c.lenInline ≤ m)

/-- The class of tag `t` under `F` (R67); by R77 (2) at most one class qualifies. -/
def FVT.classify (F : FVT) (t : Byte) : Option TagClass := F.classes.find? (·.takes t)

/-- The index of a class in the list of table `F` (R10, R66). -/
def FVT.indexOf (F : FVT) (c : ClassName) : Option Nat := F.classes.findIdx? fun d => d.name == .row c

/-- `VAL.accum(acc, b, k)` (R103): one step of an accumulation, `none` where it says `ArithmeticOverflow`. -/
def valAccum (acc : Nat) (b : Byte) (k : Nat) : Option Nat :=
  if acc + b.toNat * 256 ^ k > intMax then none else some (acc + b.toNat * 256 ^ k)

/-- Why bytes are rejected (R81), in the order the spec lists them; `truncatedTag` is the missing tag of R113, `badCommand` a value
that is no command code (R80), and `noMnemonic` an operation of a class without a row in the opcode table, which `decodeClass`
reads. -/
inductive DecodeError where
  | truncatedHeader
  | invalidLength
  | truncatedTag
  | truncatedTrailer
  | lengthOverflow
  | badCommand
  | noMnemonic
  deriving DecidableEq, Repr

/-- The trailers of one field in stream order (R115 to R117): `n` bytes, the first of weight `256^k`, added to `acc`. Before each
byte its presence is tested, then the accumulation. Answers the sum and the bytes left. -/
def assemble (k : Nat) : Nat → Nat → List Byte → Except DecodeError (Nat × List Byte)
  | 0, acc, bs => .ok (acc, bs)
  | _ + 1, _, [] => .error .truncatedTrailer
  | n + 1, acc, b :: bs =>
    match valAccum acc b k with
    | none => .error .lengthOverflow
    | some acc' => assemble (k + 1) n acc' bs

/-- The instruction of an operation of class `name` with its assembled length and offset. -/
def ClassName.toInstr : ClassName → Nat → Nat → Instr
  | .litI, len, _ => .litI len
  | .litT1, len, _ => .litT1 len
  | .litT2, len, _ => .litT2 len
  | .litT3, len, _ => .litT3 len
  | .litT4, len, _ => .litT4 len
  | .copy1, len, off => .copy1 len off
  | .copy2, len, off => .copy2 len off
  | .copy4, len, off => .copy4 len off
  | .copyX, len, off => .copyX len off

/-- The class, the length and the offset of an operation; `none` for what is not an operation of a class. -/
def Instr.operands : Instr → Option (ClassName × Nat × Nat)
  | .litI len => some (.litI, len, 0)
  | .litT1 len => some (.litT1, len, 0)
  | .litT2 len => some (.litT2, len, 0)
  | .litT3 len => some (.litT3, len, 0)
  | .litT4 len => some (.litT4, len, 0)
  | .copy1 len off => some (.copy1, len, off)
  | .copy2 len off => some (.copy2, len, off)
  | .copy4 len off => some (.copy4, len, off)
  | .copyX len off => some (.copyX, len, off)
  | .hdr _ _ => none
  | .reservedFvt1 _ => none
  | .maxlen => none
  | .compress => none
  | .getulen => none
  | .decompress => none

/-! ### The decoder -/

/-- An operation under any table `F` (R114 to R117): its class, its length and its offset; `none` where the tag has no class. -/
def decodeClass (F : FVT) : List Byte → Except DecodeError (Option (TagClass × Nat × Nat))
  | [] => .error .truncatedTag
  | t :: bs =>
    match F.classify t with
    | none => .ok none
    | some c =>
      match assemble 0 c.nL (c.lenBias + inlineField t c.lenInline) bs with
      | .error e => .error e
      | .ok (len, bs') =>
        match assemble 0 c.nO (inlineField t c.offInline * 2 ^ c.offShift) bs' with
        | .error e => .error e
        | .ok (off, _) => .ok (some (c, len, off))

/-- The instruction of an operation of class `c`, where the class has a row in the opcode table. -/
def TagClass.instr (c : TagClass) (len off : Nat) : Except DecodeError Instr :=
  match c.name with
  | .row n => .ok (n.toInstr len off)
  | .text _ => .error .noMnemonic

/-- The instruction of an operation under table `F`. A tag of no class is the instruction that faults `INVALID_TAG`. -/
def decodeOperation (F : FVT) (bs : List Byte) : Except DecodeError Instr :=
  match decodeClass F bs with
  | .error e => .error e
  | .ok none => .ok (.reservedFvt1 (bs.headD 0))
  | .ok (some (c, len, off)) => c.instr len off

/-- The loop of `BV.readVarint` (R94) from byte `k` with `n` bytes still allowed: the value and the number of bytes. -/
def readVarintFrom (k : Nat) : Nat → Nat → List Byte → Except DecodeError (Nat × Nat)
  | 0, _, _ => .error .invalidLength
  | _ + 1, _, [] => .error .truncatedHeader
  | n + 1, acc, b :: bs =>
    if acc + bits b 6 0 * 2 ^ (7 * k) > intMax then .error .invalidLength
    else if bits b 7 7 = 0 then .ok (acc + bits b 6 0 * 2 ^ (7 * k), k + 1)
    else readVarintFrom (k + 1) n (acc + bits b 6 0 * 2 ^ (7 * k)) bs

/-- The value of a varint's bytes: the payload of byte `k` weighs `2^(7k)` (R62). -/
def varintValue : List Byte → Nat
  | [] => 0
  | b :: bs => bits b 6 0 + 128 * varintValue bs

/-- A varint at the head of `bs` (R62, R63, R94). -/
def readVarint (bs : List Byte) : Except DecodeError (Nat × Nat) := readVarintFrom 0 Config.varintMaxBytes 0 bs

/-- A header (R112). -/
def decodeHeader (bs : List Byte) : Except DecodeError Instr :=
  match readVarint bs with
  | .error e => .error e
  | .ok (value, size) => .ok (.hdr size value)

/-- A command code (R80, R171). -/
def decodeCommand (w : Word) : Except DecodeError Instr :=
  match w.toNat with
  | 1 => .ok .maxlen
  | 2 => .ok .compress
  | 3 => .ok .getulen
  | 4 => .ok .decompress
  | _ => .error .badCommand

/-- The decoder. -/
def decode (F : FVT) : Code → Except DecodeError Instr
  | .header bs => decodeHeader bs
  | .operation bs => decodeOperation F bs
  | .command w => decodeCommand w

/-! ### The encoder -/

/-- The value `x` placed in the bits of an inline field. -/
def placeField (x : Nat) : Option (Nat × Nat) → Nat
  | none => 0
  | some (_, lo) => x * 2 ^ lo

/-- The part of an offset that stands in the offset trailers (R79). -/
def TagClass.trailerOffset (c : TagClass) (off : Nat) : Nat :=
  match c.offInline with
  | none => off
  | some _ => off % 2 ^ c.offShift

/-- The tag and the trailers of an operation of class `c` (R79). -/
def TagClass.encode (c : TagClass) (len off : Nat) : List Byte :=
  BitVec.ofNat 8 (c.pattern.toNat + placeField (len - c.lenBias) c.lenInline + placeField (off / 2 ^ c.offShift) c.offInline)
    :: (leBytes c.nL (len - c.lenBias) ++ leBytes c.nO (c.trailerOffset off))

/-- A varint of `size` bytes with value `value` (R62): every byte but the last has its continuation bit set. -/
def encodeVarint : Nat → Nat → List Byte
  | 0, _ => []
  | 1, value => [BitVec.ofNat 8 (value % 128)]
  | n + 2, value => BitVec.ofNat 8 (value % 128 + 128) :: encodeVarint (n + 1) (value / 128)

/-- The encoder: how an instruction stands in the input view or in `CMD`, without a literal's payload. -/
def encode : Instr → Code
  | .hdr size value => .header (encodeVarint size value)
  | .litI len => .operation (ClassName.litI.row.encode len 0)
  | .litT1 len => .operation (ClassName.litT1.row.encode len 0)
  | .litT2 len => .operation (ClassName.litT2.row.encode len 0)
  | .litT3 len => .operation (ClassName.litT3.row.encode len 0)
  | .litT4 len => .operation (ClassName.litT4.row.encode len 0)
  | .copy1 len off => .operation (ClassName.copy1.row.encode len off)
  | .copy2 len off => .operation (ClassName.copy2.row.encode len off)
  | .copy4 len off => .operation (ClassName.copy4.row.encode len off)
  | .copyX len off => .operation (ClassName.copyX.row.encode len off)
  | .reservedFvt1 tag => .operation [tag]
  | .maxlen => .command 1
  | .compress => .command 2
  | .getulen => .command 3
  | .decompress => .command 4

/-- The bytes of a code, ascending; a command's value least significant byte first. -/
def Code.bytes : Code → List Byte
  | .header bs => bs
  | .operation bs => bs
  | .command w => leBytes 4 w.toNat

/-- Whether table `F` has the instruction: a table has the operations of its classes, and the tags of no class are its reserved
tags (R67). -/
def FVT.has (F : FVT) : Instr → Bool
  | .litI _ => F.classes.contains ClassName.litI.row
  | .litT1 _ => F.classes.contains ClassName.litT1.row
  | .litT2 _ => F.classes.contains ClassName.litT2.row
  | .litT3 _ => F.classes.contains ClassName.litT3.row
  | .litT4 _ => F.classes.contains ClassName.litT4.row
  | .copy1 _ _ => F.classes.contains ClassName.copy1.row
  | .copy2 _ _ => F.classes.contains ClassName.copy2.row
  | .copy4 _ _ => F.classes.contains ClassName.copy4.row
  | .copyX _ _ => F.classes.contains ClassName.copyX.row
  | .reservedFvt1 tag => (F.classify tag).isNone
  | .hdr _ _ => F.hasHeader
  | .maxlen => true
  | .compress => true
  | .getulen => true
  | .decompress => true

/-! ### The shortest encodings (R64, R78, R79) -/

/-- The shortest varint of `n` (R64), the loop run at most `fuel` times. -/
def shortestVarintFrom : Nat → Nat → List Byte
  | 0, _ => []
  | fuel + 1, n =>
    if n ≥ 128 then BitVec.ofNat 8 (n % 128 + 128) :: shortestVarintFrom fuel (n / 128) else [BitVec.ofNat 8 n]

/-- The shortest varint of `n <= INT_MAX`: at most 5 bytes (R64). -/
def shortestVarint (n : Nat) : List Byte := shortestVarintFrom Config.varintMaxBytes n

/-- `size(c)`: the bytes before any literal data (R78). -/
def TagClass.size (c : TagClass) : Nat := 1 + c.nL + c.nO

/-- The largest length class `c` represents (R78). -/
def TagClass.maxLen (c : TagClass) : Nat :=
  match c.lenInline with
  | some (hi, lo) => c.lenBias + min (2 ^ (hi - lo + 1) - 1) (c.lenInlineMax.getD (2 ^ (hi - lo + 1) - 1))
  | none => if c.nL ≥ 1 then min intMax (c.lenBias + 256 ^ c.nL - 1) else c.lenBias

/-- The largest offset class `c` represents (R78). -/
def TagClass.maxOff (c : TagClass) : Nat :=
  match c.offInline with
  | some (hi, lo) =>
    if c.nO ≥ 1 then min intMax (2 ^ (hi - lo + 1) * 2 ^ c.offShift - 1) else 2 ^ (hi - lo + 1) - 1
  | none => if c.nO ≥ 1 then min intMax (256 ^ c.nO - 1) else 0

/-- Whether `c` represents `(len, off)` (R78). -/
def TagClass.represents (c : TagClass) (len off : Nat) : Bool :=
  decide (c.lenBias ≤ len) && decide (len ≤ c.maxLen) &&
    match c.kind with
    | .literal => true
    | .copy => decide (off ≤ c.maxOff)

/-- The class of least size, the earliest among equals (R79). -/
def pickShortest : List TagClass → Option TagClass
  | [] => none
  | c :: cs =>
    match pickShortest cs with
    | none => some c
    | some d => if c.size ≤ d.size then some c else some d

/-- The class an encoder chooses for `(len, off)` (R79). -/
def FVT.choose (F : FVT) (kind : OpKind) (len off : Nat) : Option TagClass :=
  pickShortest (F.classes.filter fun c => c.kind == kind && c.represents len off)

/-- The largest length any class of the kind represents: `litMax(F)` and `maxCopyLen(F)` (R78). -/
def FVT.maxLen (F : FVT) (kind : OpKind) : Nat :=
  F.classes.foldl (fun m c => if c.kind = kind then max m c.maxLen else m) 0

/-- The bits of an inline field as a mask. -/
def fieldMask : Option (Nat × Nat) → Byte
  | none => 0
  | some (hi, lo) => BitVec.ofNat 8 (2 ^ (hi + 1) - 2 ^ lo)

/-- A field is a bit range of the tag: `7 >= hi >= lo` (R7, R66). -/
def isBitRange : Option (Nat × Nat) → Bool
  | none => true
  | some (hi, lo) => decide (lo ≤ hi) && decide (hi ≤ 7)

/-- Conditions (1) and (3) to (8) of R77, on one class, and that its fields are bit ranges of the tag (R66). -/
def TagClass.WellFormed (c : TagClass) : Prop :=
  isBitRange c.lenInline ∧ isBitRange c.offInline ∧
  c.pattern &&& ~~~c.mask = 0 ∧
  fieldMask c.lenInline &&& fieldMask c.offInline = 0 ∧
  (fieldMask c.lenInline ||| fieldMask c.offInline) &&& c.mask = 0 ∧
  1 ≤ c.lenBias ∧
  (c.kind = .literal → c.offInline = none ∧ c.nO = 0) ∧
  (c.kind = .copy → c.offInline ≠ none ∨ 1 ≤ c.nO) ∧
  ¬ (c.lenInline ≠ none ∧ 1 ≤ c.nL) ∧
  (c.offInline ≠ none → c.offShift = 8 * c.nO) ∧
  c.nL ≤ 4 ∧ c.nO ≤ 4

/-- A well-formed table (R77). -/
def FVT.WellFormed (F : FVT) : Prop :=
  (∀ c ∈ F.classes, c.WellFormed) ∧
  (∀ t, (F.classes.filter (·.takes t)).length ≤ 1) ∧
  1 ≤ F.minMatch ∧ 1 ≤ F.maxOffset ∧ F.maxOffset ≤ intMax ∧
  1 ≤ F.maxLen .literal ∧
  (∀ len, 1 ≤ len → len ≤ F.maxLen .literal → ∃ c ∈ F.classes, c.kind = .literal ∧ c.represents len 0) ∧
  (∀ len off, max F.minMatch Config.window ≤ len → len ≤ F.maxLen .copy → 1 ≤ off → off ≤ F.maxOffset →
    ∃ c ∈ F.classes, c.kind = .copy ∧ c.represents len off)

/-! ### The opcode table's words -/

/-- Which table a word of the opcode table is read under. A tag with bits 1:0 = 11 means `COPY4` under FVT0, and `COPYX` or a
reserved tag under FVT1: a word that holds the whole operation is read under the table it fills, a bare tag `0x03` under FVT0
and any other bare tag as FVT1's reserved tag (log 20). -/
def tableFormat (nbits w : Nat) : Nat :=
  if w % 4 = 3 then
    if nbits ≥ 56 then 1 else if nbits ≥ 40 then 0 else if w % 256 = 3 then 0 else 1
  else 0

/-- What kind of code a word of the opcode table is: the table gives the header no bits and a command 32. -/
def tableCode (nbits w : Nat) : Code :=
  if nbits = 0 then .header (leBytes Config.varintMaxBytes 0)
  else if nbits = 32 then .command (BitVec.ofNat 32 w)
  else .operation (leBytes 9 (w % 2 ^ nbits))

/-- The instruction the decoder reads from a word of the opcode table. -/
def decodeTableWord (nbits w : Nat) : Option Instr :=
  (decode ((tables[tableFormat nbits w]?).getD fvt0) (tableCode nbits w)).toOption

end Sys2Proof
end

