-- ==== Sys2Proof/Machine/State.lean ====
section
/-! DEFINITION. The state of the machine, its faults and refusals, and the state after reset. -/

namespace Sys2Proof.Machine

/-- The states of the engine's one state machine (R17, R18). -/
inductive EngineState where
  | idle | argcheck | readHeader | readTag | emitLiteral | emitCopy | cHeader | cScan | cEmit | cTail | done | fault
  deriving DecidableEq, Repr

/-- The address spaces the engine reaches (R35, R40, R41). -/
inductive Space where
  | input
  | output
  deriving DecidableEq, Repr

/-- The names of the 21 control registers, in the order of their numbers 0 to 20 (R19). -/
inductive CReg where
  | cmd | status | format | inCtl | inBaseLo | inBaseHi | inExtent | inOff | inLen
  | outCtl | outBaseLo | outBaseHi | outExtent | outOff | outMax | arg | ulen | result | errKind | errReason | errOffset
  deriving DecidableEq, Repr

/-- The stored control registers (R19). `STATUS` is no field: its flags are functions of `ST` and nothing else (R16, R21). -/
structure Control where
  cmd : Word
  format : Word
  inCtl : Word
  inBaseLo : Word
  inBaseHi : Word
  inExtent : Word
  inOff : Word
  inLen : Word
  outCtl : Word
  outBaseLo : Word
  outBaseHi : Word
  outExtent : Word
  outOff : Word
  outMax : Word
  arg : Word
  ulen : Word
  result : Word
  errKind : Word
  errReason : Word
  errOffset : Word
  deriving DecidableEq, Repr

/-- The working registers (R10 to R12); registers that share a name are one register (R13). `ip` is the program counter (R14). -/
structure Working where
  istart : Nat
  iend : Nat
  ip : Nat
  ostart : Nat
  oend : Nat
  olimit : Nat
  op : Nat
  ulen : Nat
  opc : Nat
  tag : Byte
  cls : Nat
  len : Nat
  off : Nat
  anchor : Nat
  cand : Nat
  mlen : Nat
  ts : Nat
  deriving DecidableEq, Repr

/-- A range `[lo, hi)` of physical addresses whose bytes the spec leaves unspecified since the draw `stamp` (R121, R162, R221):
the byte at `a` is the free value `Config.freeByte stamp a`. -/
structure Discarded where
  lo : Nat
  hi : Nat
  stamp : Nat
  deriving DecidableEq, Repr

/-- Physical memory: the bytes that differ from what an unlisted address reads as, addresses rising, and the discarded ranges,
addresses rising. -/
structure Memory where
  cells : List Host.Cell
  discarded : List Discarded
  deriving DecidableEq, Repr

/-- What the host can do to the engine and to its own memory in one move (R5, R19, R181, R220). -/
inductive HostMove where
  /-- Write a control register. -/
  | writeReg (r : CReg) (v : Word)
  /-- Read a control register. -/
  | readReg (r : CReg)
  /-- Store a byte of memory. -/
  | storeByte (a : Nat) (b : Byte)
  /-- Load a byte of memory. -/
  | loadByte (a : Nat)
  /-- The reset event. -/
  | reset
  deriving DecidableEq, Repr

/-- Who moves in a step: the engine makes one transition, or the host makes one move (the model's own schedule, log 8). -/
inductive Turn where
  | engine
  | host (m : HostMove)
  deriving DecidableEq, Repr

/-- The state of one engine, the memory it reaches and the host's pending moves. -/
structure State where
  /-- The state register `ST` (R17). -/
  st : EngineState
  /-- The control registers (R19). -/
  cr : Control
  /-- The working registers (R11, R12). -/
  wr : Working
  /-- The hash table `T`: each entry is absent (`valid = 0`) or holds its position (R34). -/
  table : List (Option Nat)
  /-- Physical memory, which holds the spaces `IN` and `OUT` (R40, R41, R44). -/
  mem : Memory
  /-- The model's own: whose turn the next steps are, the first first. Where it is empty the engine has every turn. -/
  turns : List Turn
  /-- The model's own: the value the host's last read delivered. -/
  readData : Word
  /-- The model's own: how many free values have been drawn. -/
  draws : Nat
  deriving DecidableEq, Repr

/-- The reasons of the validator (R101), in the order of their codes 1 to 5 (R108). -/
inductive Reason where
  | negativeValue
  | offsetOutOfRange
  | lengthOutOfRange
  | rangeExceedsBuffer
  | arithmeticOverflow
  deriving DecidableEq, Repr

/-- The reasons of `MalformedInput`, codes 1 to 11 (R192). -/
inductive MalformedReason where
  | truncatedHeader | invalidLength | truncatedTag | truncatedTrailer | lengthOverflow | literalExceedsInput
  | outputOverrun | offsetZero | offsetBeyondWritten | trailingInput | invalidTag
  deriving DecidableEq, Repr

/-- The reasons of `InvalidArgument`: the validator's, codes 1 to 5, and 6 to 9 (R191). -/
inductive ArgumentReason where
  | val (r : Reason)
  | absentBuffer
  | badCommand
  | badFormat
  | noHeader
  deriving DecidableEq, Repr

/-- The reasons of `CapacityExceeded`, codes 1 to 3 (R193). -/
inductive CapacityReason where
  | outputTooSmall
  | emissionOverrun
  | declaredExceedsCapacity
  deriving DecidableEq, Repr

/-- An error of the engine, which it raises by R196; a `MalformedInput` carries its engine-relative byte offset (R190, R194). -/
inductive Error where
  | malformed (r : MalformedReason) (offset : Nat)
  | invalidArgument (r : ArgumentReason)
  | capacity (r : CapacityReason)
  deriving DecidableEq, Repr

/-- Why the MODEL stops with a fault. None of these is a fault of the engine (an engine fault is a next state with `ST = FAULT`,
R196); in states that meet the invariant of Safety.lean no step of the engine raises one. All are safe: the model stops. -/
inductive Fault where
  /-- A primitive of the Buffer View failed and its caller has no rule for it: "No caller in this spec ever receives it" (R92,
  R93, R95, R96, R99). Raised by the primitives in states that break the cursor invariants of R11 and R12. Safe. -/
  | viewFailure (r : Reason)
  /-- A physical address at or above `2^PADDR_BITS`: it does not exist (R44, R172). Raised by the primitives and by the host's
  load and store. Safe. -/
  | addressOutOfSpace
  /-- `FORMAT` selects no table in a state past `ARGCHECK`, which R171 rules out. Raised by the engine's turns that consult the
  table. Safe. -/
  | noTable
  /-- No class of the table represents an operation the compressor must emit, which R77 (10) and (11) rule out for a table whose
  longest copy has at least `WINDOW` bytes; for another the spec gives no encoding (log 26). Raised by the compressor's emissions.
  Safe. -/
  | noClass
  deriving DecidableEq, Repr

/-- Why the model refuses. -/
inductive Refusal where
  /-- An instruction without a meaning; raised by `exec` alone. Safe. -/
  | notModelled (mnemonic : String)
  /-- The input view and the output view of the command overlap in physical memory: "the command's result is not defined by this
  spec (model: refuse ...)" (R56, U5). Raised by `COMPRESS` and `DECOMPRESS` after all their argument checks,
  and by a platform for commands of two engines that run at the same time (R207, U19). Safe. -/
  | viewsOverlap
  /-- The host writes a byte of either view, or reads a byte of the output view, while `BUSY = 1`: outside the spec (R57, R227,
  U6: refuse). Raised by the host's load and store, and by a platform for another engine's command. Safe. -/
  | hostTouchesView
  deriving DecidableEq, Repr

/-- The control registers after reset: all 0 (R37, R223). -/
def Control.reset : Control :=
  { cmd := 0, format := 0, inCtl := 0, inBaseLo := 0, inBaseHi := 0, inExtent := 0, inOff := 0, inLen := 0, outCtl := 0,
    outBaseLo := 0, outBaseHi := 0, outExtent := 0, outOff := 0, outMax := 0, arg := 0, ulen := 0, result := 0, errKind := 0,
    errReason := 0, errOffset := 0 }

/-- The working registers after reset. The spec leaves them unspecified (R37); DESIGN CHOICE 0 (log 1), which no rule reads: the
start of a command gives each a free value (R170). -/
def Working.reset : Working :=
  { istart := 0, iend := 0, ip := 0, ostart := 0, oend := 0, olimit := 0, op := 0, ulen := 0, opc := 0, tag := 0, cls := 0,
    len := 0, off := 0, anchor := 0, cand := 0, mlen := 0, ts := 0 }

/-- The machine right after reset (R37, R220 to R223), with no byte of memory listed and nothing pending (logs 1, 2, 8). -/
def State.reset : State :=
  { st := .idle, cr := Control.reset, wr := Working.reset, table := [], mem := { cells := [], discarded := [] }, turns := [],
    readData := 0, draws := 0 }

end Sys2Proof.Machine
end

