-- ==== Sys2Proof/Machine/Flags.lean ====
section
/-! DEFINITION. The status flags and `CR.STATUS` (R16, R18, R21). No operation of the block format reads or writes a flag. -/

namespace Sys2Proof.Machine

/-- The code of a state in `CR.STATUS.STATE` (R18). -/
def EngineState.code : EngineState → Nat
  | .idle => 0
  | .argcheck => 1
  | .readHeader => 2
  | .readTag => 3
  | .emitLiteral => 4
  | .emitCopy => 5
  | .cHeader => 6
  | .cScan => 7
  | .cEmit => 8
  | .cTail => 9
  | .done => 14
  | .fault => 15

/-- `BUSY = 1` exactly when `ST` is none of `IDLE`, `DONE`, `FAULT` (R16). -/
def EngineState.busy : EngineState → Bool
  | .idle | .done | .fault => false
  | _ => true

/-- The flag `BUSY` (R16). -/
def State.busy (s : State) : Bool := s.st.busy

/-- The field `STATE` as a read sees it in state `st`: the code of `ST`; while `BUSY = 1` any busy code, the one the draw `d` says
(R21, U3). -/
def EngineState.field (st : EngineState) (d : Fin 9) : Nat := if st.busy then d.val + 1 else st.code

/-- The word of `CR.STATUS` (R21): reserved bits are 0. -/
def EngineState.statusWord (st : EngineState) (d : Fin 9) : Word :=
  BitVec.ofNat 32 (st.busy.toNat + 2 * (st == .done).toNat + 4 * (st == .fault).toNat + 16 * st.field d)

/-- `CR.STATUS` as a read returns it (R21); the draw is a free value. -/
def State.status (s : State) : Word := s.st.statusWord (Config.freeBusyState s.draws)

end Sys2Proof.Machine
end

