-- ==== Sys2Proof/Machine/Operands.lean ====
section
/-! DEFINITION. Operands: the argument registers read as signed integers, the validator VAL (41_validator.md), Buffer Views and
the one addressing mode, view offset (R90, R91). -/

namespace Sys2Proof.Machine

/-! ### Argument registers -/

/-- `sext_32`: a register read as a signed `INT` (R8, R24). -/
def sext (w : Word) : Int := w.toInt

/-- `VALID` of the descriptor of space `x` (R23). -/
def Control.valid (c : Control) : Space → Bool
  | .input => c.inCtl.getLsbD 0
  | .output => c.outCtl.getLsbD 0

/-- `BASE` of the descriptor: `x_BASE_HI || x_BASE_LO`, 64 bits, unsigned (R23, R45, R172). -/
def Control.base (c : Control) : Space → Nat
  | .input => (c.inBaseHi ++ c.inBaseLo).toNat
  | .output => (c.outBaseHi ++ c.outBaseLo).toNat

/-- `EXTENT` of the descriptor, signed (R23). -/
def Control.extent (c : Control) : Space → Int
  | .input => sext c.inExtent
  | .output => sext c.outExtent

/-! ### VAL -/

/-- `VAL.check(offset, length, extent)` (R101): `none` is `Ok`. -/
def valCheck (offset length extent : Int) : Option Reason :=
  if offset < 0 ∨ length < 0 ∨ extent < 0 then some .negativeValue
  else if offset > extent then some .offsetOutOfRange
  else if length > extent then some .lengthOutOfRange
  else if offset + length > intMax then some .arithmeticOverflow
  else if offset + length > extent then some .rangeExceedsBuffer
  else none

/-- `VAL.add(a, b)` (R102): `none` is `ArithmeticOverflow`. -/
def valAdd (a b : Nat) : Option Nat := if a + b > intMax then none else some (a + b)

/-! ### Views -/

/-- A Buffer View (R90): a space, its start and its limit, as logical offsets. -/
structure View where
  space : Space
  start : Nat
  limit : Nat
  deriving DecidableEq, Repr

/-- `Vin = (IN, istart, iend)` (R90). -/
def State.vin (s : State) : View := { space := .input, start := s.wr.istart, limit := s.wr.iend }

/-- `Vdec` of DEC and `Vcmp` of CMP: `(OUT, ostart, olimit)` (R90). -/
def State.vlim (s : State) : View := { space := .output, start := s.wr.ostart, limit := s.wr.olimit }

/-- The physical address of logical offset `a` of space `x` (R44). -/
def State.phys (s : State) (x : Space) (a : Nat) : Nat := s.cr.base x + a

end Sys2Proof.Machine
end

