-- ==== Sys2Proof/Machine/Ops.lean ====
section
/-! DEFINITION. The named operations over memory and registers: physical memory, raising an error (R196), the control registers
(R19 to R33), the Buffer View primitives (40_buffer_view.md) and the argument checks that commands share (R171, R172). Where an
operation depends on an OPEN parameter of R4 it takes it as its last argument, which stands at the default where it is left out:
`bits` is `PADDR_BITS`, `T` the list of the tables `FVT[0]` to `FVT[NFMT-1]`. -/

namespace Sys2Proof.Machine

/-! ### Physical memory -/

/-- The byte the sorted cells hold at `a`; an unlisted address reads as `Config.unlistedByte`. -/
def cellAt : List Host.Cell → Nat → Byte
  | [], _ => Config.unlistedByte
  | (x, y) :: t, a => if x = a then y else cellAt t a

/-- The cells with `b` at `a`, in canonical form: sorted, and no entry equal to what an unlisted address reads as. -/
def setCell : List Host.Cell → Nat → Byte → List Host.Cell
  | [], a, b => if b = Config.unlistedByte then [] else [(a, b)]
  | (x, y) :: t, a, b =>
    if a < x then (if b = Config.unlistedByte then (x, y) :: t else (a, b) :: (x, y) :: t)
    else if a = x then (if b = Config.unlistedByte then t else (a, b) :: t)
    else (x, y) :: setCell t a b

/-- The stamp of the discarded range that holds `a`. -/
def stampAt : List Discarded → Nat → Option Nat
  | [], _ => none
  | r :: t, a => if r.lo ≤ a ∧ a < r.hi then some r.stamp else stampAt t a

/-- What is left of a range when `[lo, hi)` is taken out. -/
def Discarded.without (lo hi : Nat) (r : Discarded) : List Discarded :=
  (if r.lo < min r.hi lo then [{ r with hi := min r.hi lo }] else []) ++
  (if max r.lo hi < r.hi then [{ r with lo := max r.lo hi }] else [])

/-- The ranges with a new one put in its place. -/
def insertRange (r : Discarded) : List Discarded → List Discarded
  | [] => [r]
  | x :: t => if r.lo < x.lo then r :: x :: t else x :: insertRange r t

/-- The byte of memory at physical address `a`. -/
def Memory.read (m : Memory) (a : Nat) : Byte :=
  match stampAt m.discarded a with
  | some d => Config.freeByte d a
  | none => cellAt m.cells a

/-- Memory with byte `b` at physical address `a`. -/
def Memory.write (m : Memory) (a : Nat) (b : Byte) : Memory :=
  { cells := setCell m.cells a b, discarded := m.discarded.flatMap (Discarded.without a (a + 1)) }

/-- Memory with every byte of `[lo, hi)` a free value of draw `d` (R121, R162, R221). -/
def Memory.discard (m : Memory) (lo hi d : Nat) : Memory :=
  if lo < hi then
    { cells := m.cells.filter fun c => c.1 < lo || hi ≤ c.1
      discarded := insertRange { lo := lo, hi := hi, stamp := d } (m.discarded.flatMap (Discarded.without lo hi)) }
  else m

/-- The canonical form of memory: both lists rise, no cell holds what an unlisted address reads as, no discarded range is empty
or could be joined with the next, and no cell lies in one. -/
abbrev Memory.wf (m : Memory) : Prop :=
  m.cells.Pairwise (fun c d => c.1 < d.1) ∧
  (∀ c ∈ m.cells, c.2 ≠ Config.unlistedByte) ∧
  m.discarded.Pairwise (fun r q => r.hi < q.lo ∨ (r.hi = q.lo ∧ r.stamp ≠ q.stamp)) ∧
  (∀ r ∈ m.discarded, r.lo < r.hi) ∧
  (∀ c ∈ m.cells, ∀ r ∈ m.discarded, ¬ (r.lo ≤ c.1 ∧ c.1 < r.hi))

/-- The state with the bytes of `[lo, hi)` of the output space unspecified: free values of a new draw. -/
def State.discardOutput (s : State) (lo hi : Nat) : State :=
  { s with mem := s.mem.discard (s.phys .output lo) (s.phys .output hi) s.draws, draws := s.draws + 1 }

/-! ### Raising an error (R196) and what a flow of rules can answer -/

/-- The code of a validator reason (R108, R191). -/
def Reason.code : Reason → Nat
  | .negativeValue => 1
  | .offsetOutOfRange => 2
  | .lengthOutOfRange => 3
  | .rangeExceedsBuffer => 4
  | .arithmeticOverflow => 5

/-- The code of a `MalformedInput` reason (R192). -/
def MalformedReason.code : MalformedReason → Nat
  | .truncatedHeader => 1
  | .invalidLength => 2
  | .truncatedTag => 3
  | .truncatedTrailer => 4
  | .lengthOverflow => 5
  | .literalExceedsInput => 6
  | .outputOverrun => 7
  | .offsetZero => 8
  | .offsetBeyondWritten => 9
  | .trailingInput => 10
  | .invalidTag => 11

/-- The code of an `InvalidArgument` reason (R191). -/
def ArgumentReason.code : ArgumentReason → Nat
  | .val r => r.code
  | .absentBuffer => 6
  | .badCommand => 7
  | .badFormat => 8
  | .noHeader => 9

/-- The code of a `CapacityExceeded` reason (R193). -/
def CapacityReason.code : CapacityReason → Nat
  | .outputTooSmall => 1
  | .emissionOverrun => 2
  | .declaredExceedsCapacity => 3

/-- The value of `ERR_KIND` (R190). -/
def Error.kindCode : Error → Nat
  | .malformed _ _ => 1
  | .invalidArgument _ => 2
  | .capacity _ => 3

/-- The value of `ERR_REASON` (R191 to R193). -/
def Error.reasonCode : Error → Nat
  | .malformed r _ => r.code
  | .invalidArgument r => r.code
  | .capacity r => r.code

/-- The value of `ERR_OFFSET` (R194): 0 for the kinds other than `MalformedInput`. -/
def Error.offset : Error → Nat
  | .malformed _ o => o
  | .invalidArgument _ => 0
  | .capacity _ => 0

/-- The registers of R196: `ERR_KIND`, `ERR_REASON`, `ERR_OFFSET`, `RESULT` and `ST`. -/
def State.latchError (e : Error) (s : State) : State :=
  { s with
    st := .fault
    cr := { s.cr with
      result := 0
      errKind := BitVec.ofNat 32 e.kindCode
      errReason := BitVec.ofNat 32 e.reasonCode
      errOffset := BitVec.ofNat 32 e.offset } }

/-- The bytes of `OUT` that a fault raised in the current state leaves unspecified: `[ostart, oend)` in DEC when the command is
DECOMPRESS (R121), `[ostart, olimit)` in CMP (R162), none in `ARGCHECK` and none in GETULEN (R177). -/
def State.unspecifiedOnFault (s : State) : Option (Nat × Nat) :=
  match s.st with
  | .readHeader | .readTag | .emitLiteral | .emitCopy =>
    if s.cr.cmd = 4 then some (s.wr.ostart, s.wr.oend) else none
  | .cHeader | .cScan | .cEmit | .cTail => some (s.wr.ostart, s.wr.olimit)
  | .idle | .argcheck | .done | .fault => none

/-- Taking an error (R196): the registers latch it, the engine stops in `FAULT`, and the output view becomes unspecified
(R121, R162). -/
def State.takeError (e : Error) (s : State) : State :=
  match s.unspecifiedOnFault with
  | some (lo, hi) => (s.discardOutput lo hi).latchError e
  | none => s.latchError e

/-- Why a flow of rules ends early: an error raised in a state, or the model's own fault or refusal. -/
inductive Stop where
  | raised (e : Error) (s : State)
  | fault (f : Fault)
  | refused (r : Refusal)
  deriving DecidableEq, Repr

/-- The rules' pseudocode runs top to bottom; a stop ends it at once (R8). -/
abbrev Flow (α : Type) := Except Stop α

/-- `raise e` in state `s`; nothing after it in the rule happens (R8, R196). -/
def raise {α : Type} (e : Error) (s : State) : Flow α := .error (.raised e s)

/-- The model's own fault. -/
def stopFault {α : Type} (f : Fault) : Flow α := .error (.fault f)

/-- What a step answers after a flow: a raised error is a next state, in which it has been taken. -/
def finish : Flow State → Host.Outcome State Fault Refusal
  | .ok s => .next s
  | .error (.raised e s) => .next (s.takeError e)
  | .error (.fault f) => .fault f
  | .error (.refused r) => .refused r

/-- The end of a command (R113, R112, R157, R173): `CR.RESULT <- v; ST <- DONE`. R161 leaves the hash table unspecified after a
successful COMPRESS and R10 the working registers after any command: that both keep their last contents until the next accepted
write to `CMD` or a reset is the model's choice (DESIGN CHOICE, log 18). -/
def State.complete (v : Nat) (s : State) : State :=
  { s with st := .done, cr := { s.cr with result := BitVec.ofNat 32 v } }

/-! ### Control registers -/

/-- The number of a register (R19). -/
def CReg.number : CReg → Nat
  | .cmd => 0
  | .status => 1
  | .format => 2
  | .inCtl => 3
  | .inBaseLo => 4
  | .inBaseHi => 5
  | .inExtent => 6
  | .inOff => 7
  | .inLen => 8
  | .outCtl => 9
  | .outBaseLo => 10
  | .outBaseHi => 11
  | .outExtent => 12
  | .outOff => 13
  | .outMax => 14
  | .arg => 15
  | .ulen => 16
  | .result => 17
  | .errKind => 18
  | .errReason => 19
  | .errOffset => 20

/-- The byte offset of a register in the window (R19). -/
def CReg.byteOffset (r : CReg) : Nat := 4 * r.number

/-- What the host reads (R19 to R33); a read changes no register (R31). -/
def State.readReg (s : State) : CReg → Word
  | .cmd => s.cr.cmd
  | .status => s.status
  | .format => s.cr.format
  | .inCtl => s.cr.inCtl
  | .inBaseLo => s.cr.inBaseLo
  | .inBaseHi => s.cr.inBaseHi
  | .inExtent => s.cr.inExtent
  | .inOff => s.cr.inOff
  | .inLen => s.cr.inLen
  | .outCtl => s.cr.outCtl
  | .outBaseLo => s.cr.outBaseLo
  | .outBaseHi => s.cr.outBaseHi
  | .outExtent => s.cr.outExtent
  | .outOff => s.cr.outOff
  | .outMax => s.cr.outMax
  | .arg => s.cr.arg
  | .ulen => s.cr.ulen
  | .result => s.cr.result
  | .errKind => s.cr.errKind
  | .errReason => s.cr.errReason
  | .errOffset => s.cr.errOffset

/-- The working registers at the start of a command: none holds a value (R10, R170), so each is a free value (U4). -/
def Working.free (d : Nat) : Working :=
  { istart := (Config.freeInt d 0).toNat, iend := (Config.freeInt d 1).toNat, ip := (Config.freeInt d 2).toNat,
    ostart := (Config.freeInt d 3).toNat, oend := (Config.freeInt d 4).toNat, olimit := (Config.freeInt d 5).toNat,
    op := (Config.freeInt d 6).toNat, ulen := (Config.freeInt d 7).toNat, opc := (Config.freeInt d 8).toNat,
    tag := (Config.freeInt d 9).setWidth 8, cls := (Config.freeInt d 10).toNat, len := (Config.freeInt d 11).toNat,
    off := (Config.freeInt d 12).toNat, anchor := (Config.freeInt d 13).toNat, cand := (Config.freeInt d 14).toNat,
    mlen := (Config.freeInt d 15).toNat, ts := (Config.freeInt d 16).toNat }

/-- The start of a command by an accepted write of `v` to `CMD` (R20, R170). -/
def State.start (v : Word) (s : State) : State :=
  { s with
    st := .argcheck
    cr := { s.cr with cmd := v, result := 0, errKind := 0, errReason := 0, errOffset := 0 }
    wr := Working.free s.draws
    table := Config.freeTable s.draws
    draws := s.draws + 1 }

/-- The bits of a descriptor's control register that exist: `VALID` and `KIND` (R23). -/
def ctlBits (v : Word) : Word := v &&& 3

/-- A write the engine accepts (`BUSY = 0`): a W register takes the value, reserved bits ignore it, an RO register ignores the
write, and `CMD` starts a command (R19, R20, R23). -/
def State.acceptWrite (s : State) (v : Word) : CReg → State
  | .cmd => s.start v
  | .format => { s with cr := { s.cr with format := v } }
  | .inCtl => { s with cr := { s.cr with inCtl := ctlBits v } }
  | .inBaseLo => { s with cr := { s.cr with inBaseLo := v } }
  | .inBaseHi => { s with cr := { s.cr with inBaseHi := v } }
  | .inExtent => { s with cr := { s.cr with inExtent := v } }
  | .inOff => { s with cr := { s.cr with inOff := v } }
  | .inLen => { s with cr := { s.cr with inLen := v } }
  | .outCtl => { s with cr := { s.cr with outCtl := ctlBits v } }
  | .outBaseLo => { s with cr := { s.cr with outBaseLo := v } }
  | .outBaseHi => { s with cr := { s.cr with outBaseHi := v } }
  | .outExtent => { s with cr := { s.cr with outExtent := v } }
  | .outOff => { s with cr := { s.cr with outOff := v } }
  | .outMax => { s with cr := { s.cr with outMax := v } }
  | .arg => { s with cr := { s.cr with arg := v } }
  | .ulen => { s with cr := { s.cr with ulen := v } }
  | .status => s
  | .result => s
  | .errKind => s
  | .errReason => s
  | .errOffset => s

/-- The host's write of a control register: ignored while `BUSY = 1` (R33). -/
def State.writeReg (s : State) (r : CReg) (v : Word) : State :=
  if s.busy then s else s.acceptWrite v r

/-! ### The Buffer View primitives -/

/-- Every physical address of the view exists (R44): `BASE + limit <= 2^PADDR_BITS`. -/
def State.mapped (s : State) (V : View) (bits : Nat := Config.paddrBits) : Bool := decide (s.phys V.space V.limit ≤ 2 ^ bits)

/-- `BV.read(V, a)` (R92). -/
def State.bvRead (s : State) (V : View) (a : Nat) (bits : Nat := Config.paddrBits) : Flow Byte :=
  if a < V.start ∨ a ≥ V.limit then stopFault (.viewFailure .offsetOutOfRange)
  else if s.mapped V bits then .ok (s.mem.read (s.phys V.space a)) else stopFault .addressOutOfSpace

/-- `MemWrite(S, a, 1, [b])` (R8). -/
def State.setByte (s : State) (x : Space) (a : Nat) (b : Byte) : State :=
  { s with mem := s.mem.write (s.phys x a) b }

/-- `BV.write(V, a, b)` (R93). -/
def State.bvWrite (s : State) (V : View) (a : Nat) (b : Byte) (bits : Nat := Config.paddrBits) : Flow State :=
  if a < V.start ∨ a ≥ V.limit then stopFault (.viewFailure .offsetOutOfRange)
  else if s.mapped V bits then .ok (s.setByte V.space a b) else stopFault .addressOutOfSpace

/-- `BV.writeBytes(V, a, list)` (R97). -/
def State.bvWriteBytes (V : View) : List Byte → Nat → State → (bits : Nat := Config.paddrBits) → Flow State
  | [], _, s, _ => .ok s
  | b :: bs, a, s, bits => do
    let s' ← s.bvWrite V a b bits
    State.bvWriteBytes V bs (a + 1) s' bits

/-- The bytes `BV.read` gives from `a` on, at most `n` and none at or past the view's limit. -/
def State.fetch (s : State) (V : View) : Nat → Nat → (bits : Nat := Config.paddrBits) → Flow (List Byte)
  | 0, _, _ => .ok []
  | n + 1, a, bits =>
    if a ≥ V.limit then .ok []
    else do
      let b ← s.bvRead V a bits
      let bs ← s.fetch V n (a + 1) bits
      .ok (b :: bs)

/-- The failure of a `VAL.check` inside a primitive (R95, R96). -/
def checkRange (a n : Nat) (V : View) : Flow Unit :=
  match valCheck ((a : Int) - V.start) n ((V.limit : Int) - V.start) with
  | none => .ok ()
  | some r => stopFault (.viewFailure r)

/-- The bytes `src + i` of space `xs` moved to `dst + i` of space `xd`, for `i = 0 .. n-1` in this order, each read after the
writes before it (R52). -/
def State.moveBytes (xd xs : Space) : Nat → Nat → Nat → State → State
  | 0, _, _, s => s
  | n + 1, d, a, s => State.moveBytes xd xs n (d + 1) (a + 1) (s.setByte xd d (s.mem.read (s.phys xs a)))

/-- `BV.copyLiteral(Vd, d, Vs, s, n)` (R95). -/
def State.bvCopyLiteral (s : State) (Vd : View) (d : Nat) (Vs : View) (a n : Nat) (bits : Nat := Config.paddrBits) : Flow State := do
  checkRange a n Vs
  checkRange d n Vd
  if s.mapped Vs bits && s.mapped Vd bits then .ok (State.moveBytes Vd.space Vs.space n d a s) else stopFault .addressOutOfSpace

/-- `BV.copyForward(V, d, s, n)` (R96). -/
def State.bvCopyForward (s : State) (V : View) (d a n : Nat) (bits : Nat := Config.paddrBits) : Flow State := do
  if a < V.start ∨ a ≥ d then stopFault (.viewFailure .offsetOutOfRange)
  checkRange d n V
  if s.mapped V bits then .ok (State.moveBytes V.space V.space n d a s) else stopFault .addressOutOfSpace

/-- `IN[a]` (R8). -/
def State.inByte (s : State) (a : Nat) : Byte := s.mem.read (s.phys .input a)

/-- `OUT[a]` (R8). -/
def State.outByte (s : State) (a : Nat) : Byte := s.mem.read (s.phys .output a)

/-! ### Argument checks -/

/-- R171 for the commands that read `FORMAT`: the table it selects, else `BadFormat`. -/
def selectTable (s : State) (T : List FVT := tables) : Flow FVT :=
  match T[s.cr.format.toNat]? with
  | some F => .ok F
  | none => raise (.invalidArgument .badFormat) s

/-- The table a running command uses (R22). -/
def currentTable (s : State) (T : List FVT := tables) : Flow FVT :=
  match T[s.cr.format.toNat]? with
  | some F => .ok F
  | none => stopFault .noTable

/-- `ARG.view(x, off, len)` (R172). -/
def argView (s : State) (x : Space) (off len : Int) (bits : Nat := Config.paddrBits) : Flow Unit := do
  if s.cr.valid x = false then raise (.invalidArgument .absentBuffer) s
  match valCheck off len (s.cr.extent x) with
  | some r => raise (.invalidArgument (.val r)) s
  | none => .ok ()
  if s.cr.base x ≥ 2 ^ bits ∨ (s.cr.base x : Int) + s.cr.extent x > 2 ^ bits then
    raise (.invalidArgument (.val .arithmeticOverflow)) s

/-- The premise of every command with two views (R56, U5): the physical ranges of `[ioff, ioff + ilen)` of the input and of
`[ooff, ooff + olen)` of the output have no byte in common; else the model refuses. -/
def viewsDisjoint (s : State) (ioff ilen ooff olen : Nat) : Flow Unit :=
  if 0 < ilen ∧ 0 < olen ∧ s.phys .input ioff < s.phys .output (ooff + olen) ∧
      s.phys .output ooff < s.phys .input (ioff + ilen) then
    .error (.refused .viewsOverlap)
  else .ok ()

end Sys2Proof.Machine
end

