-- ==== Sys2Proof/Machine/Compressor.lean ====
section
/-! DEFINITION. The Raw Compressor CMP (43_compressor.md): the bound, the OPEN functions `HASH` and `TABLE_SIZE` at their defaults,
the match finder and the encoder, one transition for each visit of `C_HEADER`, `C_SCAN`, `C_EMIT` and `C_TAIL`. -/

namespace Sys2Proof.Machine

/-! ### The bound and the OPEN parameters -/

/-- `MCL(n)` (R141). -/
def mcl (n : Nat) : Nat := 32 + n + n / 6

/-- `MAX_BLOCK`, the largest `n` with `MCL(n) <= INT_MAX` (R4, R141). -/
def maxBlock : Nat := 1840700242

/-- The smallest power of two from `p` on that is at least `n`, after at most `k` doublings. -/
def tableSizeFrom : Nat → Nat → Nat → Nat
  | 0, p, _ => p
  | k + 1, p, n => if n ≤ p then p else tableSizeFrom k (2 * p) n

/-- `TABLE_SIZE(n)`, the default of the OPEN parameter (R145): 256 to 16384. -/
def tableSize (n : Nat) : Nat := tableSizeFrom 6 256 n

/-- `HASH(w, ts)`, the default of the OPEN parameter (R146). -/
def hash (w : List Byte) (ts : Nat) : Nat := le w * 0x1E35A7BD % 2 ^ 32 / 2 ^ (32 - ts.log2)

/-! ### The match finder (R151 to R154), over any reader of input bytes -/

/-- Forward extension (R152): `mlen` grows while the next bytes are equal and no limit is reached, at most `fuel` times. -/
def extendForward (rd : Nat → Byte) (iend maxLen cand s : Nat) : Nat → Nat → Nat
  | 0, mlen => mlen
  | fuel + 1, mlen =>
    if s + mlen < iend ∧ mlen < maxLen ∧ rd (cand + mlen) = rd (s + mlen) then
      extendForward rd iend maxLen cand s fuel (mlen + 1)
    else mlen

/-- Backward extension (R153), at most `fuel` times: the new start, candidate and length. -/
def extendBackward (rd : Nat → Byte) (istart anchor maxLen : Nat) : Nat → Nat → Nat → Nat → Nat × Nat × Nat
  | 0, s, cand, mlen => (s, cand, mlen)
  | fuel + 1, s, cand, mlen =>
    if s > anchor ∧ cand > istart ∧ mlen < maxLen ∧ rd (s - 1) = rd (cand - 1) then
      extendBackward rd istart anchor maxLen fuel (s - 1) (cand - 1) (mlen + 1)
    else (s, cand, mlen)

/-- The four bytes from `a` on. -/
def windowAt (rd : Nat → Byte) (a : Nat) : List Byte := [rd a, rd (a + 1), rd (a + 2), rd (a + 3)]

/-- The candidate test and both extensions at position `ip` for the table's entry `e` (R151 to R154): the start, the candidate
and the length of an accepted match. -/
def findMatch (F : FVT) (rd : Nat → Byte) (istart iend anchor ip : Nat) (e : Option Nat) : Option (Nat × Nat × Nat) :=
  match e with
  | none => none
  | some pos =>
    if ip - pos ≤ F.maxOffset ∧ windowAt rd pos = windowAt rd ip then
      let m := extendForward rd iend (F.maxLen .copy) pos ip (iend - ip) Config.window
      let r := if F.backwardExtend then extendBackward rd istart anchor (F.maxLen .copy) (ip - anchor) ip pos m
               else (ip, pos, m)
      if r.2.2 ≥ F.minMatch then some r else none
    else none

/-! ### Emission -/

/-- `CMP.reserve(k)` (R147). -/
def reserve (k : Nat) (s : State) : Flow Unit :=
  if k > s.wr.olimit - s.wr.op then raise (.capacity .emissionOverrun) s else .ok ()

/-- Reserve, write bytes at `op` and advance it (R97, R147). -/
def emitBytes (bs : List Byte) (s : State) (bits : Nat := Config.paddrBits) : Flow State := do
  let t ← State.bvWriteBytes s.vlim bs s.wr.op s bits
  .ok { t with wr := { t.wr with op := t.wr.op + bs.length } }

/-- One piece of a literal run: input bytes `[a, a + L)` as a Literal of the shortest class (R158). -/
def literalPiece (F : FVT) (a L : Nat) (s : State) (bits : Nat := Config.paddrBits) : Flow State := do
  match F.choose .literal L 0 with
  | none => stopFault .noClass
  | some c => do
    reserve (c.size + L) s
    let t ← emitBytes (c.encode L 0) s bits
    let u ← t.bvCopyLiteral t.vlim t.wr.op t.vin a L bits
    .ok { u with wr := { u.wr with op := u.wr.op + L } }

/-- `CMP.literalRun(a, b)` (R158, R159): pieces of at most `litMax(F)` bytes, at most `fuel` of them. -/
def literalRun (F : FVT) (b : Nat) : Nat → Nat → State → (bits : Nat := Config.paddrBits) → Flow State
  | 0, _, s, _ => .ok s
  | fuel + 1, a, s, bits =>
    if a < b then do
      let L := min (b - a) (F.maxLen .literal)
      let t ← literalPiece F a L s bits
      literalRun F b fuel (a + L) t bits
    else .ok s

/-- `CMP.copy(len, off)` (R160). -/
def copyEmission (F : FVT) (len off : Nat) (s : State) (bits : Nat := Config.paddrBits) : Flow State :=
  match F.choose .copy len off with
  | none => stopFault .noClass
  | some c => do
    reserve c.size s
    emitBytes (c.encode len off) s bits

/-! ### The transitions -/

/-- The header of the block, where the table has one (R143). -/
def emitHeader (F : FVT) (s : State) (bits : Nat := Config.paddrBits) : Flow State :=
  if F.hasHeader then do
    reserve (shortestVarint (s.wr.iend - s.wr.istart)).length s
    emitBytes (shortestVarint (s.wr.iend - s.wr.istart)) s bits
  else .ok s

/-- `C_HEADER` (R143, R144) for a table `F` and a `TABLE_SIZE` function `tsz`. -/
def cHeader (F : FVT) (tsz : Nat → Nat) (s : State) (bits : Nat := Config.paddrBits) : Flow State := do
  let t ← emitHeader F s bits
  let n := t.wr.iend - t.wr.istart
  .ok { t with
    wr := { t.wr with ts := tsz n, ip := t.wr.istart, anchor := t.wr.istart }
    table := List.replicate (tsz n) none
    st := .cScan }

/-- `BV.window(V, a)` (R98). -/
def State.bvWindow (s : State) (V : View) (a : Nat) (bits : Nat := Config.paddrBits) : Flow (List Byte) :=
  s.fetch V Config.window a bits

/-- `C_SCAN` (R148 to R154) for a table `F` and a `HASH` function `h`: one position. -/
def cScan (F : FVT) (h : List Byte → Nat → Nat) (s : State) (bits : Nat := Config.paddrBits) : Flow State :=
  if s.wr.iend - s.wr.ip < Config.window then .ok { s with st := .cTail }
  else do
    let w ← s.bvWindow s.vin s.wr.ip bits
    let e := (s.table[h w s.wr.ts]?).getD none
    let t := { s with table := s.table.set (h w s.wr.ts) (some s.wr.ip) }
    match findMatch F t.inByte t.wr.istart t.wr.iend t.wr.anchor t.wr.ip e with
    | none => .ok { t with wr := { t.wr with ip := t.wr.ip + 1 } }
    | some (p, cand, mlen) => .ok { t with wr := { t.wr with ip := p, cand := cand, mlen := mlen }, st := .cEmit }

/-- `C_EMIT` (R156). -/
def cEmit (F : FVT) (s : State) (bits : Nat := Config.paddrBits) : Flow State := do
  let t ← literalRun F s.wr.ip (s.wr.ip - s.wr.anchor) s.wr.anchor s bits
  let u ← copyEmission F t.wr.mlen (t.wr.ip - t.wr.cand) t bits
  .ok { u with wr := { u.wr with ip := u.wr.ip + u.wr.mlen, anchor := u.wr.ip + u.wr.mlen }, st := .cScan }

/-- `C_TAIL` (R157). -/
def cTail (F : FVT) (s : State) (bits : Nat := Config.paddrBits) : Flow State := do
  let t ← literalRun F s.wr.iend (s.wr.iend - s.wr.anchor) s.wr.anchor s bits
  .ok (t.complete (t.wr.op - t.wr.ostart))

end Sys2Proof.Machine
end

