-- ==== Sys2Proof/Machine/Decompressor.lean ====
section
/-! DEFINITION. The Raw Decompressor DEC (42_decompressor.md): the header, the operations and the transitions of `READ_TAG`,
`EMIT_LITERAL` and `EMIT_COPY`. A meaning executes the whole operation: it decodes in `READ_TAG` and goes through its `EMIT_*`
state (log 5). -/

namespace Sys2Proof.Machine

/-! ### READ_HEADER -/

/-- The last lines of R112, with `ulen` written: GETULEN ends here; DECOMPRESS tests the capacity and goes to `READ_TAG`. -/
def acceptLength (s : State) : Flow State :=
  if s.cr.cmd = 3 then .ok (s.complete s.wr.ulen)
  else if s.wr.ulen > s.wr.oend - s.wr.ostart then raise (.capacity .declaredExceedsCapacity) s
  else .ok { s with wr := { s.wr with olimit := s.wr.ostart + s.wr.ulen }, st := .readTag }

/-- `HDR` (R112): the varint has been read by `decodeHeader`; a value above `INT_MAX` is `INVALID_LENGTH` (R63). -/
def readHeader (size value : Nat) (s : State) : Flow State :=
  if value > intMax then raise (.malformed .invalidLength 0) s
  else acceptLength { s with wr := { s.wr with ulen := value, ip := s.wr.ip + size } }

/-- R112 for a table without a header: the length comes from `CR.ULEN` (R26). -/
def readOutOfBand (s : State) : Flow State :=
  acceptLength { s with wr := { s.wr with ulen := (sext s.cr.ulen).toNat } }

/-- The reason of a header that does not decode (R112). -/
def headerReason : DecodeError → MalformedReason
  | .truncatedHeader => .truncatedHeader
  | _ => .invalidLength

/-- `HDR`. -/
def execHdr (size value : Nat) (s : State) : Host.Outcome State Fault Refusal := finish (readHeader size value s)

/-! ### READ_TAG -/

/-- The completion test (R113), made before every tag fetch: `none` where a tag is to be fetched. -/
def completion (s : State) : Option (Flow State) :=
  if s.wr.op = s.wr.olimit then
    if s.wr.ip = s.wr.iend then some (.ok (s.complete s.wr.ulen))
    else some (raise (.malformed .trailingInput (s.wr.ip - s.wr.istart)) s)
  else if s.wr.ip = s.wr.iend then some (raise (.malformed .truncatedTag (s.wr.ip - s.wr.istart)) s)
  else none

/-- The offset every fault of an operation reports: that of its tag byte, engine-relative (R114, R194). -/
def State.opOffset (s : State) : Nat := s.wr.opc - s.wr.istart

/-- `opc <- ip; tag <- t; ip <- ip + 1` (R114). -/
def State.fetchTag (t : Byte) (s : State) : State :=
  { s with wr := { s.wr with opc := s.wr.ip, tag := t, ip := s.wr.ip + 1 } }

/-- The reason of an operation that does not decode (R113 to R117). -/
def operationReason : DecodeError → MalformedReason
  | .truncatedTag => .truncatedTag
  | .lengthOverflow => .lengthOverflow
  | _ => .truncatedTrailer

/-- The index of a class in FVT0 or FVT1, the tables of R71 and R76. -/
def ClassName.index : ClassName → Nat
  | .litI => 0
  | .litT1 => 1
  | .litT2 => 2
  | .litT3 => 3
  | .litT4 => 4
  | .copy1 => 5
  | .copy2 => 6
  | .copy4 => 7
  | .copyX => 7

/-- `cls` of an operation of class `c`: the class's index in the list of the table that `FORMAT` selects among `T` (R10, R11, R114).
For a class the selected table does not have, which no table decodes, `exec` gives the index of FVT0 or FVT1 (DESIGN CHOICE,
log 24). -/
def classIndex (c : ClassName) (s : State) (T : List FVT := tables) : Nat :=
  ((T[s.cr.format.toNat]?).bind (·.indexOf c)).getD (ClassName.index c)

/-- The tag byte of an operation. -/
def tagOf (c : TagClass) (len off : Nat) : Byte := (c.encode len off).headD 0

/-- `READ_TAG` for a decoded operation of class `c`, index `cls` (R114 to R117): the tag `t` is fetched, the class, the length and
the offset are written, `ip` passes the trailers, and a length or an offset above `INT_MAX` is `LENGTH_OVERFLOW`. -/
def readOperation (c : TagClass) (cls : Nat) (t : Byte) (len off : Nat) (s : State) : Flow State :=
  let s1 := s.fetchTag t
  let s2 := { s1 with wr := { s1.wr with cls := cls, len := len, off := off, ip := s1.wr.ip + c.nL + c.nO } }
  if len > intMax ∨ off > intMax then raise (.malformed .lengthOverflow s2.opOffset) s2
  else
    match c.kind with
    | .literal => .ok { s2 with st := .emitLiteral }
    | .copy => .ok { s2 with st := .emitCopy }

/-- `READ_TAG` for an operation of a row of the opcode table. -/
def readTag (c : ClassName) (len off : Nat) (s : State) (T : List FVT := tables) : Flow State :=
  readOperation c.row (classIndex c s T) (tagOf c.row len off) len off s

/-! ### EMIT_LITERAL and EMIT_COPY -/

/-- `EMIT_LITERAL` (R118). -/
def emitLiteral (s : State) (bits : Nat := Config.paddrBits) : Flow State := do
  if s.wr.len > s.wr.iend - s.wr.ip then raise (.malformed .literalExceedsInput s.opOffset) s
  if s.wr.len > s.wr.olimit - s.wr.op then raise (.malformed .outputOverrun s.opOffset) s
  let t ← s.bvCopyLiteral s.vlim s.wr.op s.vin s.wr.ip s.wr.len bits
  .ok { t with wr := { t.wr with ip := t.wr.ip + t.wr.len, op := t.wr.op + t.wr.len }, st := .readTag }

/-- `EMIT_COPY` (R119). -/
def emitCopy (s : State) (bits : Nat := Config.paddrBits) : Flow State := do
  if s.wr.off = 0 then raise (.malformed .offsetZero s.opOffset) s
  if s.wr.off > s.wr.op - s.wr.ostart then raise (.malformed .offsetBeyondWritten s.opOffset) s
  if s.wr.len > s.wr.olimit - s.wr.op then raise (.malformed .outputOverrun s.opOffset) s
  let t ← s.bvCopyForward s.vlim s.wr.op (s.wr.op - s.wr.off) s.wr.len bits
  .ok { t with wr := { t.wr with op := t.wr.op + t.wr.len }, st := .readTag }

/-- An operation of any class `c` of table `F` with tag `t` (R114 to R119). -/
def tableOperation (F : FVT) (c : TagClass) (t : Byte) (len off : Nat) (s : State) (bits : Nat := Config.paddrBits) :
    Flow State := do
  let u ← readOperation c (F.classes.idxOf c) t len off s
  match c.kind with
  | .literal => emitLiteral u bits
  | .copy => emitCopy u bits

/-- A literal operation of class `c`. -/
def literalOp (c : ClassName) (len : Nat) (s : State) (T : List FVT := tables) (bits : Nat := Config.paddrBits) : Flow State := do
  let t ← readTag c len 0 s T
  emitLiteral t bits

/-- A copy operation of class `c`. -/
def copyOp (c : ClassName) (len off : Nat) (s : State) (T : List FVT := tables) (bits : Nat := Config.paddrBits) : Flow State := do
  let t ← readTag c len off s T
  emitCopy t bits

/-! ### The operations, one meaning each (R122 to R130, R114) -/

/-- `LIT_I` (R122). -/
def execLitI (len : Nat) (s : State) : Host.Outcome State Fault Refusal := finish (literalOp .litI len s)

/-- `LIT_T1` (R123). -/
def execLitT1 (len : Nat) (s : State) : Host.Outcome State Fault Refusal := finish (literalOp .litT1 len s)

/-- `LIT_T2` (R124). -/
def execLitT2 (len : Nat) (s : State) : Host.Outcome State Fault Refusal := finish (literalOp .litT2 len s)

/-- `LIT_T3` (R125). -/
def execLitT3 (len : Nat) (s : State) : Host.Outcome State Fault Refusal := finish (literalOp .litT3 len s)

/-- `LIT_T4` (R126). -/
def execLitT4 (len : Nat) (s : State) : Host.Outcome State Fault Refusal := finish (literalOp .litT4 len s)

/-- `COPY1` (R127). -/
def execCopy1 (len off : Nat) (s : State) : Host.Outcome State Fault Refusal := finish (copyOp .copy1 len off s)

/-- `COPY2` (R128). -/
def execCopy2 (len off : Nat) (s : State) : Host.Outcome State Fault Refusal := finish (copyOp .copy2 len off s)

/-- `COPY4` (R129). -/
def execCopy4 (len off : Nat) (s : State) : Host.Outcome State Fault Refusal := finish (copyOp .copy4 len off s)

/-- `COPYX` (R130). -/
def execCopyX (len off : Nat) (s : State) : Host.Outcome State Fault Refusal := finish (copyOp .copyX len off s)

/-- A reserved tag (R114): the tag is fetched and the operation faults `INVALID_TAG` at its offset. -/
def execReservedFvt1 (tag : Byte) (s : State) : Host.Outcome State Fault Refusal :=
  let t := s.fetchTag tag
  finish (raise (.malformed .invalidTag t.opOffset) t)

end Sys2Proof.Machine
end

