-- ==== Sys2Proof/Machine/Commands.lean ====
section
/-! DEFINITION. The four host commands (44_commands.md): the state `ARGCHECK`. The meaning of a command is its `ARGCHECK`
transition, which completes MAXLEN and hands the others to DEC or CMP (log 5). -/

namespace Sys2Proof.Machine

/-- `MAXLEN` (R173). -/
def argMaxlen (s : State) : Flow State := do
  if sext s.cr.arg < 0 then raise (.invalidArgument (.val .negativeValue)) s
  if sext s.cr.arg > maxBlock then raise (.invalidArgument (.val .arithmeticOverflow)) s
  .ok (s.complete (mcl (sext s.cr.arg).toNat))

/-- `COMPRESS`, entry (R174). -/
def argCompress (s : State) (T : List FVT := tables) (bits : Nat := Config.paddrBits) : Flow State := do
  let _ ← selectTable s T
  argView s .input (sext s.cr.inOff) (sext s.cr.inLen) bits
  argView s .output (sext s.cr.outOff) (sext s.cr.outMax) bits
  let ioff := (sext s.cr.inOff).toNat
  let n := (sext s.cr.inLen).toNat
  let ooff := (sext s.cr.outOff).toNat
  let omax := (sext s.cr.outMax).toNat
  if n > maxBlock then raise (.invalidArgument (.val .arithmeticOverflow)) s
  if omax < mcl n then raise (.capacity .outputTooSmall) s
  viewsDisjoint s ioff n ooff omax
  .ok { s with
    wr := { s.wr with istart := ioff, iend := ioff + n, ostart := ooff, op := ooff, olimit := ooff + mcl n }
    st := .cHeader }

/-- `GETULEN`, entry (R176), once the table is selected. -/
def getulenEntry (F : FVT) (s : State) (bits : Nat := Config.paddrBits) : Flow State := do
  if F.hasHeader = false then raise (.invalidArgument .noHeader) s
  argView s .input (sext s.cr.inOff) 0 bits
  let off := (sext s.cr.inOff).toNat
  .ok { s with
    wr := { s.wr with istart := off, iend := (sext s.cr.inExtent).toNat, ip := off }
    st := .readHeader }

/-- `GETULEN`, entry (R176). -/
def argGetulen (s : State) (T : List FVT := tables) (bits : Nat := Config.paddrBits) : Flow State := do
  let F ← selectTable s T
  getulenEntry F s bits

/-- `DECOMPRESS`, entry (R179), once the table is selected. -/
def decompressEntry (F : FVT) (s : State) (bits : Nat := Config.paddrBits) : Flow State := do
  argView s .input (sext s.cr.inOff) (sext s.cr.inLen) bits
  argView s .output (sext s.cr.outOff) (sext s.cr.outMax) bits
  if F.hasHeader = false ∧ sext s.cr.ulen < 0 then raise (.invalidArgument (.val .negativeValue)) s
  let ioff := (sext s.cr.inOff).toNat
  let ilen := (sext s.cr.inLen).toNat
  let ooff := (sext s.cr.outOff).toNat
  let omax := (sext s.cr.outMax).toNat
  viewsDisjoint s ioff ilen ooff omax
  .ok { s with
    wr := { s.wr with istart := ioff, iend := ioff + ilen, ip := ioff, ostart := ooff, oend := ooff + omax, op := ooff }
    st := .readHeader }

/-- `DECOMPRESS`, entry (R179). -/
def argDecompress (s : State) (T : List FVT := tables) (bits : Nat := Config.paddrBits) : Flow State := do
  let F ← selectTable s T
  decompressEntry F s bits

/-- `MAXLEN`. -/
def execMaxlen (s : State) : Host.Outcome State Fault Refusal := finish (argMaxlen s)

/-- `COMPRESS`. -/
def execCompress (s : State) : Host.Outcome State Fault Refusal := finish (argCompress s)

/-- `GETULEN`. -/
def execGetulen (s : State) : Host.Outcome State Fault Refusal := finish (argGetulen s)

/-- `DECOMPRESS`. -/
def execDecompress (s : State) : Host.Outcome State Fault Refusal := finish (argDecompress s)

end Sys2Proof.Machine
end

