-- ==== Sys2Proof/Machine/Dispatch.lean ====
section
/-! DEFINITION. One arm for each instruction. -/

namespace Sys2Proof.Machine

def exec (i : Instr) (s : State) : Host.Outcome State Fault Refusal :=
  match i with
  | .hdr size value => Sys2Proof.Machine.execHdr size value s
  | .litI len => Sys2Proof.Machine.execLitI len s
  | .litT1 len => Sys2Proof.Machine.execLitT1 len s
  | .litT2 len => Sys2Proof.Machine.execLitT2 len s
  | .litT3 len => Sys2Proof.Machine.execLitT3 len s
  | .litT4 len => Sys2Proof.Machine.execLitT4 len s
  | .copy1 len off => Sys2Proof.Machine.execCopy1 len off s
  | .copy2 len off => Sys2Proof.Machine.execCopy2 len off s
  | .copy4 len off => Sys2Proof.Machine.execCopy4 len off s
  | .copyX len off => Sys2Proof.Machine.execCopyX len off s
  | .reservedFvt1 tag => Sys2Proof.Machine.execReservedFvt1 tag s
  | .maxlen => Sys2Proof.Machine.execMaxlen s
  | .compress => Sys2Proof.Machine.execCompress s
  | .getulen => Sys2Proof.Machine.execGetulen s
  | .decompress => Sys2Proof.Machine.execDecompress s

end Sys2Proof.Machine
end

