-- ==== Sys2Proof/Machine/HostMoves.lean ====
section
/-! DEFINITION. What the host does: it reads and writes control registers, loads and stores bytes of memory, and resets the engine
(R5, R19, R33, R53, R57, R181, R220 to R222). -/

namespace Sys2Proof.Machine

/-- The physical range `[lo, hi)` of the input view of the command in `CMD`, from the registers, which cannot change while it runs
(R32, R33): `[IN_OFF, IN_OFF + IN_LEN)`, to `IN_EXTENT` for GETULEN (R176), none for MAXLEN (R173). -/
def State.inputRange (s : State) : Int × Int :=
  let lo := (s.cr.base .input : Int) + sext s.cr.inOff
  if s.cr.cmd = 2 ∨ s.cr.cmd = 4 then (lo, lo + sext s.cr.inLen)
  else if s.cr.cmd = 3 then (lo, (s.cr.base .input : Int) + sext s.cr.inExtent)
  else (0, 0)

/-- The physical range of the output view of the command in `CMD`: `[OUT_OFF, OUT_OFF + OUT_MAX)` for COMPRESS and DECOMPRESS. -/
def State.outputRange (s : State) : Int × Int :=
  let lo := (s.cr.base .output : Int) + sext s.cr.outOff
  if s.cr.cmd = 2 ∨ s.cr.cmd = 4 then (lo, lo + sext s.cr.outMax) else (0, 0)

/-- Whether `a` lies in a range. -/
def inSpan (a : Nat) (r : Int × Int) : Bool := decide (r.1 ≤ a) && decide ((a : Int) < r.2)

/-- Memory after a reset (R221, R222): untouched, but the output view of an abandoned command is unspecified, in whatever busy state
the reset finds it (U2). -/
def State.memAfterReset (s : State) : Memory :=
  if s.busy = true then s.mem.discard s.outputRange.1.toNat s.outputRange.2.toNat s.draws else s.mem

/-- The reset event (R220 to R223): the engine's state is that of `State.reset`; memory, and the model's own fields, go on. -/
def State.resetEvent (s : State) : State :=
  { State.reset with mem := s.memAfterReset, turns := s.turns, readData := s.readData, draws := s.draws + 1 }

/-- One move of the host. -/
def hostMove (m : HostMove) (s : State) (bits : Nat := Config.paddrBits) : Host.Outcome State Fault Refusal :=
  match m with
  | .writeReg r v => .next (s.writeReg r v)
  | .readReg r => .next { s with readData := s.readReg r, draws := s.draws + 1 }
  | .storeByte a b =>
    if a ≥ 2 ^ bits then .fault .addressOutOfSpace
    else if s.busy && (inSpan a s.inputRange || inSpan a s.outputRange) then .refused .hostTouchesView
    else .next { s with mem := s.mem.write a b }
  | .loadByte a =>
    if a ≥ 2 ^ bits then .fault .addressOutOfSpace
    else if s.busy && inSpan a s.outputRange then .refused .hostTouchesView
    else .next { s with readData := (s.mem.read a).setWidth 32 }
  | .reset => .next s.resetEvent

end Sys2Proof.Machine
end

