-- ==== Sys2Proof/Machine/Engine.lean ====
section
/-! DEFINITION. One transition of the engine: where it stands (`ST`) says what it does next (R17, R18, R111). The OPEN parameters
of R4 are arguments that stand at their defaults where they are left out: `T` the tables, `bits` `PADDR_BITS`, `h` `HASH`, `tsz`
`TABLE_SIZE`; `ex` is what an instruction does, `exec` at the defaults; `rt` is `READ_TAG`. -/

namespace Sys2Proof.Machine

/-- The most bytes an operation has before any literal data: a tag, four length trailers and four offset trailers (R61). -/
def longestHead : Nat := 9

/-- `ARGCHECK` (R171): the command whose code stands in `CMD` runs; any other value is `BadCommand`. -/
def stepArgcheck (s : State)
    (ex : Instr → State → Host.Outcome State Fault Refusal := exec) : Host.Outcome State Fault Refusal :=
  match decodeCommand s.cr.cmd with
  | .ok i => ex i s
  | .error _ => finish (raise (.invalidArgument .badCommand) s)

/-- The header at `ip`, decoded from the bytes of the input view (R112), or why it is rejected. -/
def fetchHeader (s : State) (bits : Nat := Config.paddrBits) : Flow (Except DecodeError Instr) := do
  let bs ← s.fetch s.vin Config.varintMaxBytes s.wr.ip bits
  .ok (decodeHeader bs)

/-- `READ_HEADER` (R112). -/
def stepReadHeader (s : State) (T : List FVT := tables) (bits : Nat := Config.paddrBits)
    (ex : Instr → State → Host.Outcome State Fault Refusal := exec) : Host.Outcome State Fault Refusal :=
  match currentTable s T with
  | .error e => finish (.error e)
  | .ok F =>
    if F.hasHeader then
      match fetchHeader s bits with
      | .error e => finish (.error e)
      | .ok (.ok i) => ex i s
      | .ok (.error e) => finish (raise (.malformed (headerReason e) 0) s)
    else finish (readOutOfBand s)

/-- The operation at `ip` under table `F`, decoded from the bytes of the input view (R114 to R117), or why it is rejected. -/
def fetchOperation (F : FVT) (s : State) : Flow (Except DecodeError Instr) := do
  let bs ← s.fetch s.vin longestHead s.wr.ip
  .ok (decodeOperation F bs)

/-- `READ_TAG` (R113 to R117), and the operation it decodes (log 5), where every class of the tables has a row in the opcode table. -/
def stepReadTag (s : State) : Host.Outcome State Fault Refusal :=
  match completion s with
  | some r => finish r
  | none =>
    match currentTable s with
    | .error e => finish (.error e)
    | .ok F =>
      match fetchOperation F s with
      | .error e => finish (.error e)
      | .ok (.ok i) => exec i s
      | .ok (.error e) =>
        let t := s.fetchTag (s.inByte s.wr.ip)
        finish (raise (.malformed (operationReason e) t.opOffset) t)

/-- `READ_TAG` and the operation it decodes under any tables `T`; `stepReadTag` where they are FVT0 and FVT1. -/
def stepReadTagWith (T : List FVT) (bits : Nat) (s : State) : Host.Outcome State Fault Refusal :=
  match completion s with
  | some r => finish r
  | none =>
    match currentTable s T with
    | .error e => finish (.error e)
    | .ok F =>
      match s.fetch s.vin longestHead s.wr.ip bits with
      | .error e => finish (.error e)
      | .ok bs =>
        match decodeClass F bs with
        | .ok (some (c, len, off)) => finish (tableOperation F c (s.inByte s.wr.ip) len off s bits)
        | .ok none => execReservedFvt1 (s.inByte s.wr.ip) s
        | .error e =>
          let t := s.fetchTag (s.inByte s.wr.ip)
          finish (raise (.malformed (operationReason e) t.opOffset) t)

/-- A transition of CMP, which consults the running command's table. -/
def withTable (f : FVT → State → Flow State) (s : State) (T : List FVT := tables) : Host.Outcome State Fault Refusal :=
  finish (do
    let F ← currentTable s T
    f F s)

/-- One transition of the engine. In `IDLE`, `DONE` and `FAULT` it waits for a write to `CMD` (R18, R209). -/
def engineStep (s : State) (T : List FVT := tables) (bits : Nat := Config.paddrBits)
    (h : List Byte → Nat → Nat := hash) (tsz : Nat → Nat := tableSize)
    (ex : Instr → State → Host.Outcome State Fault Refusal := exec)
    (rt : State → Host.Outcome State Fault Refusal := stepReadTag) : Host.Outcome State Fault Refusal :=
  match s.st with
  | .idle => .next s
  | .argcheck => stepArgcheck s ex
  | .readHeader => stepReadHeader s T bits ex
  | .readTag => rt s
  | .emitLiteral => finish (emitLiteral s bits)
  | .emitCopy => finish (emitCopy s bits)
  | .cHeader => withTable (fun F t => cHeader F tsz t bits) s T
  | .cScan => withTable (fun F t => cScan F h t bits) s T
  | .cEmit => withTable (fun F t => cEmit F t bits) s T
  | .cTail => withTable (fun F t => cTail F t bits) s T
  | .done => .next s
  | .fault => .next s

/-- One step: the first turn of the schedule, or, where nothing is scheduled, a turn of the engine. -/
def turnStep (s : State) (T : List FVT := tables) (bits : Nat := Config.paddrBits)
    (h : List Byte → Nat → Nat := hash) (tsz : Nat → Nat := tableSize)
    (ex : Instr → State → Host.Outcome State Fault Refusal := exec)
    (rt : State → Host.Outcome State Fault Refusal := stepReadTag) : Host.Outcome State Fault Refusal :=
  match s.turns with
  | [] => engineStep s T bits h tsz ex rt
  | .engine :: rest => engineStep { s with turns := rest } T bits h tsz ex rt
  | .host m :: rest => hostMove m { s with turns := rest } bits

/-! ### Placing a word of the opcode table where the next step fetches it -/

/-- The registers of a running DECOMPRESS over a 64-byte input buffer at `0x1000` and a 64-byte output buffer at `0x2000`. -/
def State.inDecompress (s : State) (format : Nat) : State :=
  { s with
    turns := []
    cr := { s.cr with
      cmd := 4, format := BitVec.ofNat 32 format, inCtl := 1, inBaseLo := 0x1000, inBaseHi := 0, inExtent := 64, inOff := 0,
      inLen := 64, outCtl := 1, outBaseLo := 0x2000, outBaseHi := 0, outExtent := 64, outOff := 0, outMax := 64,
      result := 0, errKind := 0, errReason := 0, errOffset := 0 }
    wr := { s.wr with istart := 0, iend := 64, ip := 0, ostart := 0, oend := 64, op := 0 } }

/-- Bytes placed in the input buffer from logical offset `a` on. -/
def State.placeInput (a : Nat) : List Byte → State → State
  | [], s => s
  | b :: bs, s => State.placeInput (a + 1) bs (s.setByte .input a b)

/-- `s` with a code placed so that the very next step runs it (log 20): a command in `CMD` with the engine in `ARGCHECK`; a header
at the start of the input view of a running DECOMPRESS in `READ_HEADER`; an operation after a header byte that declares 64, with
the engine in `READ_TAG`. -/
def State.placeCode (s : State) (format : Nat) : Code → State
  | .command w =>
    { s with turns := [], st := .argcheck, cr := { s.cr with cmd := w, result := 0, errKind := 0, errReason := 0, errOffset := 0 } }
  | .header bs => { State.placeInput 0 bs (s.inDecompress format) with st := .readHeader }
  | .operation bs =>
    let t := State.placeInput 0 (64 :: bs) (s.inDecompress format)
    { t with st := .readTag, wr := { t.wr with ip := 1, ulen := 64, olimit := 64 } }

end Sys2Proof.Machine
end

