-- ==== Sys2Proof/Machine/Step.lean ====
section
/-! DEFINITION. The step of the machine, and a word of the opcode table placed where the next step fetches it. -/

namespace Sys2Proof.Machine

/-- One step. -/
def step (s : State) : Host.Outcome State Fault Refusal := turnStep s

/-- `s` with the instruction of an opcode-table word stored where the next step fetches it. -/
def State.withFetchWord (s : State) (nbits w : Nat) : State :=
  s.placeCode (tableFormat nbits w) (tableCode nbits w)

end Sys2Proof.Machine
end

