-- ==== Sys2Proof/Machine/Functions.lean ====
section
/-! DEFINITION. DEC and CMP as functions on byte lists: `Decode(F, B, cap, oob)` (R135) and `Encode(F, b, HASH, TABLE_SIZE)` (R165),
the big-step reading of a whole command (R111, R180, R175). -/

namespace Sys2Proof.Machine

/-- The bytes of a view from offset `a` to its limit, ascending. -/
def State.bytesFrom (s : State) (V : View) (a : Nat) : List Byte :=
  (List.range' a (V.limit - a)).map fun i => s.mem.read (s.phys V.space i)

/-- The result of `Decode` (R135). -/
inductive BlockResult where
  | ok (bytes : List Byte)
  | fault (e : Error)
  deriving DecidableEq, Repr

/-- The forward copy on the output so far: `n` bytes, each the one `off` before the end (R52, R96). -/
def copyOut (off : Nat) : Nat → List Byte → List Byte
  | 0, out => out
  | n + 1, out => copyOut off n (out ++ [out.getD (out.length - off) 0])

/-- The effect of one operation of class `c` whose head ends before `pos'` and whose tag is at `pos` (R118, R119): the next input
position and the output. -/
def runOperation (B : List Byte) (ulen pos pos' : Nat) (out : List Byte) (kind : OpKind) (len off : Nat) :
    Except Error (Nat × List Byte) :=
  match kind with
  | .literal =>
    if len > B.length - pos' then .error (.malformed .literalExceedsInput pos)
    else if len > ulen - out.length then .error (.malformed .outputOverrun pos)
    else .ok (pos' + len, out ++ (B.drop pos').take len)
  | .copy =>
    if off = 0 then .error (.malformed .offsetZero pos)
    else if off > out.length then .error (.malformed .offsetBeyondWritten pos)
    else if len > ulen - out.length then .error (.malformed .outputOverrun pos)
    else .ok (pos', copyOut off len out)

/-- The operations from input position `pos` on, `out` being written (R113 to R119), at most `fuel` passes. -/
def decodeFrom (F : FVT) (B : List Byte) (ulen : Nat) : Nat → Nat → List Byte → BlockResult
  | 0, _, out => .ok out
  | fuel + 1, pos, out =>
    if out.length = ulen then
      if pos = B.length then .ok out else .fault (.malformed .trailingInput pos)
    else if pos = B.length then .fault (.malformed .truncatedTag pos)
    else
      match decodeClass F (B.drop pos) with
      | .error e => .fault (.malformed (operationReason e) pos)
      | .ok none => .fault (.malformed .invalidTag pos)
      | .ok (some (c, len, off)) =>
        match runOperation B ulen pos (pos + c.size) out c.kind len off with
        | .error e => .fault e
        | .ok (pos', out') => decodeFrom F B ulen fuel pos' out'

/-- The body of a block after its header (R112): the capacity test, then the operations. -/
def decodeBody (F : FVT) (B : List Byte) (cap ulen pos : Nat) : BlockResult :=
  if ulen > cap then .fault (.capacity .declaredExceedsCapacity) else decodeFrom F B ulen (B.length + 1) pos []

/-- `Decode(F, B, cap, oob)` (R135). -/
def decodeBlock (F : FVT) (B : List Byte) (cap oob : Nat) : BlockResult :=
  if F.hasHeader then
    match readVarint B with
    | .error e => .fault (.malformed (headerReason e) 0)
    | .ok (ulen, size) => decodeBody F B cap ulen size
  else decodeBody F B cap oob 0

/-- The bytes a literal run of the positions `[a, e)` of `b` is emitted as (R158, R159), at most `fuel` pieces. -/
def literalRunBytes (F : FVT) (b : List Byte) (e : Nat) : Nat → Nat → List Byte
  | 0, _ => []
  | fuel + 1, a =>
    if a < e then
      let L := min (e - a) (F.maxLen .literal)
      let head := match F.choose .literal L 0 with
        | none => []
        | some c => c.encode L 0
      head ++ (b.drop a).take L ++ literalRunBytes F b e fuel (a + L)
    else []

/-- The bytes a copy is emitted as (R160). -/
def copyBytes (F : FVT) (len off : Nat) : List Byte :=
  match F.choose .copy len off with
  | none => []
  | some c => c.encode len off

/-- The scan from position `ip` on with the pending run from `anchor` on (R148 to R157), at most `fuel` positions: what is emitted
after `out`. -/
def encodeFrom (F : FVT) (h : List Byte → Nat → Nat) (ts : Nat) (b : List Byte) :
    Nat → List (Option Nat) → Nat → Nat → List Byte
  | 0, _, _, _ => []
  | fuel + 1, T, anchor, ip =>
    if b.length - ip < Config.window then literalRunBytes F b b.length (b.length - anchor) anchor
    else
      let slot := h (windowAt (fun a => b.getD a 0) ip) ts
      let T' := T.set slot (some ip)
      match findMatch F (fun a => b.getD a 0) 0 b.length anchor ip ((T[slot]?).getD none) with
      | none => encodeFrom F h ts b fuel T' anchor (ip + 1)
      | some (p, cand, mlen) =>
        literalRunBytes F b p (p - anchor) anchor ++ copyBytes F mlen (p - cand) ++
          encodeFrom F h ts b fuel T' (p + mlen) (p + mlen)

/-- `Encode(F, b, HASH, TABLE_SIZE)` (R165). -/
def encodeBlock (F : FVT) (h : List Byte → Nat → Nat) (tsz : Nat → Nat) (b : List Byte) : List Byte :=
  (if F.hasHeader then shortestVarint b.length else []) ++
    encodeFrom F h (tsz b.length) b (b.length + 1) (List.replicate (tsz b.length) none) 0 0

end Sys2Proof.Machine
end

