-- ==== Sys2Proof/Safety.lean ====
section
/-! DEFINITION. What a run keeps: the invariant of the engine (R10 to R12, R15, R27 to R30, R58, R90) and what a safe run is. -/

namespace Sys2Proof.Machine

/-- The input view stands inside its buffer, the buffer's addresses exist, and the view is the one the argument registers name
(R11, R32, R44, R90). -/
structure State.InputOk (s : State) : Prop where
  ordered : s.wr.istart ≤ s.wr.iend
  inside : (s.wr.iend : Int) ≤ sext s.cr.inExtent
  mapped : s.phys .input s.wr.iend ≤ 2 ^ Config.paddrBits
  start : (s.wr.istart : Int) = sext s.cr.inOff
  limit : (s.wr.iend : Int) = if s.cr.cmd = 3 then sext s.cr.inExtent else sext s.cr.inOff + sext s.cr.inLen

/-- The output offsets from `ostart` to `lim` stand inside the output buffer and inside `[OUT_OFF, OUT_OFF + OUT_MAX)`, and their
addresses exist. -/
structure State.OutputOk (s : State) (lim : Nat) : Prop where
  ordered : s.wr.ostart ≤ lim
  inside : (lim : Int) ≤ sext s.cr.outExtent
  mapped : s.phys .output lim ≤ 2 ^ Config.paddrBits
  start : (s.wr.ostart : Int) = sext s.cr.outOff
  limit : (lim : Int) ≤ sext s.cr.outOff + sext s.cr.outMax

/-- No byte of the input view is a byte of the output offsets `[ostart, lim)`: the launch premise "views disjoint" (R56, U5). -/
def State.Apart (s : State) (lim : Nat) : Prop :=
  ∀ a b, s.wr.istart ≤ a → a < s.wr.iend → s.wr.ostart ≤ b → b < lim → s.phys .input a ≠ s.phys .output b

/-- The engine is about to read a header (R176, R179): GETULEN has an input view, DECOMPRESS two views. -/
structure State.ReadyForHeader (s : State) : Prop where
  table : s.cr.format.toNat < tables.length
  input : s.InputOk
  atStart : s.wr.ip = s.wr.istart
  command : s.cr.cmd = 3 ∨ (s.cr.cmd = 4 ∧ s.OutputOk s.wr.oend ∧ s.wr.op = s.wr.ostart ∧ s.Apart s.wr.oend)

/-- The invariants of R11 while DECOMPRESS runs past its header. -/
structure State.Decoding (s : State) : Prop where
  command : s.cr.cmd = 4
  table : s.cr.format.toNat < tables.length
  input : s.InputOk
  output : s.OutputOk s.wr.oend
  apart : s.Apart s.wr.oend
  ipLow : s.wr.istart ≤ s.wr.ip
  ipHigh : s.wr.ip ≤ s.wr.iend
  opLow : s.wr.ostart ≤ s.wr.op
  opHigh : s.wr.op ≤ s.wr.olimit
  declared : s.wr.olimit = s.wr.ostart + s.wr.ulen
  capacity : s.wr.olimit ≤ s.wr.oend

/-- An operation has been decoded and waits in an `EMIT_*` state (R11). -/
structure State.Decoded (s : State) : Prop where
  opcLow : s.wr.istart ≤ s.wr.opc
  opcHigh : s.wr.opc < s.wr.ip
  lenLow : 1 ≤ s.wr.len
  lenHigh : s.wr.len ≤ intMax
  offHigh : s.wr.off ≤ intMax

/-- The invariants of R12 while COMPRESS runs past `ARGCHECK`. -/
structure State.Compressing (s : State) : Prop where
  command : s.cr.cmd = 2
  table : s.cr.format.toNat < tables.length
  input : s.InputOk
  output : s.OutputOk s.wr.olimit
  apart : s.Apart s.wr.olimit
  bound : s.wr.olimit = s.wr.ostart + mcl (s.wr.iend - s.wr.istart)
  opLow : s.wr.ostart ≤ s.wr.op
  opHigh : s.wr.op ≤ s.wr.olimit

/-- The hash table has `ts = TABLE_SIZE(n)` entries (R34), and holds only positions of the input before `p` (R151). -/
structure State.TableBelow (s : State) (p : Nat) : Prop where
  size : s.table.length = s.wr.ts
  choice : s.wr.ts = tableSize (s.wr.iend - s.wr.istart)
  entries : ∀ q, some q ∈ s.table → s.wr.istart ≤ q ∧ q < p

/-- The scan's cursors (R12). -/
structure State.Scanning (s : State) : Prop where
  anchorLow : s.wr.istart ≤ s.wr.anchor
  anchorHigh : s.wr.anchor ≤ s.wr.ip
  ipHigh : s.wr.ip ≤ s.wr.iend
  table : s.TableBelow s.wr.ip

/-- A match that a visit of `C_SCAN` has accepted (R151 to R154, R165). -/
structure State.Matched (s : State) (F : FVT) : Prop where
  anchorLow : s.wr.istart ≤ s.wr.anchor
  anchorHigh : s.wr.anchor ≤ s.wr.ip
  candLow : s.wr.istart ≤ s.wr.cand
  candHigh : s.wr.cand < s.wr.ip
  near : s.wr.ip - s.wr.cand ≤ F.maxOffset
  lenLow : max F.minMatch Config.window ≤ s.wr.mlen
  lenHigh : s.wr.mlen ≤ F.maxLen .copy
  inside : s.wr.ip + s.wr.mlen ≤ s.wr.iend
  equal : ∀ i, i < s.wr.mlen → s.inByte (s.wr.cand + i) = s.inByte (s.wr.ip + i)
  table : s.TableBelow (s.wr.ip + s.wr.mlen)

/-- What holds of the working registers in each state of the engine. -/
def State.PhaseOk (s : State) : Prop :=
  match s.st with
  | .idle | .argcheck | .done | .fault => True
  | .readHeader => s.ReadyForHeader
  | .readTag => s.Decoding
  | .emitLiteral => s.Decoding ∧ s.Decoded
  | .emitCopy => s.Decoding ∧ s.Decoded
  | .cHeader => s.Compressing ∧ s.wr.op = s.wr.ostart
  | .cScan => s.Compressing ∧ s.Scanning
  | .cEmit => s.Compressing ∧ ∀ F, tables[s.cr.format.toNat]? = some F → s.Matched F
  | .cTail => s.Compressing ∧ s.Scanning

/-- What holds of the result and error registers (R27 to R30): `RESULT` is 0 but in `DONE` and never above `INT_MAX`; `ERR_KIND` is
nonzero exactly in `FAULT`; `ERR_REASON` and `ERR_OFFSET` are 0 elsewhere. -/
structure State.LatchOk (s : State) : Prop where
  result : s.st ≠ .done → s.cr.result = 0
  resultHigh : s.cr.result.toNat ≤ intMax
  kind : s.cr.errKind ≠ 0 ↔ s.st = .fault
  reason : s.st ≠ .fault → s.cr.errReason = 0 ∧ s.cr.errOffset = 0

/-- Every working register holds a value in `0 .. INT_MAX` (R10, R105). -/
structure Working.Bounded (w : Working) : Prop where
  istart : w.istart ≤ intMax
  iend : w.iend ≤ intMax
  ip : w.ip ≤ intMax
  ostart : w.ostart ≤ intMax
  oend : w.oend ≤ intMax
  olimit : w.olimit ≤ intMax
  op : w.op ≤ intMax
  ulen : w.ulen ≤ intMax
  opc : w.opc ≤ intMax
  cls : w.cls ≤ intMax
  len : w.len ≤ intMax
  off : w.off ≤ intMax
  anchor : w.anchor ≤ intMax
  cand : w.cand ≤ intMax
  mlen : w.mlen ≤ intMax
  ts : w.ts ≤ intMax

/-- The host's scheduled loads and stores name addresses that exist. -/
def Turn.inRange : Turn → Prop
  | .engine => True
  | .host (.storeByte a _) => a < 2 ^ Config.paddrBits
  | .host (.loadByte a) => a < 2 ^ Config.paddrBits
  | .host (.writeReg _ _) => True
  | .host (.readReg _) => True
  | .host .reset => True

/-- The invariant. -/
structure State.Inv (s : State) : Prop where
  memory : s.mem.wf
  stamps : ∀ r ∈ s.mem.discarded, r.stamp < s.draws
  reserved : s.cr.inCtl &&& ~~~3 = 0 ∧ s.cr.outCtl &&& ~~~3 = 0
  latch : s.LatchOk
  registers : s.wr.Bounded
  phase : s.PhaseOk
  turns : ∀ t ∈ s.turns, t.inRange

/-- `ARG.view(x, off, len)` succeeds (R172): the buffer is present, the range lies in it, and its addresses exist. -/
structure State.ViewOk (s : State) (x : Space) (off len : Int) : Prop where
  present : s.cr.valid x = true
  offLow : 0 ≤ off
  lenLow : 0 ≤ len
  inside : off + len ≤ s.cr.extent x
  mapped : (s.cr.base x : Int) + s.cr.extent x ≤ 2 ^ Config.paddrBits

/-- The bytes `[ioff, ioff + ilen)` of the input and `[ooff, ooff + olen)` of the output have no physical byte in common (R56). -/
def State.Disjoint (s : State) (ioff ilen ooff olen : Nat) : Prop :=
  ∀ a b, ioff ≤ a → a < ioff + ilen → ooff ≤ b → b < ooff + olen → s.phys .input a ≠ s.phys .output b

/-- The physical addresses the engine may write in a state (R58): `[ostart, olimit)` of the output while COMPRESS runs past
`ARGCHECK`, `[ostart, oend)` while DECOMPRESS does, none else. -/
def State.mayWrite (s : State) (a : Nat) : Prop :=
  match s.unspecifiedOnFault with
  | some (lo, hi) => s.phys .output lo ≤ a ∧ a < s.phys .output hi
  | none => False

/-- A run is safe when the model never stops in it with a fault. -/
def State.Safe (s : State) : Prop := ∀ n f, Host.Core.run Sys2Proof.core n s ≠ .fault f

end Sys2Proof.Machine
end

