-- ==== Sys2Proof/Certificates/Slice0/Obligations.lean ====
section
/-! DEFINITION. The statements for the provers. -/

section

open Sys2Proof Sys2Proof.Machine

/-! ### The encoding -/

/-- Words written out in the spec's examples decode to the operations the spec says they are (R112, R122 to R130, R114, R80). -/
def Obligations.ExampleWordsDecode : Prop :=
  decode fvt0 (.header [0x0B]) = .ok (.hdr 1 11) ∧
  decode fvt0 (.header [0xAC, 0x02]) = .ok (.hdr 2 300) ∧
  decode fvt0 (.header [0xFF, 0xFF, 0xFF, 0xFF, 0x08]) = .error .invalidLength ∧
  decode fvt0 (.operation [0x28]) = .ok (.litI 11) ∧
  decode fvt0 (.operation [0xF0, 0x3C]) = .ok (.litT1 61) ∧
  decode fvt0 (.operation [0xF4, 0x2B, 0x01]) = .ok (.litT2 300) ∧
  decode fvt0 (.operation [0xF8, 0xFF, 0xFF, 0x00]) = .ok (.litT3 65536) ∧
  decode fvt0 (.operation [0xFC, 0xFE, 0xFF, 0xFF, 0x7F]) = .ok (.litT4 2147483647) ∧
  decode fvt0 (.operation [0xFC, 0xFF, 0xFF, 0xFF, 0x7F]) = .error .lengthOverflow ∧
  decode fvt0 (.operation [0x19, 0x01]) = .ok (.copy1 10 1) ∧
  decode fvt0 (.operation [0x0E, 0x05, 0x00]) = .ok (.copy2 4 5) ∧
  decode fvt0 (.operation [0x0F, 0x05, 0x00, 0x00, 0x00]) = .ok (.copy4 4 5) ∧
  decode fvt1 (.operation [0x03, 0x09, 0x00, 0x00, 0x00, 0x01, 0x00]) = .ok (.copyX 10 1) ∧
  decode fvt1 (.operation [0x07]) = .ok (.reservedFvt1 0x07) ∧
  decode fvt0 (.command 1) = .ok .maxlen ∧
  decode fvt0 (.command 2) = .ok .compress ∧
  decode fvt0 (.command 3) = .ok .getulen ∧
  decode fvt0 (.command 4) = .ok .decompress ∧
  decode fvt0 (.command 0) = .error .badCommand

/-- Decode of encode is the instruction, for every well-formed instruction of a table, whatever bytes follow it (R79). -/
def Obligations.DecodeOfEncode : Prop :=
  ∀ F ∈ tables, ∀ i : Instr, i.wf = true → F.has i = true →
    decode F (encode i) = .ok i ∧
    (∀ head rest, encode i = .operation head → decode F (.operation (head ++ rest)) = .ok i) ∧
    (∀ head rest, encode i = .header head → decode F (.header (head ++ rest)) = .ok i)

/-- The other direction: what decodes is well-formed, belongs to the table, and its encoding is the bytes it was decoded from. -/
def Obligations.EncodeOfDecode : Prop :=
  ∀ F ∈ tables, ∀ i : Instr,
    (∀ bs, decode F (.operation bs) = .ok i →
      i.wf = true ∧ F.has i = true ∧ ∃ head, encode i = .operation head ∧ head <+: bs) ∧
    (∀ bs, decode F (.header bs) = .ok i → i.wf = true ∧ ∃ head, encode i = .header head ∧ head <+: bs) ∧
    (∀ w, decode F (.command w) = .ok i → encode i = .command w)

/-- R72: under FVT0 every tag has a class, by its bits 1:0 and, for a literal, by its bits 7:2; the table is well-formed (R77), so
no tag has two classes. -/
def Obligations.Fvt0Classes : Prop :=
  fvt0.WellFormed ∧ fvt0.maxLen .literal = intMax ∧
  (∀ len off, 4 ≤ len → len ≤ 64 → 1 ≤ off → off ≤ 65535 → ClassName.copy2.row.represents len off = true) ∧
  ∀ t : Byte,
    (bits t 1 0 = 0 → bits t 7 2 ≤ 59 → fvt0.classify t = some ClassName.litI.row) ∧
    (bits t 1 0 = 0 → bits t 7 2 = 60 → fvt0.classify t = some ClassName.litT1.row) ∧
    (bits t 1 0 = 0 → bits t 7 2 = 61 → fvt0.classify t = some ClassName.litT2.row) ∧
    (bits t 1 0 = 0 → bits t 7 2 = 62 → fvt0.classify t = some ClassName.litT3.row) ∧
    (bits t 1 0 = 0 → bits t 7 2 = 63 → fvt0.classify t = some ClassName.litT4.row) ∧
    (bits t 1 0 = 1 → fvt0.classify t = some ClassName.copy1.row) ∧
    (bits t 1 0 = 2 → fvt0.classify t = some ClassName.copy2.row) ∧
    (bits t 1 0 = 3 → fvt0.classify t = some ClassName.copy4.row) ∧
    (fvt0.classify t).isSome = true

/-- R76: FVT1 is FVT0 but for the tags with bits 1:0 = 11: `0x03` is `COPYX`, the other 63 are reserved; and it is well-formed. -/
def Obligations.Fvt1Classes : Prop :=
  fvt1.WellFormed ∧ fvt1.backwardExtend = true ∧
  fvt1.hasHeader = fvt0.hasHeader ∧ fvt1.minMatch = fvt0.minMatch ∧ fvt1.maxOffset = fvt0.maxOffset ∧
  ∀ t : Byte,
    (bits t 1 0 ≠ 3 → fvt1.classify t = fvt0.classify t) ∧
    (bits t 1 0 = 3 → t = 0x03 → fvt1.classify t = some ClassName.copyX.row) ∧
    (bits t 1 0 = 3 → t ≠ 0x03 → fvt1.classify t = none)

/-- The trailers of a field (R68, R69, R115 to R117): `n` bytes add their little-endian value; of an overflow and a missing byte
the one met first is reported. -/
def Obligations.TrailersAssemble : Prop :=
  ∀ (n acc : Nat) (bs : List Byte), acc ≤ intMax →
    (intMax < acc + le (bs.take n) → assemble 0 n acc bs = .error .lengthOverflow) ∧
    (acc + le (bs.take n) ≤ intMax → bs.length < n → assemble 0 n acc bs = .error .truncatedTrailer) ∧
    (acc + le (bs.take n) ≤ intMax → n ≤ bs.length → assemble 0 n acc bs = .ok (acc + le (bs.take n), bs.drop n))

/-- R63: when a varint is legal and its value (R62), when it is truncated, when it is invalid. -/
def Obligations.VarintLegality : Prop :=
  ∀ bs : List Byte,
    (∀ value size, readVarint bs = .ok (value, size) ↔
      1 ≤ size ∧ size ≤ 5 ∧ size ≤ bs.length ∧
      (∀ k (h : k < bs.length), k + 1 < size → bits bs[k] 7 7 = 1) ∧
      (∀ k (h : k < bs.length), k + 1 = size → bits bs[k] 7 7 = 0) ∧
      value = varintValue (bs.take size) ∧ value ≤ intMax) ∧
    (readVarint bs = .error .truncatedHeader ↔
      bs.length < 5 ∧ ∀ k (h : k < bs.length), bits bs[k] 7 7 = 1) ∧
    (readVarint bs = .error .invalidLength ↔
      5 ≤ bs.length ∧ (∀ k (h : k < bs.length), k < 4 → bits bs[k] 7 7 = 1) ∧
        ∀ h : 4 < bs.length, bits bs[4] 7 7 = 1 ∨ intMax < varintValue (bs.take 5))

/-- R64: the encoding of `n` reads back, has the stated length, and no varint of `n` is shorter. -/
def Obligations.ShortestVarint : Prop :=
  ∀ n, n ≤ intMax →
    (∀ rest, readVarint (shortestVarint n ++ rest) = .ok (n, (shortestVarint n).length)) ∧
    ((shortestVarint n).length =
      if n < 2 ^ 7 then 1 else if n < 2 ^ 14 then 2 else if n < 2 ^ 21 then 3 else if n < 2 ^ 28 then 4 else 5) ∧
    ∀ bs size, readVarint bs = .ok (n, size) → (shortestVarint n).length ≤ size

/-- R75, and the last sentence of R76: the class an encoder chooses. -/
def Obligations.ShortestClass : Prop :=
  (∀ F ∈ tables, ∀ L, 1 ≤ L → L ≤ intMax →
    F.choose .literal L 0 = some (
      if L ≤ 60 then ClassName.litI.row else if L ≤ 256 then ClassName.litT1.row
      else if L ≤ 65536 then ClassName.litT2.row else if L ≤ 16777216 then ClassName.litT3.row else ClassName.litT4.row)) ∧
  (∀ F ∈ tables, ∀ len off, 1 ≤ len →
    (4 ≤ len → len ≤ 11 → off ≤ 2047 → F.choose .copy len off = some ClassName.copy1.row) ∧
    (¬ (4 ≤ len ∧ len ≤ 11 ∧ off ≤ 2047) → len ≤ 64 → off ≤ 65535 → F.choose .copy len off = some ClassName.copy2.row)) ∧
  (∀ len off, 1 ≤ len → off ≤ intMax →
    (len ≤ 64 → 65535 < off → fvt0.choose .copy len off = some ClassName.copy4.row) ∧
    (64 < len → fvt0.choose .copy len off = none)) ∧
  (∀ len off, 64 < len → len ≤ intMax → off ≤ 65535 → fvt1.choose .copy len off = some ClassName.copyX.row)

/-! ### The validator and the views -/

/-- R101: when `VAL.check` answers `Ok`, and which reason it answers otherwise; `INT` operands. -/
def Obligations.ValidatorCheck : Prop :=
  ∀ o l e : Int, o ≤ intMax → l ≤ intMax → e ≤ intMax →
    (valCheck o l e = none ↔ 0 ≤ o ∧ 0 ≤ l ∧ o + l ≤ e) ∧
    (valCheck o l e = some .negativeValue ↔ o < 0 ∨ l < 0 ∨ e < 0) ∧
    (valCheck o l e = some .offsetOutOfRange ↔ 0 ≤ o ∧ 0 ≤ l ∧ 0 ≤ e ∧ e < o) ∧
    (valCheck o l e = some .lengthOutOfRange ↔ 0 ≤ o ∧ 0 ≤ l ∧ o ≤ e ∧ e < l) ∧
    (valCheck o l e = some .arithmeticOverflow ↔ 0 ≤ o ∧ 0 ≤ l ∧ o ≤ e ∧ l ≤ e ∧ intMax < o + l) ∧
    (valCheck o l e = some .rangeExceedsBuffer ↔ 0 ≤ o ∧ 0 ≤ l ∧ o ≤ e ∧ l ≤ e ∧ e < o + l ∧ o + l ≤ intMax)

/-- R92 and R93: a single byte is read or stored exactly at a legal offset, a read changes nothing, and a store changes that byte
only. -/
def Obligations.SingleByteAccess : Prop :=
  ∀ (s : State) (V : View) (a : Nat) (b : Byte), s.mem.wf → s.phys V.space V.limit ≤ 2 ^ Config.paddrBits →
    (a < V.start ∨ V.limit ≤ a →
      s.bvRead V a = .error (.fault (.viewFailure .offsetOutOfRange)) ∧
      s.bvWrite V a b = .error (.fault (.viewFailure .offsetOutOfRange))) ∧
    (V.start ≤ a → a < V.limit →
      s.bvRead V a = .ok (s.mem.read (s.phys V.space a)) ∧
      ∃ m, s.bvWrite V a b = .ok { s with mem := m } ∧ m.wf ∧ m.read (s.phys V.space a) = b ∧
        ∀ p, p ≠ s.phys V.space a → m.read p = s.mem.read p)

/-- R95: `BV.copyLiteral` moves the bytes of a range of one space to a range of another that shares no byte with it, changes no
other byte, and fails as `VAL.check` does, the source first. -/
def Obligations.CopyLiteral : Prop :=
  ∀ (s : State) (Vd Vs : View) (d a n : Nat), s.mem.wf →
    Vs.limit ≤ intMax → Vd.limit ≤ intMax →
    s.phys Vs.space Vs.limit ≤ 2 ^ Config.paddrBits → s.phys Vd.space Vd.limit ≤ 2 ^ Config.paddrBits →
    (∀ r, valCheck ((a : Int) - Vs.start) n ((Vs.limit : Int) - Vs.start) = some r →
      s.bvCopyLiteral Vd d Vs a n = .error (.fault (.viewFailure r))) ∧
    (∀ r, valCheck ((a : Int) - Vs.start) n ((Vs.limit : Int) - Vs.start) = none →
      valCheck ((d : Int) - Vd.start) n ((Vd.limit : Int) - Vd.start) = some r →
      s.bvCopyLiteral Vd d Vs a n = .error (.fault (.viewFailure r))) ∧
    (Vs.start ≤ a → a + n ≤ Vs.limit → Vd.start ≤ d → d + n ≤ Vd.limit →
      (∀ i j, i < n → j < n → s.phys Vs.space (a + i) ≠ s.phys Vd.space (d + j)) →
      ∃ m, s.bvCopyLiteral Vd d Vs a n = .ok { s with mem := m } ∧ m.wf ∧
        (∀ i, i < n → m.read (s.phys Vd.space (d + i)) = s.mem.read (s.phys Vs.space (a + i))) ∧
        ∀ p, (p < s.phys Vd.space d ∨ s.phys Vd.space (d + n) ≤ p) → m.read p = s.mem.read p)

/-- R96: `BV.copyForward` repeats the bytes from `s` on, changes no other byte, and fails as the rule says. -/
def Obligations.CopyForward : Prop :=
  ∀ (s : State) (V : View) (d a n : Nat), s.mem.wf → V.limit ≤ intMax → s.phys V.space V.limit ≤ 2 ^ Config.paddrBits →
    (a < V.start ∨ d ≤ a → s.bvCopyForward V d a n = .error (.fault (.viewFailure .offsetOutOfRange))) ∧
    (∀ r, V.start ≤ a → a < d → valCheck ((d : Int) - V.start) n ((V.limit : Int) - V.start) = some r →
      s.bvCopyForward V d a n = .error (.fault (.viewFailure r))) ∧
    (V.start ≤ a → a < d → d + n ≤ V.limit →
      ∃ m, s.bvCopyForward V d a n = .ok { s with mem := m } ∧ m.wf ∧
        (∀ i, i < n → m.read (s.phys V.space (d + i)) = s.mem.read (s.phys V.space (a + i % (d - a)))) ∧
        ∀ p, (p < s.phys V.space d ∨ s.phys V.space (d + n) ≤ p) → m.read p = s.mem.read p)

/-- Physical memory: a write gives the byte written and leaves every other byte alone; a discard leaves every byte outside its
range alone; both keep the canonical form (the stamp of a discard is a new draw). -/
def Obligations.MemoryLaws : Prop :=
  ∀ (m : Memory) (a p lo hi d : Nat) (b : Byte), m.wf →
    (m.write a b).wf ∧ (m.write a b).read a = b ∧ (p ≠ a → (m.write a b).read p = m.read p) ∧
    ((∀ r ∈ m.discarded, r.stamp ≠ d) → (m.discard lo hi d).wf) ∧
    (p < lo ∨ hi ≤ p → (m.discard lo hi d).read p = m.read p) ∧
    (lo ≤ p → p < hi → (m.discard lo hi d).read p = Config.freeByte d p)

/-! ### Control registers, status, errors, reset -/

/-- R16 and R21: the flags and the fields of `STATUS`. -/
def Obligations.StatusWord : Prop :=
  ∀ s : State,
    ((s.readReg .status).getLsbD 0 = true ↔ s.st ≠ .idle ∧ s.st ≠ .done ∧ s.st ≠ .fault) ∧
    ((s.readReg .status).getLsbD 1 = true ↔ s.st = .done) ∧
    ((s.readReg .status).getLsbD 2 = true ↔ s.st = .fault) ∧
    (s.readReg .status).getLsbD 3 = false ∧
    ((s.readReg .status).getLsbD 0 = false →
      (s.readReg .status).toNat / 16 = (if s.st = .idle then 0 else if s.st = .done then 14 else 15)) ∧
    ((s.readReg .status).getLsbD 0 = true →
      1 ≤ (s.readReg .status).toNat / 16 ∧ (s.readReg .status).toNat / 16 ≤ 9)

/-- R33: while `BUSY = 1` a write changes nothing, and a read gives `STATUS`, 0 for `RESULT` and the `ERR_*` registers, and the
stored value of a W register. The premise is the part of the invariant that holds the result registers. -/
def Obligations.BusyRegisters : Prop :=
  ∀ (s : State) (r : CReg) (v : Word), s.busy = true → s.LatchOk →
    s.writeReg r v = s ∧
    (s.readReg .status).getLsbD 0 = true ∧ 1 ≤ (s.readReg .status).toNat / 16 ∧ (s.readReg .status).toNat / 16 ≤ 9 ∧
    s.readReg .result = 0 ∧ s.readReg .errKind = 0 ∧ s.readReg .errReason = 0 ∧ s.readReg .errOffset = 0 ∧
    s.readReg .cmd = s.cr.cmd ∧ s.readReg .format = s.cr.format ∧
    s.readReg .inCtl = s.cr.inCtl ∧ s.readReg .inBaseLo = s.cr.inBaseLo ∧ s.readReg .inBaseHi = s.cr.inBaseHi ∧
    s.readReg .inExtent = s.cr.inExtent ∧ s.readReg .inOff = s.cr.inOff ∧ s.readReg .inLen = s.cr.inLen ∧
    s.readReg .outCtl = s.cr.outCtl ∧ s.readReg .outBaseLo = s.cr.outBaseLo ∧ s.readReg .outBaseHi = s.cr.outBaseHi ∧
    s.readReg .outExtent = s.cr.outExtent ∧ s.readReg .outOff = s.cr.outOff ∧ s.readReg .outMax = s.cr.outMax ∧
    s.readReg .arg = s.cr.arg ∧ s.readReg .ulen = s.cr.ulen

/-- R19 and R23: an accepted write to a register other than `CMD` stores the value, reserved bits read 0, an RO register keeps its
value, and nothing else changes. -/
def Obligations.AcceptedWrite : Prop :=
  ∀ (s : State) (r : CReg) (v : Word), s.busy = false → r ≠ .cmd →
    (s.writeReg r v).readReg r =
      (if r = .status ∨ r = .result ∨ r = .errKind ∨ r = .errReason ∨ r = .errOffset then s.readReg r
       else if r = .inCtl ∨ r = .outCtl then v &&& 3 else v) ∧
    (∀ q, q ≠ r → (s.writeReg r v).readReg q = s.readReg q) ∧
    { s.writeReg r v with cr := s.cr } = s

/-- R20: a write to `CMD` while `BUSY = 0` starts a command; any value is accepted, a command code runs its command, and a value
that is none faults `BadCommand` in `ARGCHECK`; while `BUSY = 1` the write is ignored. -/
def Obligations.CommandStart : Prop :=
  decodeCommand 1 = .ok .maxlen ∧ decodeCommand 2 = .ok .compress ∧ decodeCommand 3 = .ok .getulen ∧
  decodeCommand 4 = .ok .decompress ∧
  ∀ (s : State) (v : Word),
    (s.busy = true → s.writeReg .cmd v = s) ∧
    (s.busy = false →
      (s.writeReg .cmd v).st = .argcheck ∧ (s.writeReg .cmd v).readReg .cmd = v ∧
      (s.writeReg .cmd v).readReg .result = 0 ∧ (s.writeReg .cmd v).readReg .errKind = 0 ∧
      (s.writeReg .cmd v).readReg .errReason = 0 ∧ (s.writeReg .cmd v).readReg .errOffset = 0 ∧
      (∀ q, q ∉ [CReg.cmd, .status, .result, .errKind, .errReason, .errOffset] →
        (s.writeReg .cmd v).readReg q = s.readReg q) ∧
      (s.writeReg .cmd v).mem = s.mem ∧
      (∀ i, decodeCommand v = .ok i → engineStep (s.writeReg .cmd v) = exec i (s.writeReg .cmd v)) ∧
      (v ∉ [(1 : Word), 2, 3, 4] →
        engineStep (s.writeReg .cmd v) = .next ((s.writeReg .cmd v).takeError (.invalidArgument .badCommand))))

/-- R196: what taking an error changes, and all that it changes but the bytes of the output view, which R121 and R162 leave
unspecified. -/
def Obligations.RaiseChanges : Prop :=
  ∀ (s : State) (e : Error),
    (s.takeError e).st = .fault ∧
    (s.takeError e).readReg .errKind = BitVec.ofNat 32 e.kindCode ∧
    (s.takeError e).readReg .errReason = BitVec.ofNat 32 e.reasonCode ∧
    (s.takeError e).readReg .errOffset = BitVec.ofNat 32 e.offset ∧
    (s.takeError e).readReg .result = 0 ∧
    (∀ q, q ∉ [CReg.status, .result, .errKind, .errReason, .errOffset] → (s.takeError e).readReg q = s.readReg q) ∧
    (s.takeError e).wr = s.wr ∧ (s.takeError e).table = s.table ∧
    (∀ a, ¬ s.mayWrite a → (s.takeError e).mem.read a = s.mem.read a)

/-- R31: in `IDLE`, `DONE` and `FAULT` no turn but an accepted write to `CMD` and a reset changes `ST`, `RESULT` or an `ERR_*`
register; and a read of a register changes no register at all. -/
def Obligations.Latching : Prop :=
  (∀ (s t : State) (m : HostMove), s.busy = false → (∀ v, m ≠ .writeReg .cmd v) → m ≠ .reset → hostMove m s = .next t →
    t.st = s.st ∧ t.readReg .result = s.readReg .result ∧ t.readReg .errKind = s.readReg .errKind ∧
      t.readReg .errReason = s.readReg .errReason ∧ t.readReg .errOffset = s.readReg .errOffset) ∧
  (∀ s : State, s.busy = false → engineStep s = .next s) ∧
  (∀ (s : State) (r : CReg), ∃ t, hostMove (.readReg r) s = .next t ∧ t.readData = s.readReg r ∧
    t.st = s.st ∧ t.cr = s.cr ∧ t.wr = s.wr ∧ t.table = s.table ∧ t.mem = s.mem)

/-- R221: a reset goes to the state of reset at once, whatever runs (R220); every byte outside the output view of an abandoned
command keeps its value, and every byte does where no command runs (R222); each byte of the view of an abandoned command is
unspecified, a free value of the reset's draw (U2). Which bytes are the view, `[OUT_OFF, OUT_OFF + OUT_MAX)` from the registers and in
`ARGCHECK` before they have been checked, is the model's reading (DEDUCED, log 9). -/
def Obligations.ResetEvent : Prop :=
  ∀ s : State, ∃ t, hostMove .reset s = .next t ∧ t.st = .idle ∧ (∀ r, t.readReg r = 0) ∧
    (∀ a : Nat, ¬ (s.outputRange.1 ≤ a ∧ (a : Int) < s.outputRange.2) → t.mem.read a = s.mem.read a) ∧
    (s.busy = true → ∀ a : Nat, s.outputRange.1 ≤ a → (a : Int) < s.outputRange.2 → t.mem.read a = Config.freeByte s.draws a) ∧
    (s.busy = false → t.mem = s.mem)

/-- R37: the machine right after reset: `IDLE`, every control register reads 0, and a command issued before any set-up, other
than MAXLEN, faults `InvalidArgument` without touching memory. -/
def Obligations.ResetState : Prop :=
  State.reset.st = .idle ∧ (∀ r, State.reset.readReg r = 0) ∧
  ∀ v ∈ [(2 : Word), 3, 4], ∃ t, engineStep (State.reset.writeReg .cmd v) = .next t ∧
    t.st = .fault ∧ t.readReg .errKind = 2 ∧ t.readReg .errReason = 6 ∧ t.mem = State.reset.mem

/-- What the host's loads and stores do (the moves are log 8's). R57 and U6 let a model give the host no move that touches the views
while `BUSY = 1`; how this model reads them is its own (DEDUCED, log 11): a store in either view and a load in the output view are
refused by name, a load in the input view completes, and every load and store completes as soon as `BUSY = 0`. -/
def Obligations.HostMemoryMoves : Prop :=
  ∀ (s : State) (a : Nat) (b : Byte), s.mem.wf → a < 2 ^ Config.paddrBits →
    ((s.busy = false ∨ (inSpan a s.inputRange = false ∧ inSpan a s.outputRange = false)) →
      ∃ t, hostMove (.storeByte a b) s = .next t ∧ t = { s with mem := t.mem } ∧ t.mem.read a = b ∧
        ∀ p, p ≠ a → t.mem.read p = s.mem.read p) ∧
    ((s.busy = false ∨ inSpan a s.outputRange = false) →
      hostMove (.loadByte a) s = .next { s with readData := (s.mem.read a).setWidth 32 }) ∧
    (s.busy = true → inSpan a s.outputRange = true →
      hostMove (.loadByte a) s = .refused .hostTouchesView ∧ hostMove (.storeByte a b) s = .refused .hostTouchesView) ∧
    (s.busy = true → inSpan a s.inputRange = true → hostMove (.storeByte a b) s = .refused .hostTouchesView)

/-! ### The commands in `ARGCHECK` -/

/-- R172: `ARG.view`, each of its tests in order. -/
def Obligations.ArgumentView : Prop :=
  ∀ (s : State) (x : Space) (off len : Int), off ≤ intMax → len ≤ intMax →
    let ext := s.cr.extent x
    let fails (r : ArgumentReason) : Prop := argView s x off len = .error (.raised (.invalidArgument r) s)
    (s.cr.valid x = false → fails .absentBuffer) ∧
    (s.cr.valid x = true → (off < 0 ∨ len < 0 ∨ ext < 0) → fails (.val .negativeValue)) ∧
    (s.cr.valid x = true → 0 ≤ off → 0 ≤ len → 0 ≤ ext →
      (ext < off → fails (.val .offsetOutOfRange)) ∧
      (off ≤ ext → ext < len → fails (.val .lengthOutOfRange)) ∧
      (off ≤ ext → len ≤ ext → intMax < off + len → fails (.val .arithmeticOverflow)) ∧
      (off ≤ ext → len ≤ ext → off + len ≤ intMax → ext < off + len → fails (.val .rangeExceedsBuffer)) ∧
      (off + len ≤ ext → 2 ^ Config.paddrBits < (s.cr.base x : Int) + ext → fails (.val .arithmeticOverflow))) ∧
    (argView s x off len = .ok () ↔ s.ViewOk x off len)

/-- R173: `MAXLEN`. The next state is written out, so all that it does not name is unchanged. -/
def Obligations.MaxlenResult : Prop :=
  ∀ s : State,
    (0 ≤ sext s.cr.arg → sext s.cr.arg ≤ 1840700242 →
      exec .maxlen s = .next { s with st := .done, cr := { s.cr with
        result := BitVec.ofNat 32 (32 + (sext s.cr.arg).toNat + (sext s.cr.arg).toNat / 6) } } ∧
      32 + (sext s.cr.arg).toNat + (sext s.cr.arg).toNat / 6 ≤ intMax) ∧
    (sext s.cr.arg < 0 → exec .maxlen s = .next (s.takeError (.invalidArgument (.val .negativeValue)))) ∧
    (1840700242 < sext s.cr.arg → exec .maxlen s = .next (s.takeError (.invalidArgument (.val .arithmeticOverflow))))

/-- R141: the bound. -/
def Obligations.BoundFormula : Prop :=
  (∀ n, mcl n = 32 + n + n / 6) ∧ (∀ m n, m < n → mcl m < mcl n) ∧ (∀ n, mcl n ≤ intMax ↔ n ≤ maxBlock) ∧
  maxBlock = 1840700242 ∧ mcl maxBlock = 2147483647 ∧ mcl (maxBlock + 1) = 2147483648 ∧
  mcl 0 = 32 ∧ mcl 5 = 37 ∧ mcl 6 = 39 ∧ mcl 11 = 44 ∧ mcl 100 = 148 ∧ mcl 65536 = 76490

/-- `COMPRESS` completes its entry (R174): with a legal format, two legal and disjoint views and room for the bound, the working
registers of R174 are written, the engine goes to `C_HEADER`, and nothing else changes. -/
def Obligations.CompressEntry : Prop :=
  ∀ s : State, s.cr.format.toNat < 2 →
    s.ViewOk .input (sext s.cr.inOff) (sext s.cr.inLen) → s.ViewOk .output (sext s.cr.outOff) (sext s.cr.outMax) →
    sext s.cr.inLen ≤ 1840700242 → (mcl (sext s.cr.inLen).toNat : Int) ≤ sext s.cr.outMax →
    s.Disjoint (sext s.cr.inOff).toNat (sext s.cr.inLen).toNat (sext s.cr.outOff).toNat (sext s.cr.outMax).toNat →
    exec .compress s = .next { s with
      st := .cHeader
      wr := { s.wr with
        istart := (sext s.cr.inOff).toNat, iend := (sext s.cr.inOff).toNat + (sext s.cr.inLen).toNat
        ostart := (sext s.cr.outOff).toNat, op := (sext s.cr.outOff).toNat
        olimit := (sext s.cr.outOff).toNat + mcl (sext s.cr.inLen).toNat } }

/-- The faults of `COMPRESS` in `ARGCHECK`, in the order of R174, and the model's refusal of overlapping views (U5). -/
def Obligations.CompressEntryStops : Prop :=
  ∀ s : State,
    let inView := argView s .input (sext s.cr.inOff) (sext s.cr.inLen)
    let outView := argView s .output (sext s.cr.outOff) (sext s.cr.outMax)
    (2 ≤ s.cr.format.toNat → exec .compress s = .next (s.takeError (.invalidArgument .badFormat))) ∧
    (s.cr.format.toNat < 2 →
      (∀ r, inView = .error (.raised (.invalidArgument r) s) → exec .compress s = .next (s.takeError (.invalidArgument r))) ∧
      (∀ r, inView = .ok () → outView = .error (.raised (.invalidArgument r) s) →
        exec .compress s = .next (s.takeError (.invalidArgument r))) ∧
      (inView = .ok () → outView = .ok () →
        (1840700242 < sext s.cr.inLen → exec .compress s = .next (s.takeError (.invalidArgument (.val .arithmeticOverflow)))) ∧
        (sext s.cr.inLen ≤ 1840700242 → sext s.cr.outMax < mcl (sext s.cr.inLen).toNat →
          exec .compress s = .next (s.takeError (.capacity .outputTooSmall))) ∧
        (sext s.cr.inLen ≤ 1840700242 → (mcl (sext s.cr.inLen).toNat : Int) ≤ sext s.cr.outMax →
          ¬ s.Disjoint (sext s.cr.inOff).toNat (sext s.cr.inLen).toNat (sext s.cr.outOff).toNat (sext s.cr.outMax).toNat →
          exec .compress s = .refused .viewsOverlap)))

/-- R176: `GETULEN`, entry: with a legal format and a legal view the working registers are written, the engine goes to
`READ_HEADER`, and nothing else changes; else its faults, in order (`NoHeader` for a table without a header). -/
def Obligations.GetulenEntry : Prop :=
  ∀ s : State,
    (s.cr.format.toNat < 2 → s.ViewOk .input (sext s.cr.inOff) 0 →
      exec .getulen s = .next { s with
        st := .readHeader
        wr := { s.wr with
          istart := (sext s.cr.inOff).toNat, iend := (sext s.cr.inExtent).toNat, ip := (sext s.cr.inOff).toNat } }) ∧
    (2 ≤ s.cr.format.toNat → exec .getulen s = .next (s.takeError (.invalidArgument .badFormat))) ∧
    (∀ F : FVT, F.hasHeader = false → getulenEntry F s = .error (.raised (.invalidArgument .noHeader) s)) ∧
    (∀ r, s.cr.format.toNat < 2 → argView s .input (sext s.cr.inOff) 0 = .error (.raised (.invalidArgument r) s) →
      exec .getulen s = .next (s.takeError (.invalidArgument r)))

/-- `DECOMPRESS` completes its entry (R179): with a legal format and two legal and disjoint views the working registers are
written, the engine goes to `READ_HEADER`, and nothing else changes. -/
def Obligations.DecompressEntry : Prop :=
  ∀ s : State, s.cr.format.toNat < 2 →
    s.ViewOk .input (sext s.cr.inOff) (sext s.cr.inLen) → s.ViewOk .output (sext s.cr.outOff) (sext s.cr.outMax) →
    s.Disjoint (sext s.cr.inOff).toNat (sext s.cr.inLen).toNat (sext s.cr.outOff).toNat (sext s.cr.outMax).toNat →
    exec .decompress s = .next { s with
      st := .readHeader
      wr := { s.wr with
        istart := (sext s.cr.inOff).toNat, iend := (sext s.cr.inOff).toNat + (sext s.cr.inLen).toNat
        ip := (sext s.cr.inOff).toNat
        ostart := (sext s.cr.outOff).toNat, oend := (sext s.cr.outOff).toNat + (sext s.cr.outMax).toNat
        op := (sext s.cr.outOff).toNat } }

/-- The faults of `DECOMPRESS` in `ARGCHECK`, in the order of R179 (the last for a table without a header), and the model's
refusal of overlapping views (U5). -/
def Obligations.DecompressEntryStops : Prop :=
  ∀ s : State,
    let inView := argView s .input (sext s.cr.inOff) (sext s.cr.inLen)
    let outView := argView s .output (sext s.cr.outOff) (sext s.cr.outMax)
    (2 ≤ s.cr.format.toNat → exec .decompress s = .next (s.takeError (.invalidArgument .badFormat))) ∧
    (∀ r, s.cr.format.toNat < 2 → inView = .error (.raised (.invalidArgument r) s) →
      exec .decompress s = .next (s.takeError (.invalidArgument r))) ∧
    (∀ r, s.cr.format.toNat < 2 → inView = .ok () → outView = .error (.raised (.invalidArgument r) s) →
      exec .decompress s = .next (s.takeError (.invalidArgument r))) ∧
    (∀ F : FVT, F.hasHeader = false → inView = .ok () → outView = .ok () → sext s.cr.ulen < 0 →
      decompressEntry F s = .error (.raised (.invalidArgument (.val .negativeValue)) s)) ∧
    (s.cr.format.toNat < 2 → inView = .ok () → outView = .ok () →
      ¬ s.Disjoint (sext s.cr.inOff).toNat (sext s.cr.inLen).toNat (sext s.cr.outOff).toNat (sext s.cr.outMax).toNat →
      exec .decompress s = .refused .viewsOverlap)

/-! ### The header and the operations -/

/-- `HDR` (R112), the header decoded: `ulen` and `ip` are written; GETULEN ends with the length as its result; DECOMPRESS faults
when the length exceeds the capacity, else `olimit` is written and the engine goes to `READ_TAG`. Nothing else changes. -/
def Obligations.HeaderResult : Prop :=
  ∀ (s : State) (size value : Nat), (Instr.hdr size value).wf = true →
    (s.cr.cmd = 3 → exec (.hdr size value) s = .next { s with
      st := .done, wr := { s.wr with ulen := value, ip := s.wr.ip + size }
      cr := { s.cr with result := BitVec.ofNat 32 value } }) ∧
    (s.cr.cmd ≠ 3 → value ≤ s.wr.oend - s.wr.ostart → exec (.hdr size value) s = .next { s with
      st := .readTag
      wr := { s.wr with ulen := value, ip := s.wr.ip + size, olimit := s.wr.ostart + value } }) ∧
    (s.cr.cmd ≠ 3 → s.wr.oend - s.wr.ostart < value → exec (.hdr size value) s =
      .next ({ s with wr := { s.wr with ulen := value, ip := s.wr.ip + size } }.takeError
        (.capacity .declaredExceedsCapacity)))

/-- R112: `READ_HEADER` as a whole, on the bytes of the input view, for the tables of this hardware and, in the last clause, for a
table without a header, whose length is `CR.ULEN`. -/
def Obligations.ReadHeaderRule : Prop :=
  ∀ s : State, s.cr.format.toNat < 2 → s.wr.istart ≤ s.wr.ip → s.phys .input s.wr.iend ≤ 2 ^ Config.paddrBits →
    let accepted (t : State) (ulen : Nat) : Flow State :=
      if t.cr.cmd = 3 then .ok { t with st := .done, wr := { t.wr with ulen := ulen }
                                        cr := { t.cr with result := BitVec.ofNat 32 ulen } }
      else if ulen > t.wr.oend - t.wr.ostart then
        .error (.raised (.capacity .declaredExceedsCapacity) { t with wr := { t.wr with ulen := ulen } })
      else .ok { t with st := .readTag, wr := { t.wr with ulen := ulen, olimit := t.wr.ostart + ulen } }
    (readVarint (s.bytesFrom s.vin s.wr.ip) = .error .truncatedHeader →
      stepReadHeader s = .next (s.takeError (.malformed .truncatedHeader 0))) ∧
    (readVarint (s.bytesFrom s.vin s.wr.ip) = .error .invalidLength →
      stepReadHeader s = .next (s.takeError (.malformed .invalidLength 0))) ∧
    (∀ value size, readVarint (s.bytesFrom s.vin s.wr.ip) = .ok (value, size) →
      stepReadHeader s = finish (accepted { s with wr := { s.wr with ip := s.wr.ip + size } } value)) ∧
    (0 ≤ sext s.cr.ulen → readOutOfBand s = accepted s (sext s.cr.ulen).toNat)

/-- R113: the completion test of `READ_TAG`, before every tag fetch. -/
def Obligations.CompletionTest : Prop :=
  ∀ s : State,
    (s.wr.op = s.wr.olimit → s.wr.ip = s.wr.iend →
      stepReadTag s = .next { s with st := .done, cr := { s.cr with result := BitVec.ofNat 32 s.wr.ulen } }) ∧
    (s.wr.op = s.wr.olimit → s.wr.ip ≠ s.wr.iend →
      stepReadTag s = .next (s.takeError (.malformed .trailingInput (s.wr.ip - s.wr.istart)))) ∧
    (s.wr.op ≠ s.wr.olimit → s.wr.ip = s.wr.iend →
      stepReadTag s = .next (s.takeError (.malformed .truncatedTag (s.wr.ip - s.wr.istart))))

/-- R118 with R122 to R126: a literal operation. `cls`, `tag` and `head` are its class index, its tag byte and the bytes before its
data. Its two tests in order, each fault at the tag's offset; else `len` bytes of the input follow the bytes written so far, the
cursors advance, and nothing else changes.Where `FORMAT` selects no table that has the
operation, which no step runs, `cls` is the model's choice (DESIGN CHOICE, log 24). -/
def Obligations.LiteralOperations : Prop :=
  ∀ (i : Instr) (cls : Nat) (tag : Byte) (head len : Nat) (s : State),
    (i, cls, tag, head) ∈ [(Instr.litI len, 0, BitVec.ofNat 8 (4 * (len - 1)), 1), (.litT1 len, 1, 0xF0, 2),
      (.litT2 len, 2, 0xF4, 3), (.litT3 len, 3, 0xF8, 4), (.litT4 len, 4, 0xFC, 5)] →
    i.wf = true →
    let w : Working := { s.wr with opc := s.wr.ip, tag := tag, cls := cls, len := len, off := 0, ip := s.wr.ip + head }
    let u : State := { s with st := .emitLiteral, wr := w }
    (s.wr.iend - (s.wr.ip + head) < len →
      exec i s = .next (u.takeError (.malformed .literalExceedsInput (s.wr.ip - s.wr.istart)))) ∧
    (len ≤ s.wr.iend - (s.wr.ip + head) → s.wr.olimit - s.wr.op < len →
      exec i s = .next (u.takeError (.malformed .outputOverrun (s.wr.ip - s.wr.istart)))) ∧
    (len ≤ s.wr.iend - (s.wr.ip + head) → len ≤ s.wr.olimit - s.wr.op → s.mem.wf →
      s.wr.istart ≤ s.wr.ip → s.wr.iend ≤ intMax → s.wr.ostart ≤ s.wr.op → s.wr.olimit ≤ intMax →
      s.phys .input s.wr.iend ≤ 2 ^ Config.paddrBits → s.phys .output s.wr.olimit ≤ 2 ^ Config.paddrBits →
      s.Disjoint (s.wr.ip + head) len s.wr.op len →
      ∃ m, exec i s = .next { s with
          st := .readTag, mem := m, wr := { w with ip := s.wr.ip + head + len, op := s.wr.op + len } } ∧ m.wf ∧
        (∀ k, k < len → m.read (s.phys .output (s.wr.op + k)) = s.mem.read (s.phys .input (s.wr.ip + head + k))) ∧
        ∀ a, (a < s.phys .output s.wr.op ∨ s.phys .output (s.wr.op + len) ≤ a) → m.read a = s.mem.read a)

/-- R119 with R127 to R130: a copy operation. Its three tests in order, each fault at the tag's offset; else the `off` bytes before
the output cursor are repeated for `len` bytes, the cursors advance, and nothing else changes.Where `FORMAT` selects no table
that has the operation, which no step runs, `cls` is the model's choice (DESIGN CHOICE, log 24). -/
def Obligations.CopyOperations : Prop :=
  ∀ (i : Instr) (cls : Nat) (tag : Byte) (head len off : Nat) (s : State),
    (i, cls, tag, head) ∈ [(Instr.copy1 len off, 5, BitVec.ofNat 8 (1 + 4 * (len - 4) + 32 * (off / 256)), 2),
      (.copy2 len off, 6, BitVec.ofNat 8 (2 + 4 * (len - 1)), 3), (.copy4 len off, 7, BitVec.ofNat 8 (3 + 4 * (len - 1)), 5),
      (.copyX len off, 7, 0x03, 7)] →
    i.wf = true →
    let w : Working := { s.wr with opc := s.wr.ip, tag := tag, cls := cls, len := len, off := off, ip := s.wr.ip + head }
    let u : State := { s with st := .emitCopy, wr := w }
    (off = 0 → exec i s = .next (u.takeError (.malformed .offsetZero (s.wr.ip - s.wr.istart)))) ∧
    (off ≠ 0 → s.wr.op - s.wr.ostart < off →
      exec i s = .next (u.takeError (.malformed .offsetBeyondWritten (s.wr.ip - s.wr.istart)))) ∧
    (off ≠ 0 → off ≤ s.wr.op - s.wr.ostart → s.wr.olimit - s.wr.op < len →
      exec i s = .next (u.takeError (.malformed .outputOverrun (s.wr.ip - s.wr.istart)))) ∧
    (off ≠ 0 → off ≤ s.wr.op - s.wr.ostart → len ≤ s.wr.olimit - s.wr.op → s.mem.wf → s.wr.olimit ≤ intMax →
      s.phys .output s.wr.olimit ≤ 2 ^ Config.paddrBits →
      ∃ m, exec i s = .next { s with st := .readTag, mem := m, wr := { w with op := s.wr.op + len } } ∧ m.wf ∧
        (∀ k, k < len →
          m.read (s.phys .output (s.wr.op + k)) = s.mem.read (s.phys .output (s.wr.op - off + k % off))) ∧
        ∀ a, (a < s.phys .output s.wr.op ∨ s.phys .output (s.wr.op + len) ≤ a) → m.read a = s.mem.read a)

/-- A reserved tag (R114): the tag is fetched, and the operation faults `INVALID_TAG` at its offset. -/
def Obligations.ReservedTagFaults : Prop :=
  ∀ (t : Byte) (s : State), (Instr.reservedFvt1 t).wf = true →
    exec (.reservedFvt1 t) s = .next
      ({ s with wr := { s.wr with opc := s.wr.ip, tag := t, ip := s.wr.ip + 1 } }.takeError
        (.malformed .invalidTag (s.wr.ip - s.wr.istart)))

/-- An operation of the input view that does not decode faults at the offset of its tag: `TRUNCATED_TRAILER` where a trailer is
missing, `LENGTH_OVERFLOW` where a length or an offset passes `INT_MAX` (R115 to R117, R194). What the working registers hold in
`FAULT` is the model's choice (DESIGN CHOICE, log 18): `opc` and `tag` of the operation, `ip` past its tag, the others as before,
where the pseudocode of R115 to R117 passes the trailers it consumed and writes `cls` and `len`; no rule reads them then (R10). -/
def Obligations.UndecodableOperationFaults : Prop :=
  ∀ (s : State) (F : FVT), tables[s.cr.format.toNat]? = some F → s.wr.istart ≤ s.wr.ip → s.wr.ip < s.wr.iend →
    s.wr.op ≠ s.wr.olimit → s.phys .input s.wr.iend ≤ 2 ^ Config.paddrBits →
    let t : State := { s with wr := { s.wr with opc := s.wr.ip, tag := s.inByte s.wr.ip, ip := s.wr.ip + 1 } }
    (decodeOperation F (s.bytesFrom s.vin s.wr.ip) = .error .truncatedTrailer →
      stepReadTag s = .next (t.takeError (.malformed .truncatedTrailer (s.wr.ip - s.wr.istart)))) ∧
    (decodeOperation F (s.bytesFrom s.vin s.wr.ip) = .error .lengthOverflow →
      stepReadTag s = .next (t.takeError (.malformed .lengthOverflow (s.wr.ip - s.wr.istart)))) ∧
    (∀ e, decodeOperation F (s.bytesFrom s.vin s.wr.ip) = .error e → e = .truncatedTrailer ∨ e = .lengthOverflow)

/-! ### Steps -/

/-- A step of the engine runs the decoded instruction: the command whose code stands in `CMD`, the header at the start of the
input view, the operation at `ip` once the completion test has passed. The turn is taken off the schedule, and nothing else is
added. -/
def Obligations.StepRunsDecoded : Prop :=
  ∀ (s : State) (i : Instr), (s.turns = [] ∨ s.turns.head? = some .engine) →
    let s' : State := { s with turns := s.turns.tail }
    (s.st = .argcheck → decodeCommand s.cr.cmd = .ok i → step s = exec i s') ∧
    (∀ F, tables[s.cr.format.toNat]? = some F → s.wr.istart ≤ s.wr.ip → s.phys .input s.wr.iend ≤ 2 ^ Config.paddrBits →
      (s.st = .readHeader → F.hasHeader = true → decode F (.header (s.bytesFrom s.vin s.wr.ip)) = .ok i → step s = exec i s') ∧
      (s.st = .readTag → s.wr.op ≠ s.wr.olimit → s.wr.ip ≠ s.wr.iend →
        decode F (.operation (s.bytesFrom s.vin s.wr.ip)) = .ok i → step s = exec i s'))

/-- A step in which the host has the turn is its move. -/
def Obligations.StepRunsHostMove : Prop :=
  ∀ (s : State) (m : HostMove) (rest : List Turn), s.turns = .host m :: rest →
    step s = hostMove m { s with turns := rest }

/-- R111 and R18, over all states: which states of the engine a transition of the engine leads to. An operation runs from
`READ_TAG` through its `EMIT_*` state in one step (log 5), so `READ_TAG` leads back to itself. -/
def Obligations.Transitions : Prop :=
  ∀ s t : State, engineStep s = .next t →
    match s.st with
    | .idle => t = s
    | .done => t = s
    | .fault => t = s
    | .argcheck => t.st = .done ∨ t.st = .readHeader ∨ t.st = .cHeader ∨ t.st = .fault
    | .readHeader => t.st = .readTag ∨ t.st = .done ∨ t.st = .fault
    | .readTag => t.st = .readTag ∨ t.st = .done ∨ t.st = .fault
    | .emitLiteral => t.st = .readTag ∨ t.st = .fault
    | .emitCopy => t.st = .readTag ∨ t.st = .fault
    | .cHeader => t.st = .cScan ∨ t.st = .fault
    | .cScan => t.st = .cScan ∨ t.st = .cEmit ∨ t.st = .cTail
    | .cEmit => t.st = .cScan ∨ t.st = .fault
    | .cTail => t.st = .done ∨ t.st = .fault

/-- R170 and R32, over all states: no transition of the engine changes a W register, and none changes the host's schedule. -/
def Obligations.EngineKeepsArguments : Prop :=
  ∀ s t : State, engineStep s = .next t →
    (∀ r, r ∉ [CReg.status, .result, .errKind, .errReason, .errOffset] → t.readReg r = s.readReg r) ∧ t.turns = s.turns

/-! ### The compressor -/

/-- R143 and R144: `C_HEADER`, for any `TABLE_SIZE`: the shortest varint of the input's length is written, the table is cleared,
the cursors stand at the start, and nothing else changes. -/
def Obligations.CompressHeader : Prop :=
  ∀ (s : State) (tsz : Nat → Nat) (F : FVT), F.hasHeader = true → s.mem.wf → s.wr.ostart ≤ s.wr.op →
    s.wr.op + (shortestVarint (s.wr.iend - s.wr.istart)).length ≤ s.wr.olimit →
    s.phys .output s.wr.olimit ≤ 2 ^ Config.paddrBits →
    let hb := shortestVarint (s.wr.iend - s.wr.istart)
    ∃ m, cHeader F tsz s = .ok { s with
        st := .cScan, mem := m, table := List.replicate (tsz (s.wr.iend - s.wr.istart)) none
        wr := { s.wr with
          op := s.wr.op + hb.length, ts := tsz (s.wr.iend - s.wr.istart), ip := s.wr.istart, anchor := s.wr.istart } } ∧
      (∀ k (h : k < hb.length), m.read (s.phys .output (s.wr.op + k)) = hb[k]) ∧
      ∀ a, (a < s.phys .output s.wr.op ∨ s.phys .output (s.wr.op + hb.length) ≤ a) → m.read a = s.mem.read a

/-- R148 to R154: one visit of `C_SCAN`, for any `HASH`. With fewer than 4 bytes left the engine goes to `C_TAIL`. Else the entry
of the window's slot is read and replaced by `ip`; where no candidate qualifies `ip` moves on; where one does, an accepted match
is longest forward, and, where the table allows backward extension, longest backward. -/
def Obligations.CompressScan : Prop :=
  ∀ (s : State) (h : List Byte → Nat → Nat) (F : FVT), F ∈ tables →
    s.wr.istart ≤ s.wr.anchor → s.wr.anchor ≤ s.wr.ip → s.wr.ip ≤ s.wr.iend →
    s.phys .input s.wr.iend ≤ 2 ^ Config.paddrBits →
    (∀ q, some q ∈ s.table → s.wr.istart ≤ q ∧ q < s.wr.ip) →
    let slot := h (windowAt s.inByte s.wr.ip) s.wr.ts
    let table := s.table.set slot (some s.wr.ip)
    let qualifies (pos : Nat) : Prop := (s.table[slot]?).getD none = some pos ∧ s.wr.ip - pos ≤ F.maxOffset ∧
      windowAt s.inByte pos = windowAt s.inByte s.wr.ip
    (s.wr.iend - s.wr.ip < 4 → cScan F h s = .ok { s with st := .cTail }) ∧
    (4 ≤ s.wr.iend - s.wr.ip → (∀ pos, ¬ qualifies pos) →
      cScan F h s = .ok { s with table := table, wr := { s.wr with ip := s.wr.ip + 1 } }) ∧
    (4 ≤ s.wr.iend - s.wr.ip → ∀ pos, qualifies pos →
      ∃ p cand mlen, cScan F h s = .ok { s with
          st := .cEmit, table := table, wr := { s.wr with ip := p, cand := cand, mlen := mlen } } ∧
        s.wr.anchor ≤ p ∧ p ≤ s.wr.ip ∧ s.wr.istart ≤ cand ∧ cand < p ∧ p - cand = s.wr.ip - pos ∧
        4 ≤ mlen ∧ mlen ≤ F.maxLen .copy ∧ s.wr.ip + 4 ≤ p + mlen ∧ p + mlen ≤ s.wr.iend ∧
        (∀ k, k < mlen → s.inByte (cand + k) = s.inByte (p + k)) ∧
        (p + mlen = s.wr.iend ∨ mlen = F.maxLen .copy ∨ s.inByte (cand + mlen) ≠ s.inByte (p + mlen)) ∧
        (F.backwardExtend = false → p = s.wr.ip) ∧
        (F.backwardExtend = true →
          p = s.wr.anchor ∨ cand = s.wr.istart ∨ mlen = F.maxLen .copy ∨ s.inByte (p - 1) ≠ s.inByte (cand - 1)))

/-- R156, R158 and R160: `C_EMIT` writes the pending literal run and the copy, each in its shortest class, at the output cursor,
advances the cursors, and changes nothing else. -/
def Obligations.CompressEmit : Prop :=
  ∀ (s : State) (F : FVT), F ∈ tables → s.mem.wf → s.Compressing → s.Matched F →
    let bytes := literalRunBytes F (s.bytesFrom s.vin s.wr.istart) (s.wr.ip - s.wr.istart) (s.wr.ip - s.wr.anchor)
        (s.wr.anchor - s.wr.istart) ++ copyBytes F s.wr.mlen (s.wr.ip - s.wr.cand)
    (s.wr.op + bytes.length ≤ s.wr.olimit →
      ∃ m, cEmit F s = .ok { s with
          st := .cScan, mem := m
          wr := { s.wr with
            op := s.wr.op + bytes.length, ip := s.wr.ip + s.wr.mlen, anchor := s.wr.ip + s.wr.mlen } } ∧
        (∀ k (h : k < bytes.length), m.read (s.phys .output (s.wr.op + k)) = bytes[k]) ∧
        ∀ a, (a < s.phys .output s.wr.op ∨ s.phys .output (s.wr.op + bytes.length) ≤ a) → m.read a = s.mem.read a) ∧
    (s.wr.olimit < s.wr.op + bytes.length → ∃ t, cEmit F s = .error (.raised (.capacity .emissionOverrun) t))

/-- `C_TAIL` (R157) writes the last literal run and ends the command with the bytes written as its result. That the hash table keeps
its contents past the end is the model's choice (DESIGN CHOICE, log 18): R161 leaves it unspecified. -/
def Obligations.CompressTail : Prop :=
  ∀ (s : State) (F : FVT), F ∈ tables → s.mem.wf → s.Compressing → s.Scanning →
    let bytes := literalRunBytes F (s.bytesFrom s.vin s.wr.istart) (s.wr.iend - s.wr.istart) (s.wr.iend - s.wr.anchor)
        (s.wr.anchor - s.wr.istart)
    (s.wr.op + bytes.length ≤ s.wr.olimit →
      ∃ m, cTail F s = .ok { s with
          st := .done, mem := m, wr := { s.wr with op := s.wr.op + bytes.length }
          cr := { s.cr with result := BitVec.ofNat 32 (s.wr.op + bytes.length - s.wr.ostart) } } ∧
        (∀ k (h : k < bytes.length), m.read (s.phys .output (s.wr.op + k)) = bytes[k]) ∧
        ∀ a, (a < s.phys .output s.wr.op ∨ s.phys .output (s.wr.op + bytes.length) ≤ a) → m.read a = s.mem.read a) ∧
    (s.wr.olimit < s.wr.op + bytes.length → ∃ t, cTail F s = .error (.raised (.capacity .emissionOverrun) t))

/-- R147: the test of `CMP.reserve`, and that every emission makes it before any of its bytes is written. -/
def Obligations.EmissionOverrun : Prop :=
  ∀ (s : State) (F : FVT) (c : TagClass) (len off : Nat),
    (∀ k, s.wr.olimit - s.wr.op < k → reserve k s = .error (.raised (.capacity .emissionOverrun) s)) ∧
    (∀ k, k ≤ s.wr.olimit - s.wr.op → reserve k s = .ok ()) ∧
    (F.choose .copy len off = some c → s.wr.olimit - s.wr.op < c.size →
      copyEmission F len off s = .error (.raised (.capacity .emissionOverrun) s)) ∧
    (∀ a, F.choose .literal len 0 = some c → s.wr.olimit - s.wr.op < c.size + len →
      literalPiece F a len s = .error (.raised (.capacity .emissionOverrun) s)) ∧
    (F.hasHeader = true → s.wr.olimit - s.wr.op < (shortestVarint (s.wr.iend - s.wr.istart)).length →
      emitHeader F s = .error (.raised (.capacity .emissionOverrun) s))

/-- R145 and R146: the defaults of the OPEN parameters: the table size is the smallest power of two that is at least `n`, kept
between 256 and 16384, and a hash is an index of the table. -/
def Obligations.TableAndHash : Prop :=
  ∀ n : Nat, (∃ k, 8 ≤ k ∧ k ≤ 14 ∧ tableSize n = 2 ^ k) ∧ (n ≤ 16384 → n ≤ tableSize n) ∧
    (256 < tableSize n → tableSize n / 2 < n) ∧
    ∀ w : List Byte, hash w (tableSize n) < tableSize n

/-! ### Invariants and safety -/

/-- The invariant holds at reset. -/
def Obligations.InvariantAtReset : Prop := State.reset.Inv

/-- Every step keeps the invariant. -/
def Obligations.StepKeepsInvariant : Prop :=
  ∀ s t : State, s.Inv → step s = .next t → t.Inv

/-- In a state that meets the invariant the model's own faults never stop a step: "No caller in this spec ever receives it" (R92),
R99. -/
def Obligations.NoModelFault : Prop :=
  ∀ (s : State) (f : Fault), s.Inv → step s ≠ .fault f

/-- Confinement of writes (R58): a transition of the engine changes no byte outside the output view it may write, and no byte of
the input view. -/
def Obligations.WritesConfined : Prop :=
  ∀ (s t : State), s.Inv → engineStep s = .next t →
    (∀ a, ¬ s.mayWrite a → t.mem.read a = s.mem.read a) ∧
    (s.busy = true → s.st ≠ .argcheck → ∀ a, s.wr.istart ≤ a → a < s.wr.iend → t.inByte a = s.inByte a)

/-- A successful transition of DECOMPRESS writes no byte at or past `olimit` (R58, R120). -/
def Obligations.DecompressWritesBelowLimit : Prop :=
  ∀ (s t : State), s.Inv → s.st = .readTag → engineStep s = .next t → t.st ≠ .fault →
    ∀ a, ¬ (s.phys .output s.wr.op ≤ a ∧ a < s.phys .output s.wr.olimit) → t.mem.read a = s.mem.read a

/-- Confinement of reads (R58): two states that differ only in bytes outside the two views of the running command take the same
transition, to states whose memories agree wherever the two agreed before. -/
def Obligations.ReadsConfined : Prop :=
  ∀ (s : State) (m : Memory), s.Inv → m.wf →
    (s.busy = true → s.st ≠ .argcheck → ∀ a, s.wr.istart ≤ a → a < s.wr.iend →
      m.read (s.phys .input a) = s.mem.read (s.phys .input a)) →
    (∀ a, s.mayWrite a → m.read a = s.mem.read a) →
    (∀ t, engineStep s = .next t → ∃ m', engineStep { s with mem := m } = .next { t with mem := m' } ∧
      ∀ a, m.read a = s.mem.read a → m'.read a = t.mem.read a) ∧
    (∀ r, engineStep s = .refused r → engineStep { s with mem := m } = .refused r)

/-- R131: DECOMPRESS ends in `DONE` or `FAULT` after at most `min(iend - ip, olimit - op) + 1` operations. -/
def Obligations.DecompressTerminates : Prop :=
  ∀ s : State, s.Inv → s.st = .readTag → s.turns = [] →
    ∃ n t, n ≤ min (s.wr.iend - s.wr.ip) (s.wr.olimit - s.wr.op) + 1 ∧
      Host.Core.run Sys2Proof.core n s = .next t ∧ (t.st = .done ∨ t.st = .fault)

/-- R164: COMPRESS ends after at most one transition for each input byte and three more. -/
def Obligations.CompressTerminates : Prop :=
  ∀ s : State, s.Inv → s.st = .cHeader → s.turns = [] →
    ∃ n t, n ≤ s.wr.iend - s.wr.istart + 3 ∧
      Host.Core.run Sys2Proof.core n s = .next t ∧ (t.st = .done ∨ t.st = .fault)

/-! ### Whole commands -/

/-- R180 with R120 and R121: from `READ_HEADER` a DECOMPRESS is the function `Decode` (R135) of its input view's bytes. -/
def Obligations.DecompressIsDecode : Prop :=
  ∀ (s : State) (F : FVT), s.Inv → s.st = .readHeader → s.cr.cmd = 4 → s.turns = [] →
    tables[s.cr.format.toNat]? = some F →
    ∃ n t, Host.Core.run Sys2Proof.core n s = .next t ∧
      match decodeBlock F (s.bytesFrom s.vin s.wr.istart) (s.wr.oend - s.wr.ostart) (sext s.cr.ulen).toNat with
      | .ok out =>
        t.st = .done ∧ t.cr = { s.cr with result := BitVec.ofNat 32 out.length } ∧ t.wr.ip = s.wr.iend ∧
        (∀ k (h : k < out.length), t.mem.read (s.phys .output (s.wr.ostart + k)) = out[k]) ∧
        (∀ a, (a < s.phys .output s.wr.ostart ∨ s.phys .output (s.wr.ostart + out.length) ≤ a) →
          t.mem.read a = s.mem.read a)
      | .fault e =>
        t.st = .fault ∧ t.cr = (s.latchError e).cr ∧
        (∀ a, (a < s.phys .output s.wr.ostart ∨ s.phys .output s.wr.oend ≤ a) → t.mem.read a = s.mem.read a)

/-- R175 with R161: from `C_HEADER` a COMPRESS writes the block `Encode` (R165) gives for its input view's bytes, never overruns
its bound, and changes nothing else in memory. -/
def Obligations.CompressIsEncode : Prop :=
  ∀ (s : State) (F : FVT), s.Inv → s.st = .cHeader → s.turns = [] → tables[s.cr.format.toNat]? = some F →
    let block := encodeBlock F hash tableSize (s.bytesFrom s.vin s.wr.istart)
    ∃ n t, Host.Core.run Sys2Proof.core n s = .next t ∧
      t.st = .done ∧ t.cr = { s.cr with result := BitVec.ofNat 32 block.length } ∧
      0 < block.length ∧ block.length ≤ mcl (s.wr.iend - s.wr.istart) ∧
      (∀ k (h : k < block.length), t.mem.read (s.phys .output (s.wr.ostart + k)) = block[k]) ∧
      (∀ a, (a < s.phys .output s.wr.ostart ∨ s.phys .output (s.wr.ostart + block.length) ≤ a) →
        t.mem.read a = s.mem.read a)

/-- R142: the block is never longer than the bound, for every `HASH` and `TABLE_SIZE`. -/
def Obligations.EncodeWithinBound : Prop :=
  ∀ F ∈ tables, ∀ (h : List Byte → Nat → Nat) (tsz : Nat → Nat) (b : List Byte), b.length ≤ maxBlock →
    (encodeBlock F h tsz b).length ≤ mcl b.length

/-- R163: the block decodes to the input, for every `HASH` and `TABLE_SIZE`, whatever the capacity that holds the input; and its
header is the input's length (R185 b). -/
def Obligations.RoundTrip : Prop :=
  ∀ F ∈ tables, ∀ (h : List Byte → Nat → Nat) (tsz : Nat → Nat) (b : List Byte) (cap oob : Nat), b.length ≤ maxBlock →
    b.length ≤ cap → decodeBlock F (encodeBlock F h tsz b) cap oob = .ok b ∧
      ∃ size, readVarint (encodeBlock F h tsz b) = .ok (b.length, size)

end
end

