-- ==== Sys2Proof/Laws/State.lean ====
section
/-! SUPPORT. One lemma for each field and each named update of the state, so that no proof unfolds a record update. -/

namespace Sys2Proof.Machine

@[simp] theorem State.latchError_st (s : State) (e : Error) : (s.latchError e).st = .fault := rfl
@[simp] theorem State.latchError_cr (s : State) (e : Error) : (s.latchError e).cr = { s.cr with result := 0, errKind := BitVec.ofNat 32 e.kindCode, errReason := BitVec.ofNat 32 e.reasonCode, errOffset := BitVec.ofNat 32 e.offset } := rfl
@[simp] theorem State.latchError_wr (s : State) (e : Error) : (s.latchError e).wr = s.wr := rfl
@[simp] theorem State.latchError_table (s : State) (e : Error) : (s.latchError e).table = s.table := rfl
@[simp] theorem State.latchError_mem (s : State) (e : Error) : (s.latchError e).mem = s.mem := rfl
@[simp] theorem State.latchError_turns (s : State) (e : Error) : (s.latchError e).turns = s.turns := rfl
@[simp] theorem State.latchError_readData (s : State) (e : Error) : (s.latchError e).readData = s.readData := rfl
@[simp] theorem State.latchError_draws (s : State) (e : Error) : (s.latchError e).draws = s.draws := rfl

@[simp] theorem State.complete_st (s : State) (v : Nat) : (s.complete v).st = .done := rfl
@[simp] theorem State.complete_cr (s : State) (v : Nat) : (s.complete v).cr = { s.cr with result := BitVec.ofNat 32 v } := rfl
@[simp] theorem State.complete_wr (s : State) (v : Nat) : (s.complete v).wr = s.wr := rfl
@[simp] theorem State.complete_table (s : State) (v : Nat) : (s.complete v).table = s.table := rfl
@[simp] theorem State.complete_mem (s : State) (v : Nat) : (s.complete v).mem = s.mem := rfl
@[simp] theorem State.complete_turns (s : State) (v : Nat) : (s.complete v).turns = s.turns := rfl
@[simp] theorem State.complete_readData (s : State) (v : Nat) : (s.complete v).readData = s.readData := rfl
@[simp] theorem State.complete_draws (s : State) (v : Nat) : (s.complete v).draws = s.draws := rfl

@[simp] theorem State.start_st (s : State) (v : Word) : (s.start v).st = .argcheck := rfl
@[simp] theorem State.start_cr (s : State) (v : Word) : (s.start v).cr = { s.cr with cmd := v, result := 0, errKind := 0, errReason := 0, errOffset := 0 } := rfl
@[simp] theorem State.start_wr (s : State) (v : Word) : (s.start v).wr = Working.free s.draws := rfl
@[simp] theorem State.start_table (s : State) (v : Word) : (s.start v).table = Config.freeTable s.draws := rfl
@[simp] theorem State.start_mem (s : State) (v : Word) : (s.start v).mem = s.mem := rfl
@[simp] theorem State.start_turns (s : State) (v : Word) : (s.start v).turns = s.turns := rfl
@[simp] theorem State.start_readData (s : State) (v : Word) : (s.start v).readData = s.readData := rfl
@[simp] theorem State.start_draws (s : State) (v : Word) : (s.start v).draws = s.draws + 1 := rfl

@[simp] theorem State.discardOutput_st (s : State) (lo hi : Nat) : (s.discardOutput lo hi).st = s.st := rfl
@[simp] theorem State.discardOutput_cr (s : State) (lo hi : Nat) : (s.discardOutput lo hi).cr = s.cr := rfl
@[simp] theorem State.discardOutput_wr (s : State) (lo hi : Nat) : (s.discardOutput lo hi).wr = s.wr := rfl
@[simp] theorem State.discardOutput_table (s : State) (lo hi : Nat) : (s.discardOutput lo hi).table = s.table := rfl
@[simp] theorem State.discardOutput_mem (s : State) (lo hi : Nat) : (s.discardOutput lo hi).mem = s.mem.discard (s.phys .output lo) (s.phys .output hi) s.draws := rfl
@[simp] theorem State.discardOutput_turns (s : State) (lo hi : Nat) : (s.discardOutput lo hi).turns = s.turns := rfl
@[simp] theorem State.discardOutput_readData (s : State) (lo hi : Nat) : (s.discardOutput lo hi).readData = s.readData := rfl
@[simp] theorem State.discardOutput_draws (s : State) (lo hi : Nat) : (s.discardOutput lo hi).draws = s.draws + 1 := rfl

@[simp] theorem State.setByte_st (s : State) (x : Space) (a : Nat) (b : Byte) : (s.setByte x a b).st = s.st := rfl
@[simp] theorem State.setByte_cr (s : State) (x : Space) (a : Nat) (b : Byte) : (s.setByte x a b).cr = s.cr := rfl
@[simp] theorem State.setByte_wr (s : State) (x : Space) (a : Nat) (b : Byte) : (s.setByte x a b).wr = s.wr := rfl
@[simp] theorem State.setByte_table (s : State) (x : Space) (a : Nat) (b : Byte) : (s.setByte x a b).table = s.table := rfl
@[simp] theorem State.setByte_mem (s : State) (x : Space) (a : Nat) (b : Byte) : (s.setByte x a b).mem = s.mem.write (s.phys x a) b := rfl
@[simp] theorem State.setByte_turns (s : State) (x : Space) (a : Nat) (b : Byte) : (s.setByte x a b).turns = s.turns := rfl
@[simp] theorem State.setByte_readData (s : State) (x : Space) (a : Nat) (b : Byte) : (s.setByte x a b).readData = s.readData := rfl
@[simp] theorem State.setByte_draws (s : State) (x : Space) (a : Nat) (b : Byte) : (s.setByte x a b).draws = s.draws := rfl

@[simp] theorem State.fetchTag_st (s : State) (t : Byte) : (s.fetchTag t).st = s.st := rfl
@[simp] theorem State.fetchTag_cr (s : State) (t : Byte) : (s.fetchTag t).cr = s.cr := rfl
@[simp] theorem State.fetchTag_wr (s : State) (t : Byte) : (s.fetchTag t).wr = { s.wr with opc := s.wr.ip, tag := t, ip := s.wr.ip + 1 } := rfl
@[simp] theorem State.fetchTag_table (s : State) (t : Byte) : (s.fetchTag t).table = s.table := rfl
@[simp] theorem State.fetchTag_mem (s : State) (t : Byte) : (s.fetchTag t).mem = s.mem := rfl
@[simp] theorem State.fetchTag_turns (s : State) (t : Byte) : (s.fetchTag t).turns = s.turns := rfl
@[simp] theorem State.fetchTag_readData (s : State) (t : Byte) : (s.fetchTag t).readData = s.readData := rfl
@[simp] theorem State.fetchTag_draws (s : State) (t : Byte) : (s.fetchTag t).draws = s.draws := rfl

@[simp] theorem State.resetEvent_st (s : State) : (s.resetEvent).st = .idle := rfl
@[simp] theorem State.resetEvent_cr (s : State) : (s.resetEvent).cr = Control.reset := rfl
@[simp] theorem State.resetEvent_wr (s : State) : (s.resetEvent).wr = Working.reset := rfl
@[simp] theorem State.resetEvent_table (s : State) : (s.resetEvent).table = [] := rfl
@[simp] theorem State.resetEvent_mem (s : State) : (s.resetEvent).mem = s.memAfterReset := rfl
@[simp] theorem State.resetEvent_turns (s : State) : (s.resetEvent).turns = s.turns := rfl
@[simp] theorem State.resetEvent_readData (s : State) : (s.resetEvent).readData = s.readData := rfl
@[simp] theorem State.resetEvent_draws (s : State) : (s.resetEvent).draws = s.draws + 1 := rfl

/-! ### What takes part in an address does not change with the memory -/

@[simp] theorem State.phys_setByte (s : State) (y : Space) (c : Nat) (b : Byte) (x : Space) (a : Nat) :
    (s.setByte y c b).phys x a = s.phys x a := rfl

/-- An address moves with its offset. -/
theorem State.phys_add (s : State) (x : Space) (a n : Nat) : s.phys x (a + n) = s.phys x a + n := by
  simp only [State.phys]; omega

theorem State.phys_inj (s : State) (x : Space) {a b : Nat} : s.phys x a = s.phys x b ↔ a = b := by
  simp only [State.phys]; omega

theorem State.phys_lt (s : State) (x : Space) {a b : Nat} : s.phys x a < s.phys x b ↔ a < b := by
  simp only [State.phys]; omega

theorem State.phys_le (s : State) (x : Space) {a b : Nat} : s.phys x a ≤ s.phys x b ↔ a ≤ b := by
  simp only [State.phys]; omega

/-! ### Taking an error -/

@[simp] theorem State.takeError_st (s : State) (e : Error) : (s.takeError e).st = .fault := by
  simp only [State.takeError]; split <;> rfl

@[simp] theorem State.takeError_cr (s : State) (e : Error) : (s.takeError e).cr = (s.latchError e).cr := by
  simp only [State.takeError]; split <;> rfl

@[simp] theorem State.takeError_wr (s : State) (e : Error) : (s.takeError e).wr = s.wr := by
  simp only [State.takeError]; split <;> rfl

@[simp] theorem State.takeError_table (s : State) (e : Error) : (s.takeError e).table = s.table := by
  simp only [State.takeError]; split <;> rfl

@[simp] theorem State.takeError_turns (s : State) (e : Error) : (s.takeError e).turns = s.turns := by
  simp only [State.takeError]; split <;> rfl

@[simp] theorem State.takeError_readData (s : State) (e : Error) : (s.takeError e).readData = s.readData := by
  simp only [State.takeError]; split <;> rfl

/-! ### The ends of a flow -/

@[simp] theorem finish_ok (s : State) : finish (.ok s) = .next s := rfl

@[simp] theorem finish_raised (e : Error) (s : State) : finish (.error (.raised e s)) = .next (s.takeError e) := rfl

@[simp] theorem finish_raise (e : Error) (s : State) : finish (raise e s) = .next (s.takeError e) := rfl

@[simp] theorem finish_fault (f : Fault) : finish (.error (.fault f)) = .fault f := rfl

@[simp] theorem finish_refused (r : Refusal) : finish (.error (.refused r)) = .refused r := rfl

/-- A flow that answers a next state either ran to its end or raised an error, which has been taken. -/
theorem finish_eq_next {f : Flow State} {t : State} (h : finish f = .next t) :
    f = .ok t ∨ ∃ e s, f = .error (.raised e s) ∧ t = s.takeError e := by
  match f with
  | .ok s => simp only [finish_ok, Host.Outcome.next.injEq] at h; exact .inl (by rw [h])
  | .error (.raised e s) => simp only [finish_raised, Host.Outcome.next.injEq] at h; exact .inr ⟨e, s, rfl, h.symm⟩
  | .error (.fault _) => simp at h
  | .error (.refused _) => simp at h

/-- Two rules in sequence: the first has run to its end. -/
theorem Flow.bind_eq_ok {α β : Type} {x : Flow α} {g : α → Flow β} {b : β} (h : (x >>= g) = .ok b) :
    ∃ a, x = .ok a ∧ g a = .ok b := by
  match x with
  | .ok a => exact ⟨a, rfl, h⟩
  | .error _ => simp [bind, Except.bind] at h

/-- Two rules in sequence: one of them has stopped. -/
theorem Flow.bind_eq_error {α β : Type} {x : Flow α} {g : α → Flow β} {e : Stop} (h : (x >>= g) = .error e) :
    x = .error e ∨ ∃ a, x = .ok a ∧ g a = .error e := by
  match x with
  | .ok a => exact .inr ⟨a, rfl, h⟩
  | .error d => exact .inl (by simpa [bind, Except.bind] using h)

@[simp] theorem Flow.ok_bind {α β : Type} (a : α) (g : α → Flow β) : ((Except.ok a : Flow α) >>= g) = g a := rfl

@[simp] theorem Flow.pure_bind' {α β : Type} (a : α) (g : α → Flow β) : ((pure a : Flow α) >>= g) = g a := rfl

@[simp] theorem Flow.error_bind {α β : Type} (e : Stop) (g : α → Flow β) : ((Except.error e : Flow α) >>= g) = .error e := rfl

@[simp] theorem raise_bind {α β : Type} (e : Error) (s : State) (g : α → Flow β) :
    ((raise e s : Flow α) >>= g) = .error (.raised e s) := rfl

@[simp] theorem stopFault_bind {α β : Type} (f : Fault) (g : α → Flow β) :
    ((stopFault f : Flow α) >>= g) = .error (.fault f) := rfl

end Sys2Proof.Machine
end

