-- ==== Sys2Proof/Laws/Commands.lean ====
section
/-! SUPPORT. The argument checks and the `ARGCHECK` transitions of the four commands: for each, once, everything it can do. -/

namespace Sys2Proof.Machine

/-! ### Argument registers -/

theorem paddr_nat : (2 : Nat) ^ Config.paddrBits = 18446744073709551616 := by decide

theorem paddr_int : (2 : Int) ^ Config.paddrBits = 18446744073709551616 := by decide

theorem sext_le (w : Word) : sext w ≤ intMax := by
  have := BitVec.toInt_lt (x := w)
  simp only [sext, intMax]; omega

theorem base_lt (s : State) (x : Space) : s.cr.base x < 2 ^ 64 := by
  cases x <;> exact (_ : BitVec 64).isLt

/-- `VAL.check` answers `Ok` exactly for a range inside the extent (R101). -/
theorem valCheck_ok_iff {o l e : Int} (he : e ≤ intMax) : valCheck o l e = none ↔ 0 ≤ o ∧ 0 ≤ l ∧ o + l ≤ e := by
  simp only [valCheck]
  split_ifs <;> simp_all <;> omega

/-! ### ARG.view (R172) -/

/-- The extent of a descriptor is an `INT`. -/
theorem extent_le (s : State) (x : Space) : s.cr.extent x ≤ intMax := by
  cases x <;> exact sext_le _

/-- What the tests of `ARG.view` answer, in order. -/
theorem argView_eq (s : State) (x : Space) (off len : Int) : argView s x off len =
    if s.cr.valid x = false then .error (.raised (.invalidArgument .absentBuffer) s)
    else match valCheck off len (s.cr.extent x) with
      | some r => .error (.raised (.invalidArgument (.val r)) s)
      | none =>
        if (2 : Int) ^ Config.paddrBits < s.cr.base x + s.cr.extent x then
          .error (.raised (.invalidArgument (.val .arithmeticOverflow)) s)
        else .ok () := by
  have hb := base_lt s x
  simp only [argView]
  by_cases hv : s.cr.valid x = false
  · rw [if_pos hv, if_pos hv]; rfl
  · rw [if_neg hv, if_neg hv]
    match valCheck off len (s.cr.extent x) with
    | some r => rfl
    | none =>
      have h1 : ¬ s.cr.base x ≥ 2 ^ Config.paddrBits := by rw [paddr_nat]; omega
      by_cases h : (2 : Int) ^ Config.paddrBits < s.cr.base x + s.cr.extent x
      · simp only [Flow.ok_bind, h1, gt_iff_lt, h, or_true, if_true]; rfl
      · simp only [Flow.ok_bind, h1, gt_iff_lt, h, or_self, if_false]; rfl

/-- `ARG.view` succeeds exactly for a legal view. -/
theorem argView_ok_iff {s : State} {x : Space} {off len : Int} : argView s x off len = .ok () ↔ s.ViewOk x off len := by
  rw [argView_eq]
  constructor
  · intro h
    by_cases hv : s.cr.valid x = false
    · simp [hv] at h
    rw [if_neg hv] at h
    match hc : valCheck off len (s.cr.extent x) with
    | some r => simp [hc] at h
    | none =>
      simp only [hc] at h
      by_cases hm : (2 : Int) ^ Config.paddrBits < s.cr.base x + s.cr.extent x
      · simp [hm] at h
      obtain ⟨h1, h2, h3⟩ := (valCheck_ok_iff (extent_le s x)).1 hc
      exact ⟨by simpa using hv, h1, h2, h3, by omega⟩
  · rintro ⟨hv, h1, h2, h3, hm⟩
    rw [if_neg (by simp [hv]), (valCheck_ok_iff (extent_le s x)).2 ⟨h1, h2, h3⟩]
    simp only []
    rw [if_neg (by omega)]

/-- `ARG.view` fails only with an `InvalidArgument`, raised in the state it was called in. -/
theorem argView_error {s : State} {x : Space} {off len : Int} {e : Stop} (h : argView s x off len = .error e) :
    ∃ r, e = .raised (.invalidArgument r) s := by
  rw [argView_eq] at h
  by_cases hv : s.cr.valid x = false
  · rw [if_pos hv] at h; exact ⟨_, by simpa using h.symm⟩
  rw [if_neg hv] at h
  match hc : valCheck off len (s.cr.extent x) with
  | some r => simp only [hc] at h; exact ⟨_, by simpa using h.symm⟩
  | none =>
    simp only [hc] at h
    by_cases hm : (2 : Int) ^ Config.paddrBits < s.cr.base x + s.cr.extent x
    · rw [if_pos hm] at h; exact ⟨_, by simpa using h.symm⟩
    · simp [hm] at h

/-- A legal view in natural numbers: its range, its buffer and its addresses. -/
theorem State.ViewOk.nat {s : State} {x : Space} {off len : Int} (h : s.ViewOk x off len) :
    (off.toNat : Int) = off ∧ (len.toNat : Int) = len ∧ ((off.toNat + len.toNat : Nat) : Int) ≤ s.cr.extent x ∧
      ∀ a : Nat, (a : Int) ≤ s.cr.extent x → s.phys x a ≤ 2 ^ Config.paddrBits := by
  obtain ⟨-, h1, h2, h3, h4⟩ := h
  refine ⟨by omega, by omega, by omega, fun a ha => ?_⟩
  rw [paddr_int] at h4
  rw [paddr_nat]
  simp only [State.phys]
  omega

/-! ### The table and the premise of disjoint views -/

theorem selectTable_ok {s : State} (h : s.cr.format.toNat < 2) :
    ∃ F ∈ tables, selectTable s = .ok F ∧ tables[s.cr.format.toNat]? = some F := by
  have hl : s.cr.format.toNat < tables.length := h
  refine ⟨tables[s.cr.format.toNat], List.getElem_mem hl, ?_, List.getElem?_eq_getElem hl⟩
  simp only [selectTable, List.getElem?_eq_getElem hl]

theorem selectTable_bad {s : State} (h : 2 ≤ s.cr.format.toNat) :
    selectTable s = .error (.raised (.invalidArgument .badFormat) s) := by
  simp only [selectTable, List.getElem?_eq_none (show tables.length ≤ s.cr.format.toNat from h)]; rfl

/-- A running command has its table. -/
theorem currentTable_ok {s : State} {F : FVT} (h : tables[s.cr.format.toNat]? = some F) : currentTable s = .ok F := by
  simp only [currentTable, h]

theorem table_mem {s : State} {F : FVT} (h : tables[s.cr.format.toNat]? = some F) : F ∈ tables := List.mem_of_getElem? h

theorem table_some {s : State} (h : s.cr.format.toNat < tables.length) : ∃ F, tables[s.cr.format.toNat]? = some F :=
  ⟨_, List.getElem?_eq_getElem h⟩

/-- The model refuses exactly overlapping views. -/
theorem viewsDisjoint_ok {s : State} {a n b m : Nat} (h : s.Disjoint a n b m) : viewsDisjoint s a n b m = .ok () := by
  simp only [viewsDisjoint]
  rw [if_neg]
  rintro ⟨h1, h2, h3, h4⟩
  simp only [State.phys] at h3 h4
  by_cases hc : s.cr.base .input + a ≤ s.cr.base .output + b
  · refine h (s.cr.base .output + b - s.cr.base .input) b (by omega) (by omega) (by omega) (by omega) ?_
    simp only [State.phys]; omega
  · refine h a (s.cr.base .input + a - s.cr.base .output) (by omega) (by omega) (by omega) (by omega) ?_
    simp only [State.phys]; omega

theorem viewsDisjoint_refused {s : State} {a n b m : Nat} (h : ¬ s.Disjoint a n b m) :
    viewsDisjoint s a n b m = .error (.refused .viewsOverlap) := by
  simp only [viewsDisjoint]
  rw [if_pos]
  simp only [State.Disjoint, not_forall, not_not] at h
  obtain ⟨x, y, h1, h2, h3, h4, h5⟩ := h
  simp only [State.phys] at h5 ⊢
  omega

theorem viewsDisjoint_inv {s : State} {a n b m : Nat} (h : viewsDisjoint s a n b m = .ok ()) : s.Disjoint a n b m := by
  by_contra hc
  rw [viewsDisjoint_refused hc] at h
  simp at h

/-! ### What a command's entry can answer -/

/-- The next state of COMPRESS's entry. -/
abbrev State.compressEntered (s : State) : State :=
  { s with
    st := .cHeader
    wr := { s.wr with
      istart := (sext s.cr.inOff).toNat, iend := (sext s.cr.inOff).toNat + (sext s.cr.inLen).toNat
      ostart := (sext s.cr.outOff).toNat, op := (sext s.cr.outOff).toNat
      olimit := (sext s.cr.outOff).toNat + mcl (sext s.cr.inLen).toNat } }

/-- The next state of DECOMPRESS's entry. -/
abbrev State.decompressEntered (s : State) : State :=
  { s with
    st := .readHeader
    wr := { s.wr with
      istart := (sext s.cr.inOff).toNat, iend := (sext s.cr.inOff).toNat + (sext s.cr.inLen).toNat
      ip := (sext s.cr.inOff).toNat
      ostart := (sext s.cr.outOff).toNat, oend := (sext s.cr.outOff).toNat + (sext s.cr.outMax).toNat
      op := (sext s.cr.outOff).toNat } }

/-- The next state of GETULEN's entry. -/
abbrev State.getulenEntered (s : State) : State :=
  { s with
    st := .readHeader
    wr := { s.wr with
      istart := (sext s.cr.inOff).toNat, iend := (sext s.cr.inExtent).toNat, ip := (sext s.cr.inOff).toNat } }

/-- `COMPRESS`: what its entry can answer. -/
theorem argCompress_cases (s : State) :
    (argCompress s = .ok s.compressEntered ∧ s.cr.format.toNat < 2 ∧
      s.ViewOk .input (sext s.cr.inOff) (sext s.cr.inLen) ∧ s.ViewOk .output (sext s.cr.outOff) (sext s.cr.outMax) ∧
      sext s.cr.inLen ≤ 1840700242 ∧ (mcl (sext s.cr.inLen).toNat : Int) ≤ sext s.cr.outMax ∧
      s.Disjoint (sext s.cr.inOff).toNat (sext s.cr.inLen).toNat (sext s.cr.outOff).toNat (sext s.cr.outMax).toNat) ∨
    (∃ e, argCompress s = .error (.raised e s)) ∨ argCompress s = .error (.refused .viewsOverlap) := by
  simp only [argCompress]
  by_cases hf : s.cr.format.toNat < 2
  · obtain ⟨F, -, hF, -⟩ := selectTable_ok hf
    rw [hF, Flow.ok_bind]
    match hi : argView s .input (sext s.cr.inOff) (sext s.cr.inLen) with
    | .error e => obtain ⟨r, rfl⟩ := argView_error hi; exact .inr (.inl ⟨_, rfl⟩)
    | .ok () =>
      rw [Flow.ok_bind]
      match ho : argView s .output (sext s.cr.outOff) (sext s.cr.outMax) with
      | .error e => obtain ⟨r, rfl⟩ := argView_error ho; exact .inr (.inl ⟨_, rfl⟩)
      | .ok () =>
        rw [Flow.ok_bind]
        have vi := argView_ok_iff.1 hi
        have vo := argView_ok_iff.1 ho
        have n1 := vi.nat
        have n2 := vo.nat
        by_cases h1 : (sext s.cr.inLen).toNat > maxBlock
        · rw [if_pos h1]; exact .inr (.inl ⟨_, rfl⟩)
        · rw [if_neg h1]
          by_cases h2 : (sext s.cr.outMax).toNat < mcl (sext s.cr.inLen).toNat
          · rw [if_pos h2]; exact .inr (.inl ⟨_, rfl⟩)
          · rw [if_neg h2]
            simp only [maxBlock] at h1
            by_cases hd : s.Disjoint (sext s.cr.inOff).toNat (sext s.cr.inLen).toNat (sext s.cr.outOff).toNat
              (sext s.cr.outMax).toNat
            · rw [viewsDisjoint_ok hd]
              exact .inl ⟨rfl, hf, vi, vo, by omega, by omega, hd⟩
            · rw [viewsDisjoint_refused hd]; exact .inr (.inr rfl)
  · rw [selectTable_bad (by omega)]; exact .inr (.inl ⟨_, rfl⟩)

/-- `DECOMPRESS`: what its entry can answer. -/
theorem argDecompress_cases (s : State) :
    (argDecompress s = .ok s.decompressEntered ∧ s.cr.format.toNat < 2 ∧
      s.ViewOk .input (sext s.cr.inOff) (sext s.cr.inLen) ∧ s.ViewOk .output (sext s.cr.outOff) (sext s.cr.outMax) ∧
      s.Disjoint (sext s.cr.inOff).toNat (sext s.cr.inLen).toNat (sext s.cr.outOff).toNat (sext s.cr.outMax).toNat) ∨
    (∃ e, argDecompress s = .error (.raised e s)) ∨ argDecompress s = .error (.refused .viewsOverlap) := by
  simp only [argDecompress]
  by_cases hf : s.cr.format.toNat < 2
  · obtain ⟨F, -, hF, -⟩ := selectTable_ok hf
    rw [hF, Flow.ok_bind]
    simp only [decompressEntry]
    match hi : argView s .input (sext s.cr.inOff) (sext s.cr.inLen) with
    | .error e => obtain ⟨r, rfl⟩ := argView_error hi; exact .inr (.inl ⟨_, rfl⟩)
    | .ok () =>
      rw [Flow.ok_bind]
      match ho : argView s .output (sext s.cr.outOff) (sext s.cr.outMax) with
      | .error e => obtain ⟨r, rfl⟩ := argView_error ho; exact .inr (.inl ⟨_, rfl⟩)
      | .ok () =>
        rw [Flow.ok_bind]
        by_cases h1 : F.hasHeader = false ∧ sext s.cr.ulen < 0
        · rw [if_pos h1]; exact .inr (.inl ⟨_, rfl⟩)
        · rw [if_neg h1]
          by_cases hd : s.Disjoint (sext s.cr.inOff).toNat (sext s.cr.inLen).toNat (sext s.cr.outOff).toNat
            (sext s.cr.outMax).toNat
          · rw [viewsDisjoint_ok hd]
            exact .inl ⟨rfl, hf, argView_ok_iff.1 hi, argView_ok_iff.1 ho, hd⟩
          · rw [viewsDisjoint_refused hd]; exact .inr (.inr rfl)
  · rw [selectTable_bad (by omega)]; exact .inr (.inl ⟨_, rfl⟩)

/-- `GETULEN`: what its entry can answer. -/
theorem argGetulen_cases (s : State) :
    (argGetulen s = .ok s.getulenEntered ∧ s.cr.format.toNat < 2 ∧ s.ViewOk .input (sext s.cr.inOff) 0) ∨
    ∃ e, argGetulen s = .error (.raised e s) := by
  simp only [argGetulen]
  by_cases hf : s.cr.format.toNat < 2
  · obtain ⟨F, -, hF, -⟩ := selectTable_ok hf
    rw [hF, Flow.ok_bind]
    simp only [getulenEntry]
    by_cases h1 : F.hasHeader = false
    · rw [if_pos h1]; exact .inr ⟨_, rfl⟩
    · rw [if_neg h1]
      match hi : argView s .input (sext s.cr.inOff) 0 with
      | .error e => obtain ⟨r, rfl⟩ := argView_error hi; exact .inr ⟨_, rfl⟩
      | .ok () => exact .inl ⟨rfl, hf, argView_ok_iff.1 hi⟩
  · rw [selectTable_bad (by omega)]; exact .inr ⟨_, rfl⟩

/-- `MAXLEN`: what it can answer. -/
theorem argMaxlen_cases (s : State) :
    (argMaxlen s = .ok (s.complete (mcl (sext s.cr.arg).toNat)) ∧ 0 ≤ sext s.cr.arg ∧ sext s.cr.arg ≤ 1840700242) ∨
    ∃ e, argMaxlen s = .error (.raised e s) := by
  simp only [argMaxlen]
  by_cases h1 : sext s.cr.arg < 0
  · rw [if_pos h1]; exact .inr ⟨_, rfl⟩
  · rw [if_neg h1]
    by_cases h2 : sext s.cr.arg > (maxBlock : Int)
    · rw [if_pos h2]; exact .inr ⟨_, rfl⟩
    · rw [if_neg h2]
      simp only [maxBlock] at h2
      exact .inl ⟨rfl, by omega, by omega⟩

/-- The bound of a legal length is an `INT` (R141). -/
theorem mcl_le {n : Nat} : mcl n ≤ intMax ↔ n ≤ maxBlock := by
  simp only [mcl, intMax, maxBlock]; omega

end Sys2Proof.Machine
end

