-- ==== Sys2Proof/Laws/Decode.lean ====
section
/-! SUPPORT. The encoding: little-endian values, the trailers, the classes of the two tables, the varint. -/

namespace Sys2Proof

/-! ### Little-endian values -/

@[simp] theorem leBytes_length (n v : Nat) : (leBytes n v).length = n := by
  induction n generalizing v with
  | zero => rfl
  | succ n ih => simp [leBytes, ih]

theorem le_leBytes (n v : Nat) : le (leBytes n v) = v % 256 ^ n := by
  induction n generalizing v with
  | zero => simp [leBytes, le, Nat.mod_one]
  | succ n ih =>
    simp only [leBytes, le, ih, BitVec.toNat_ofNat]
    rw [show (2 : Nat) ^ 8 = 256 from rfl, Nat.pow_succ, Nat.mul_comm (256 ^ n) 256, Nat.mod_mul]

theorem le_leBytes_of_lt {n v : Nat} (h : v < 256 ^ n) : le (leBytes n v) = v := by
  rw [le_leBytes, Nat.mod_eq_of_lt h]

theorem le_append (xs ys : List Byte) : le (xs ++ ys) = le xs + 256 ^ xs.length * le ys := by
  induction xs with
  | nil => simp [le]
  | cons x xs ih => simp only [List.cons_append, le, ih, List.length_cons, Nat.pow_succ]; ring

theorem le_lt (bs : List Byte) : le bs < 256 ^ bs.length := by
  induction bs with
  | nil => simp [le]
  | cons b bs ih =>
    have := b.isLt
    simp only [le, List.length_cons, Nat.pow_succ]
    omega

/-- A little-endian value has one list of bytes of each length. -/
theorem leBytes_le (bs : List Byte) : leBytes bs.length (le bs) = bs := by
  induction bs with
  | nil => rfl
  | cons b bs ih =>
    have hb := b.isLt
    simp only [List.length_cons, leBytes, le]
    congr 1
    · apply BitVec.eq_of_toNat_eq
      simp only [BitVec.toNat_ofNat]; omega
    · rw [show (b.toNat + 256 * le bs) / 256 = le bs by omega, ih]

/-! ### Trailers -/

/-- What the trailers of a field can do (R115 to R117), from any weight. -/
theorem assemble_eq (n : Nat) (k acc : Nat) (bs : List Byte) (hacc : acc ≤ intMax) :
    assemble k n acc bs =
      if intMax < acc + 256 ^ k * le (bs.take n) then .error .lengthOverflow
      else if bs.length < n then .error .truncatedTrailer
      else .ok (acc + 256 ^ k * le (bs.take n), bs.drop n) := by
  induction n generalizing k acc bs with
  | zero =>
    simp only [assemble, List.take_zero, le, Nat.mul_zero, Nat.add_zero, Nat.not_lt_zero, if_false, List.drop_zero]
    rw [if_neg (by omega)]
  | succ n ih =>
    cases bs with
    | nil =>
      simp only [assemble, List.take_nil, le, Nat.mul_zero, Nat.add_zero, List.length_nil]
      rw [if_neg (by omega), if_pos (by omega)]
    | cons b bs =>
      simp only [assemble, List.take_succ_cons, le, List.length_cons, List.drop_succ_cons]
      have hsum : acc + 256 ^ k * (b.toNat + 256 * le (bs.take n)) =
          acc + b.toNat * 256 ^ k + 256 ^ (k + 1) * le (bs.take n) := by rw [Nat.pow_succ]; ring
      rw [hsum]
      by_cases h : acc + b.toNat * 256 ^ k > intMax
      · rw [if_pos (by omega)]; simp only [valAccum]; rw [if_pos h]
      · simp only [valAccum]
        rw [if_neg h]
        simp only []
        rw [ih _ _ _ (by omega)]
        simp only [Nat.add_lt_add_iff_right]

/-- Trailers that are all there and do not overflow. -/
theorem assemble_ok {n acc : Nat} {bs : List Byte} (h : acc + le (bs.take n) ≤ intMax) (hn : n ≤ bs.length) :
    assemble 0 n acc bs = .ok (acc + le (bs.take n), bs.drop n) := by
  rw [assemble_eq n 0 acc bs (by omega), Nat.pow_zero, Nat.one_mul, if_neg (by omega), if_neg (by omega)]

/-- What trailers that assemble say. -/
theorem assemble_inv {n acc v : Nat} {bs rest : List Byte} (hacc : acc ≤ intMax) (h : assemble 0 n acc bs = .ok (v, rest)) :
    n ≤ bs.length ∧ v = acc + le (bs.take n) ∧ v ≤ intMax ∧ rest = bs.drop n := by
  rw [assemble_eq n 0 acc bs hacc, Nat.pow_zero, Nat.one_mul] at h
  split_ifs at h with h1 h2
  simp only [Except.ok.injEq, Prod.mk.injEq] at h
  exact ⟨by omega, h.1.symm, by omega, h.2.symm⟩

/-- Trailers that do not assemble are an overflow or a missing byte. -/
theorem assemble_error {n acc : Nat} {bs : List Byte} {e : DecodeError} (hacc : acc ≤ intMax)
    (h : assemble 0 n acc bs = .error e) : e = .lengthOverflow ∨ e = .truncatedTrailer := by
  rw [assemble_eq n 0 acc bs hacc] at h
  split_ifs at h <;> simp only [Except.error.injEq] at h
  · exact .inl h.symm
  · exact .inr h.symm

/-- Bytes past the trailers do not matter. -/
theorem assemble_take {n m acc : Nat} {bs : List Byte} (hacc : acc ≤ intMax) (h : n ≤ m) :
    assemble 0 n acc (bs.take m) = (assemble 0 n acc bs).map fun r => (r.1, r.2.take (m - n)) := by
  rw [assemble_eq n 0 acc _ hacc, assemble_eq n 0 acc _ hacc, List.take_take, Nat.min_eq_left h, List.length_take]
  by_cases h1 : intMax < acc + 256 ^ 0 * le (bs.take n)
  · rw [if_pos h1, if_pos h1]; rfl
  · rw [if_neg h1, if_neg h1]
    by_cases h2 : bs.length < n
    · rw [if_pos (by omega), if_pos h2]; rfl
    · rw [if_neg (by omega), if_neg h2]
      simp only [Except.map, List.drop_take]

/-! ### The classes -/

/-- A class of a table of this hardware is a row of R71 or R76. -/
theorem mem_classes {F : FVT} (hF : F ∈ tables) {c : TagClass} (hc : c ∈ F.classes) : ∃ n : ClassName, c = n.row := by
  simp only [tables, List.mem_cons, List.not_mem_nil, or_false] at hF
  rcases hF with rfl | rfl <;> simp only [fvt0, fvt1, List.mem_cons, List.not_mem_nil, or_false] at hc <;>
    rcases hc with rfl | rfl | rfl | rfl | rfl | rfl | rfl | rfl <;> exact ⟨_, rfl⟩

theorem classify_mem {F : FVT} {t : Byte} {c : TagClass} (h : F.classify t = some c) : c ∈ F.classes ∧ c.takes t = true :=
  ⟨List.mem_of_find?_eq_some h, List.find?_some (p := fun d : TagClass => d.takes t) h⟩

theorem classify_row {F : FVT} (hF : F ∈ tables) {t : Byte} {c : TagClass} (h : F.classify t = some c) :
    ∃ n : ClassName, c = n.row :=
  mem_classes hF (classify_mem h).1

@[simp] theorem row_name (n : ClassName) : n.row.name = .row n := by cases n <;> rfl

@[simp] theorem row_instr (n : ClassName) (len off : Nat) : n.row.instr len off = .ok (n.toInstr len off) := by
  simp only [TagClass.instr, row_name]

/-- The trailers of every class are at most eight bytes. -/
theorem row_trailers (n : ClassName) : n.row.nL + n.row.nO ≤ 8 := by cases n <;> decide

/-- The length before any trailer is small. -/
theorem row_length (n : ClassName) (t : Byte) :
    1 ≤ n.row.lenBias + inlineField t n.row.lenInline ∧ n.row.lenBias + inlineField t n.row.lenInline ≤ intMax := by
  have hb := t.isLt
  cases n <;> simp [ClassName.row, literalTrailerClass, inlineField, bits, intMax]
  all_goals omega

/-- The offset before any trailer is small. -/
theorem row_offset (n : ClassName) (t : Byte) : inlineField t n.row.offInline * 2 ^ n.row.offShift ≤ intMax := by
  have hb := t.isLt
  cases n <;> simp [ClassName.row, literalTrailerClass, inlineField, bits, intMax]
  all_goals omega

/-! ### The operations -/

@[simp] theorem decodeOperation_nil (F : FVT) : decodeOperation F [] = .error .truncatedTag := rfl

/-- The decoder of operations, one tag and its trailers (R114 to R117). -/
theorem decodeOperation_cons (F : FVT) (t : Byte) (bs : List Byte) : decodeOperation F (t :: bs) =
    match F.classify t with
    | none => .ok (.reservedFvt1 t)
    | some c =>
      match assemble 0 c.nL (c.lenBias + inlineField t c.lenInline) bs with
      | .error e => .error e
      | .ok (len, bs') =>
        match assemble 0 c.nO (inlineField t c.offInline * 2 ^ c.offShift) bs' with
        | .error e => .error e
        | .ok (off, _) => c.instr len off := by
  simp only [decodeOperation, decodeClass]
  cases F.classify t with
  | none => rfl
  | some c =>
    simp only []
    cases assemble 0 c.nL (c.lenBias + inlineField t c.lenInline) bs with
    | error e => rfl
    | ok p =>
      obtain ⟨len, bs'⟩ := p
      simp only []
      cases assemble 0 c.nO (inlineField t c.offInline * 2 ^ c.offShift) bs' <;> rfl

/-- An operation whose bytes are all there and which does not overflow decodes. -/
theorem decodeOperation_ok {F : FVT} {t : Byte} {c : TagClass} {bs : List Byte} (hc : F.classify t = some c)
    (hn : c.nL + c.nO ≤ bs.length)
    (hl : c.lenBias + inlineField t c.lenInline + le (bs.take c.nL) ≤ intMax)
    (ho : inlineField t c.offInline * 2 ^ c.offShift + le ((bs.drop c.nL).take c.nO) ≤ intMax) :
    decodeOperation F (t :: bs) = c.instr (c.lenBias + inlineField t c.lenInline + le (bs.take c.nL))
      (inlineField t c.offInline * 2 ^ c.offShift + le ((bs.drop c.nL).take c.nO)) := by
  simp only [decodeOperation_cons, hc]
  rw [assemble_ok hl (by omega)]
  simp only []
  rw [assemble_ok ho (by rw [List.length_drop]; omega)]

theorem decodeOperation_reserved {F : FVT} {t : Byte} {bs : List Byte} (hc : F.classify t = none) :
    decodeOperation F (t :: bs) = .ok (.reservedFvt1 t) := by
  simp only [decodeOperation_cons, hc]

/-- What an operation of a class that decodes is: a tag the class takes, with all the trailers. -/
theorem decodeClass_inv {F : FVT} (hF : F ∈ tables) {bs : List Byte} {c : TagClass} {len off : Nat}
    (h : decodeClass F bs = .ok (some (c, len, off))) :
    ∃ (t : Byte) (rest : List Byte) (n : ClassName), bs = t :: rest ∧ c = n.row ∧ F.classify t = some n.row ∧
      n.row.nL + n.row.nO ≤ rest.length ∧ len = n.row.lenBias + inlineField t n.row.lenInline + le (rest.take n.row.nL) ∧
      off = inlineField t n.row.offInline * 2 ^ n.row.offShift + le ((rest.drop n.row.nL).take n.row.nO) ∧
      len ≤ intMax ∧ off ≤ intMax := by
  match bs with
  | [] => simp [decodeClass] at h
  | t :: rest =>
    simp only [decodeClass] at h
    match hc : F.classify t with
    | none => simp [hc] at h
    | some d =>
      obtain ⟨n, rfl⟩ := classify_row hF hc
      have hb := row_length n t
      have ho := row_offset n t
      simp only [hc] at h
      match h1 : assemble 0 n.row.nL (n.row.lenBias + inlineField t n.row.lenInline) rest with
      | .error _ => simp [h1] at h
      | .ok (len', bs') =>
        obtain ⟨hn, hl, hl', rfl⟩ := assemble_inv (by omega) h1
        simp only [h1] at h
        match h2 : assemble 0 n.row.nO (inlineField t n.row.offInline * 2 ^ n.row.offShift) (rest.drop n.row.nL) with
        | .error _ => simp [h2] at h
        | .ok (off', bs'') =>
          obtain ⟨hn', hl2, hl2', -⟩ := assemble_inv (by omega) h2
          simp only [h2, Except.ok.injEq, Option.some.injEq, Prod.mk.injEq] at h
          obtain ⟨rfl, rfl, rfl⟩ := h
          rw [List.length_drop] at hn'
          exact ⟨t, rest, n, rfl, rfl, hc, by omega, hl, hl2, hl', hl2'⟩

/-- What an operation that decodes is: a reserved tag, or an operation of a class with all its trailers. -/
theorem decodeOperation_inv {F : FVT} (hF : F ∈ tables) {bs : List Byte} {i : Instr} (h : decodeOperation F bs = .ok i) :
    ∃ t rest, bs = t :: rest ∧
      ((F.classify t = none ∧ i = .reservedFvt1 t) ∨
        ∃ n : ClassName, F.classify t = some n.row ∧ n.row.nL + n.row.nO ≤ rest.length ∧
          ∃ len off, len = n.row.lenBias + inlineField t n.row.lenInline + le (rest.take n.row.nL) ∧
            off = inlineField t n.row.offInline * 2 ^ n.row.offShift + le ((rest.drop n.row.nL).take n.row.nO) ∧
            len ≤ intMax ∧ off ≤ intMax ∧ i = n.toInstr len off) := by
  simp only [decodeOperation] at h
  match hd : decodeClass F bs with
  | .error e => simp [hd] at h
  | .ok none =>
    simp only [hd, Except.ok.injEq] at h
    match bs with
    | [] => simp [decodeClass] at hd
    | t :: rest =>
      refine ⟨t, rest, rfl, .inl ⟨?_, h.symm⟩⟩
      simp only [decodeClass] at hd
      split at hd
      · assumption
      · split at hd
        · simp at hd
        · split at hd <;> simp at hd
  | .ok (some (c, len, off)) =>
    obtain ⟨t, rest, n, rfl, rfl, hc, hn, hl, ho, hl', ho'⟩ := decodeClass_inv hF hd
    simp only [hd, row_instr, Except.ok.injEq] at h
    exact ⟨t, rest, rfl, .inr ⟨n, hc, hn, len, off, hl, ho, hl', ho', h.symm⟩⟩

/-- Why the bytes of an operation do not decode. -/
theorem decodeOperation_error {F : FVT} (hF : F ∈ tables) {t : Byte} {bs : List Byte} {e : DecodeError}
    (h : decodeOperation F (t :: bs) = .error e) : e = .lengthOverflow ∨ e = .truncatedTrailer := by
  simp only [decodeOperation_cons] at h
  match hc : F.classify t with
  | none => simp [hc] at h
  | some c =>
    obtain ⟨n, rfl⟩ := classify_row hF hc
    have hb := row_length n t
    have ho := row_offset n t
    simp only [hc] at h
    match h1 : assemble 0 n.row.nL (n.row.lenBias + inlineField t n.row.lenInline) bs with
    | .error d =>
      simp only [h1, Except.error.injEq] at h
      exact h ▸ assemble_error (by omega) h1
    | .ok (len, bs') =>
      simp only [h1] at h
      match h2 : assemble 0 n.row.nO (inlineField t n.row.offInline * 2 ^ n.row.offShift) bs' with
      | .error d =>
        simp only [h2, Except.error.injEq] at h
        exact h ▸ assemble_error (by omega) h2
      | .ok (off, bs'') => simp [h2] at h

/-- Only the first nine bytes matter. -/
theorem decodeOperation_take {F : FVT} (hF : F ∈ tables) (bs : List Byte) {m : Nat} (hm : 9 ≤ m) :
    decodeOperation F (bs.take m) = decodeOperation F bs := by
  match bs with
  | [] => simp
  | t :: bs =>
    obtain ⟨m, rfl⟩ : ∃ k, m = k + 1 := ⟨m - 1, by omega⟩
    simp only [List.take_succ_cons, decodeOperation_cons]
    match hc : F.classify t with
    | none => rfl
    | some c =>
      obtain ⟨n, rfl⟩ := classify_row hF hc
      have hb := row_length n t
      have ho := row_offset n t
      have hn := row_trailers n
      simp only []
      rw [assemble_take (by omega) (show n.row.nL ≤ m by omega)]
      match assemble 0 n.row.nL (n.row.lenBias + inlineField t n.row.lenInline) bs with
      | .error _ => rfl
      | .ok (len, bs') =>
        simp only [Except.map]
        rw [assemble_take (by omega) (show n.row.nO ≤ m - n.row.nL by omega)]
        match assemble 0 n.row.nO (inlineField t n.row.offInline * 2 ^ n.row.offShift) bs' with
        | .error _ => rfl
        | .ok (off, bs'') => rfl

/-! ### The tag an encoder writes -/

/-- The class, the inline length and the inline offset of an encoded tag, where the operands are in the class's ranges. -/
structure TagReads (n : ClassName) (t : Byte) (len off : Nat) : Prop where
  takes : n.row.takes t = true
  length : n.row.lenInline ≠ none → inlineField t n.row.lenInline = len - n.row.lenBias
  offset : n.row.offInline ≠ none → inlineField t n.row.offInline = off / 2 ^ n.row.offShift

theorem tag_litI : ∀ x < 60, ClassName.litI.row.takes (BitVec.ofNat 8 ((0 : Byte).toNat + x * 4)) = true ∧
    bits (BitVec.ofNat 8 ((0 : Byte).toNat + x * 4)) 7 2 = x := by decide

theorem tag_copy1 : ∀ x < 8, ∀ y < 8, ClassName.copy1.row.takes (BitVec.ofNat 8 (1 + x * 4 + y * 32)) = true ∧
    bits (BitVec.ofNat 8 (1 + x * 4 + y * 32)) 4 2 = x ∧ bits (BitVec.ofNat 8 (1 + x * 4 + y * 32)) 7 5 = y := by decide

theorem tag_copy2 : ∀ x < 64, ClassName.copy2.row.takes (BitVec.ofNat 8 (2 + x * 4)) = true ∧
    bits (BitVec.ofNat 8 (2 + x * 4)) 7 2 = x := by decide

theorem tag_copy4 : ∀ x < 64, ClassName.copy4.row.takes (BitVec.ofNat 8 (3 + x * 4)) = true ∧
    bits (BitVec.ofNat 8 (3 + x * 4)) 7 2 = x := by decide

/-- The operands a class's encoding can carry. -/
abbrev ClassName.carries (n : ClassName) (len off : Nat) : Prop :=
  n.row.lenBias ≤ len ∧ len ≤ n.row.maxLen ∧ (n.row.kind = .literal → off = 0) ∧ (n.row.kind = .copy → off ≤ n.row.maxOff)

/-- The tag of an encoded operation reads back. -/
theorem tagReads (n : ClassName) {len off : Nat} (h : n.carries len off) :
    TagReads n ((n.row.encode len off).headD 0) len off := by
  obtain ⟨h1, h2, h3, h4⟩ := h
  cases n <;>
    simp only [ClassName.row, literalTrailerClass, TagClass.maxLen, TagClass.maxOff, TagClass.encode, List.headD_cons,
      placeField, Option.getD_none, Option.getD_some] at h1 h2 h3 h4 ⊢ <;>
    norm_num at h1 h2 h3 h4 ⊢
  · obtain ⟨k1, k2⟩ := tag_litI (len - 1) (by omega)
    exact ⟨k1, fun _ => k2, fun h => absurd rfl h⟩
  · exact ⟨by decide, fun h => absurd rfl h, fun h => absurd rfl h⟩
  · exact ⟨by decide, fun h => absurd rfl h, fun h => absurd rfl h⟩
  · exact ⟨by decide, fun h => absurd rfl h, fun h => absurd rfl h⟩
  · exact ⟨by decide, fun h => absurd rfl h, fun h => absurd rfl h⟩
  · obtain ⟨k1, k2, k3⟩ := tag_copy1 (len - 4) (by omega) (off / 256) (by omega)
    exact ⟨k1, fun _ => k2, fun _ => k3⟩
  · obtain ⟨k1, k2⟩ := tag_copy2 (len - 1) (by omega)
    exact ⟨k1, fun _ => k2, fun h => absurd rfl h⟩
  · obtain ⟨k1, k2⟩ := tag_copy4 (len - 1) (by omega)
    exact ⟨k1, fun _ => k2, fun h => absurd rfl h⟩
  · exact ⟨by decide, fun h => absurd rfl h, fun h => absurd rfl h⟩

/-! ### Classification is unambiguous -/

set_option maxRecDepth 4000 in
theorem fvt0_disjoint : ∀ k < 256, (fvt0.classes.filter fun c : TagClass => c.takes (BitVec.ofNat 8 k)).length ≤ 1 := by
  decide

set_option maxRecDepth 4000 in
theorem fvt1_disjoint : ∀ k < 256, (fvt1.classes.filter fun c : TagClass => c.takes (BitVec.ofNat 8 k)).length ≤ 1 := by
  decide

/-- No tag is taken by two classes (R77 (2)). -/
theorem classes_disjoint {F : FVT} (hF : F ∈ tables) (t : Byte) :
    (F.classes.filter fun c : TagClass => c.takes t).length ≤ 1 := by
  have ht : t = BitVec.ofNat 8 t.toNat := by simp
  simp only [tables, List.mem_cons, List.not_mem_nil, or_false] at hF
  rw [ht]
  rcases hF with rfl | rfl
  · exact fvt0_disjoint _ t.isLt
  · exact fvt1_disjoint _ t.isLt

/-- The first element that passes a test is any that does, where at most one does. -/
theorem find?_eq_of_filter {α : Type} {p : α → Bool} {l : List α} (hl : (l.filter p).length ≤ 1) {c : α} (hc : c ∈ l)
    (hp : p c = true) : l.find? p = some c := by
  induction l with
  | nil => simp at hc
  | cons d l ih =>
    by_cases hd : p d = true
    · rw [List.filter_cons_of_pos hd, List.length_cons] at hl
      have hnil : l.filter p = [] := List.length_eq_zero_iff.1 (by omega)
      rw [List.find?_cons_of_pos hd]
      rcases List.mem_cons.1 hc with rfl | hc
      · rfl
      · exact absurd (List.mem_filter.2 ⟨hc, hp⟩) (by simp [hnil])
    · rw [List.filter_cons_of_neg hd] at hl
      rw [List.find?_cons_of_neg hd]
      rcases List.mem_cons.1 hc with rfl | hc
      · exact absurd hp hd
      · exact ih hl hc

/-- The class of a tag is the one that takes it (R67). -/
theorem classify_of_takes {F : FVT} (hF : F ∈ tables) {t : Byte} {c : TagClass} (hc : c ∈ F.classes)
    (h : c.takes t = true) : F.classify t = some c :=
  find?_eq_of_filter (classes_disjoint hF t) hc h

/-! ### Decode of encode, class by class -/

theorem encode_eq_cons (c : TagClass) (len off : Nat) :
    c.encode len off = (c.encode len off).headD 0 :: (leBytes c.nL (len - c.lenBias) ++ leBytes c.nO (c.trailerOffset off)) :=
  rfl

@[simp] theorem encode_length (c : TagClass) (len off : Nat) : (c.encode len off).length = c.size := by
  simp [TagClass.encode, TagClass.size]; omega

/-- The trailers of an encoded operation read back. -/
theorem trailersRead (n : ClassName) {len off : Nat} (h : n.carries len off) (hl : len ≤ intMax) (ho : off ≤ intMax) :
    let t := (n.row.encode len off).headD 0
    n.row.lenBias + inlineField t n.row.lenInline + le (leBytes n.row.nL (len - n.row.lenBias)) = len ∧
      inlineField t n.row.offInline * 2 ^ n.row.offShift + le (leBytes n.row.nO (n.row.trailerOffset off)) = off := by
  obtain ⟨-, hlen, hoff⟩ := tagReads n h
  obtain ⟨h1, h2, h3, h4⟩ := h
  generalize (n.row.encode len off).headD 0 = t at hlen hoff
  rw [le_leBytes, le_leBytes]
  cases n <;>
    simp only [ClassName.row, literalTrailerClass, TagClass.maxLen, TagClass.maxOff, TagClass.trailerOffset, ne_eq,
      reduceCtorEq, not_false_eq_true, not_true_eq_false, forall_const, false_implies, inlineField, Option.getD_none,
      Option.getD_some, intMax] at h1 h2 h3 h4 hlen hoff hl ho ⊢ <;>
    norm_num at h1 h2 h3 h4 hlen hoff ⊢ <;> omega

/-- An encoded operation decodes to itself, whatever follows it. -/
theorem decodeOperation_encode {F : FVT} (hF : F ∈ tables) {n : ClassName} (hn : n.row ∈ F.classes) {len off : Nat}
    (h : n.carries len off) (hl : len ≤ intMax) (ho : off ≤ intMax) (rest : List Byte) :
    decodeOperation F (n.row.encode len off ++ rest) = .ok (n.toInstr len off) := by
  obtain ⟨e1, e2⟩ := trailersRead n h hl ho
  have hc := classify_of_takes hF hn (tagReads n h).takes
  rw [encode_eq_cons, List.cons_append, List.append_assoc]
  have t1 : (leBytes n.row.nL (len - n.row.lenBias) ++ (leBytes n.row.nO (n.row.trailerOffset off) ++ rest)).take n.row.nL =
      leBytes n.row.nL (len - n.row.lenBias) := by
    rw [List.take_append_of_le_length (by simp), List.take_of_length_le (by simp)]
  have t2 : ((leBytes n.row.nL (len - n.row.lenBias) ++ (leBytes n.row.nO (n.row.trailerOffset off) ++ rest)).drop
      n.row.nL).take n.row.nO = leBytes n.row.nO (n.row.trailerOffset off) := by
    rw [List.drop_append_of_le_length (by simp), List.drop_of_length_le (by simp), List.nil_append,
      List.take_append_of_le_length (by simp), List.take_of_length_le (by simp)]
  rw [decodeOperation_ok hc (by simp) (by rw [t1, e1]; exact hl) (by rw [t2, e2]; exact ho), t1, t2, e1, e2, row_instr]

/-! ### The varint -/

theorem bits_payload (b : Byte) : bits b 6 0 = b.toNat % 128 := by simp [bits]

theorem bits_continuation (b : Byte) : bits b 7 7 = b.toNat / 128 := by
  have := b.isLt
  simp only [bits]; omega

theorem varintValue_lt (bs : List Byte) : varintValue bs < 2 ^ (7 * bs.length) := by
  induction bs with
  | nil => simp [varintValue]
  | cons b bs ih =>
    simp only [varintValue, bits_payload, List.length_cons, Nat.mul_add, Nat.pow_add]
    omega

/-- The bytes before the last of a varint have their continuation bits set, and the last has not (R62). -/
def VarintShape : List Byte → Prop
  | [] => False
  | [b] => bits b 7 7 = 0
  | b :: bs => bits b 7 7 = 1 ∧ VarintShape bs

theorem varintValue_weight (k : Nat) (b : Byte) (bs : List Byte) : 2 ^ (7 * k) * varintValue (b :: bs) =
    2 ^ (7 * k) * bits b 6 0 + 2 ^ (7 * (k + 1)) * varintValue bs := by
  rw [varintValue, Nat.mul_add 7, Nat.pow_add]; ring

/-- A varint of at most `n` bytes at the head of the bytes reads (R94). -/
theorem readVarintFrom_ok {k n acc : Nat} {vs rest : List Byte} (hs : VarintShape vs) (hn : vs.length ≤ n)
    (hv : acc + 2 ^ (7 * k) * varintValue vs ≤ intMax) :
    readVarintFrom k n acc (vs ++ rest) = .ok (acc + 2 ^ (7 * k) * varintValue vs, k + vs.length) := by
  induction vs generalizing k n acc with
  | nil => exact absurd hs id
  | cons b vs ih =>
    obtain ⟨n, rfl⟩ : ∃ m, n = m + 1 := ⟨n - 1, by simp only [List.length_cons] at hn; omega⟩
    rw [varintValue_weight] at hv ⊢
    simp only [List.cons_append, readVarintFrom]
    have hc : bits b 6 0 * 2 ^ (7 * k) = 2 ^ (7 * k) * bits b 6 0 := Nat.mul_comm _ _
    rw [hc, if_neg (by omega)]
    cases vs with
    | nil =>
      rw [if_pos (show bits b 7 7 = 0 from hs)]
      simp [varintValue]
    | cons c vs =>
      rw [if_neg (by rw [hs.1]; decide), ih hs.2 (by simp only [List.length_cons] at hn ⊢; omega)
        (by rw [Nat.add_assoc]; exact hv)]
      rw [Nat.add_assoc, Nat.add_assoc, Nat.add_comm 1, ← List.length_cons]

/-- What a varint that reads is. -/
theorem readVarintFrom_inv {k n acc v m : Nat} {bs : List Byte} (h : readVarintFrom k n acc bs = .ok (v, m)) :
    ∃ vs rest, bs = vs ++ rest ∧ VarintShape vs ∧ vs.length ≤ n ∧ m = k + vs.length ∧
      v = acc + 2 ^ (7 * k) * varintValue vs ∧ v ≤ intMax := by
  induction n generalizing k acc bs with
  | zero => simp [readVarintFrom] at h
  | succ n ih =>
    match bs with
    | [] => simp [readVarintFrom] at h
    | b :: bs =>
      have hc : bits b 6 0 * 2 ^ (7 * k) = 2 ^ (7 * k) * bits b 6 0 := Nat.mul_comm _ _
      simp only [readVarintFrom, hc] at h
      split_ifs at h with h1 h2
      · simp only [Except.ok.injEq, Prod.mk.injEq] at h
        refine ⟨[b], bs, rfl, h2, by simp, by simpa using h.2.symm, ?_, by omega⟩
        simp [varintValue, ← h.1]
      · obtain ⟨vs, rest, rfl, hs, hl, hm, hv, hv'⟩ := ih h
        refine ⟨b :: vs, rest, rfl, ?_, by simp only [List.length_cons]; omega, by simp only [List.length_cons]; omega, ?_, hv'⟩
        · cases vs with
          | nil => exact absurd hs id
          | cons c vs =>
            have := b.isLt
            rw [bits_continuation] at h2
            exact ⟨by rw [bits_continuation]; omega, hs⟩
        · rw [hv, varintValue_weight, Nat.add_assoc]

/-- A varint that ends too early is truncated. -/
theorem readVarintFrom_truncated {k n acc : Nat} {bs : List Byte} (hacc : acc ≤ intMax) :
    readVarintFrom k n acc bs = .error .truncatedHeader ↔
      bs.length < n ∧ (∀ b ∈ bs, bits b 7 7 = 1) ∧ acc + 2 ^ (7 * k) * varintValue bs ≤ intMax := by
  induction n generalizing k acc bs with
  | zero => simp [readVarintFrom]
  | succ n ih =>
    match bs with
    | [] => simpa [readVarintFrom, varintValue] using hacc
    | b :: bs =>
      have hc : bits b 6 0 * 2 ^ (7 * k) = 2 ^ (7 * k) * bits b 6 0 := Nat.mul_comm _ _
      have hb : bits b 7 7 = 0 ∨ bits b 7 7 = 1 := by
        have := b.isLt
        rw [bits_continuation]; omega
      simp only [readVarintFrom, hc, varintValue_weight, List.length_cons, List.mem_cons, forall_eq_or_imp]
      split_ifs with h1 h2
      · simp only [Except.error.injEq, reduceCtorEq, false_iff]
        omega
      · simp [h2]
      · rw [ih (by omega)]
        constructor
        · rintro ⟨h3, h4, h5⟩
          exact ⟨by omega, ⟨by omega, h4⟩, by omega⟩
        · rintro ⟨h3, ⟨-, h4⟩, h5⟩
          exact ⟨by omega, h4, by omega⟩

/-- A varint that does not read is truncated or invalid. -/
theorem readVarintFrom_error {k n acc : Nat} {bs : List Byte} {e : DecodeError} (h : readVarintFrom k n acc bs = .error e) :
    e = .truncatedHeader ∨ e = .invalidLength := by
  induction n generalizing k acc bs with
  | zero => simp only [readVarintFrom, Except.error.injEq] at h; exact .inr h.symm
  | succ n ih =>
    match bs with
    | [] => simp only [readVarintFrom, Except.error.injEq] at h; exact .inl h.symm
    | b :: bs =>
      simp only [readVarintFrom] at h
      split_ifs at h
      · simp only [Except.error.injEq] at h; exact .inr h.symm
      · exact ih h

/-- Only the first five bytes matter. -/
theorem readVarintFrom_take (k n acc : Nat) (bs : List Byte) {m : Nat} (hm : n ≤ m) :
    readVarintFrom k n acc (bs.take m) = readVarintFrom k n acc bs := by
  induction n generalizing k acc bs m with
  | zero => simp [readVarintFrom]
  | succ n ih =>
    obtain ⟨m, rfl⟩ : ∃ j, m = j + 1 := ⟨m - 1, by omega⟩
    match bs with
    | [] => simp
    | b :: bs => simp only [List.take_succ_cons, readVarintFrom, ih _ _ _ (show n ≤ m by omega)]

theorem readVarint_take (bs : List Byte) : readVarint (bs.take 5) = readVarint bs :=
  readVarintFrom_take 0 5 0 bs (Nat.le_refl 5)

/-- A varint at the head of the bytes reads. -/
theorem readVarint_ok {vs : List Byte} (rest : List Byte) (hs : VarintShape vs) (hn : vs.length ≤ 5)
    (hv : varintValue vs ≤ intMax) : readVarint (vs ++ rest) = .ok (varintValue vs, vs.length) := by
  have := readVarintFrom_ok (k := 0) (n := 5) (acc := 0) (rest := rest) hs hn (by simpa using hv)
  simpa [readVarint] using this

/-- What a varint that reads is. -/
theorem readVarint_inv {v m : Nat} {bs : List Byte} (h : readVarint bs = .ok (v, m)) :
    ∃ vs rest, bs = vs ++ rest ∧ VarintShape vs ∧ vs.length ≤ 5 ∧ m = vs.length ∧ v = varintValue vs ∧ v ≤ intMax := by
  obtain ⟨vs, rest, h1, h2, h3, h4, h5, h6⟩ := readVarintFrom_inv h
  exact ⟨vs, rest, h1, h2, h3, by simpa using h4, by simpa using h5, h6⟩

/-! ### Encoding a varint -/

theorem encodeVarint_length (size value : Nat) : (encodeVarint size value).length = size := by
  induction size using Nat.strongRecOn generalizing value with
  | ind size ih =>
    match size with
    | 0 => rfl
    | 1 => rfl
    | n + 2 => simp only [encodeVarint, List.length_cons, ih (n + 1) (by omega)]

/-- The bytes of an encoded varint have the shape and the value. -/
theorem encodeVarint_reads {size value : Nat} (h1 : 1 ≤ size) (hv : value < 2 ^ (7 * size)) :
    VarintShape (encodeVarint size value) ∧ varintValue (encodeVarint size value) = value := by
  induction size using Nat.strongRecOn generalizing value with
  | ind size ih =>
    match size with
    | 0 => omega
    | 1 =>
      norm_num at hv
      simp only [encodeVarint, VarintShape, varintValue, bits_continuation, bits_payload, BitVec.toNat_ofNat]
      omega
    | n + 2 =>
      obtain ⟨i1, i2⟩ := ih (n + 1) (by omega) (value := value / 128) (by omega)
        (by rw [show 7 * (n + 2) = 7 * (n + 1) + 7 by ring, Nat.pow_add] at hv; omega)
      have hl := encodeVarint_length (n + 1) (value / 128)
      simp only [encodeVarint]
      generalize encodeVarint (n + 1) (value / 128) = vs at *
      match vs with
      | [] => simp at hl
      | c :: vs =>
        refine ⟨⟨?_, i1⟩, ?_⟩
        · rw [bits_continuation, BitVec.toNat_ofNat]; omega
        · rw [varintValue, i2, bits_payload, BitVec.toNat_ofNat]; omega

/-- Bytes with the shape of a varint are the encoding of its value in their number. -/
theorem encodeVarint_varintValue {vs : List Byte} (hs : VarintShape vs) : encodeVarint vs.length (varintValue vs) = vs := by
  induction vs with
  | nil => exact absurd hs id
  | cons b vs ih =>
    have hb := b.isLt
    cases vs with
    | nil =>
      simp only [VarintShape, bits_continuation] at hs
      simp only [List.length_cons, List.length_nil, encodeVarint, varintValue, bits_payload]
      congr 1
      apply BitVec.eq_of_toNat_eq
      simp only [BitVec.toNat_ofNat]; omega
    | cons c vs =>
      obtain ⟨h1, h2⟩ := hs
      rw [bits_continuation] at h1
      have ih := ih h2
      simp only [List.length_cons] at ih ⊢
      rw [encodeVarint, varintValue, bits_payload]
      congr 1
      · apply BitVec.eq_of_toNat_eq
        simp only [BitVec.toNat_ofNat]; omega
      · rw [show (b.toNat % 128 + 128 * varintValue (c :: vs)) / 128 = varintValue (c :: vs) by omega, ih]

/-- The shortest varint has the shape and the value, and the fewest bytes that can carry the value. -/
theorem shortestVarintFrom_reads {fuel n : Nat} (h1 : 1 ≤ fuel) (hn : n < 2 ^ (7 * fuel)) :
    VarintShape (shortestVarintFrom fuel n) ∧ varintValue (shortestVarintFrom fuel n) = n ∧
      (shortestVarintFrom fuel n).length ≤ fuel ∧
      ((shortestVarintFrom fuel n).length = 1 ∨ 2 ^ (7 * ((shortestVarintFrom fuel n).length - 1)) ≤ n) := by
  induction fuel generalizing n with
  | zero => omega
  | succ fuel ih =>
    simp only [shortestVarintFrom]
    split_ifs with h
    · have hf : 1 ≤ fuel := by
        cases fuel with
        | zero => norm_num at hn; omega
        | succ _ => omega
      obtain ⟨i1, i2, i3, i4⟩ := ih hf (n := n / 128) (by rw [Nat.mul_add, Nat.pow_add] at hn; omega)
      generalize shortestVarintFrom fuel (n / 128) = vs at *
      match vs with
      | [] => exact absurd i1 id
      | c :: vs =>
        refine ⟨⟨?_, i1⟩, ?_, by simp only [List.length_cons] at i3 ⊢; omega, .inr ?_⟩
        · rw [bits_continuation, BitVec.toNat_ofNat]; omega
        · rw [varintValue, i2, bits_payload, BitVec.toNat_ofNat]; omega
        · simp only [List.length_cons, Nat.add_sub_cancel] at i4 ⊢
          rcases i4 with i4 | i4
          · rw [i4]; omega
          · rw [show 7 * (vs.length + 1) = 7 * vs.length + 7 by ring, Nat.pow_add]; omega
    · refine ⟨?_, ?_, by simp, .inl rfl⟩
      · simp only [VarintShape, bits_continuation, BitVec.toNat_ofNat]; omega
      · simp only [varintValue, bits_payload, BitVec.toNat_ofNat]; omega

theorem shortestVarint_reads {n : Nat} (hn : n ≤ intMax) :
    VarintShape (shortestVarint n) ∧ varintValue (shortestVarint n) = n ∧ (shortestVarint n).length ≤ 5 ∧
      ((shortestVarint n).length = 1 ∨ 2 ^ (7 * ((shortestVarint n).length - 1)) ≤ n) :=
  shortestVarintFrom_reads (by decide) (Nat.lt_of_le_of_lt hn (by decide))

/-- The shortest varint reads back, whatever follows it. -/
theorem readVarint_shortestVarint {n : Nat} (hn : n ≤ intMax) (rest : List Byte) :
    readVarint (shortestVarint n ++ rest) = .ok (n, (shortestVarint n).length) := by
  obtain ⟨h1, h2, h3, -⟩ := shortestVarint_reads hn
  have := readVarint_ok rest h1 h3 (by rw [h2]; exact hn)
  rwa [h2] at this

/-! ### Instructions as operations -/

/-- A well-formed operation's operands are ones its class carries. -/
theorem carries_of_wf {i : Instr} {n : ClassName} {len off : Nat} (h : i.operands = some (n, len, off)) (hw : i.wf = true) :
    n.carries len off ∧ len ≤ intMax ∧ off ≤ intMax := by
  cases i <;> simp only [Instr.operands, reduceCtorEq, Option.some.injEq, Prod.mk.injEq] at h <;>
    obtain ⟨rfl, rfl, rfl⟩ := h <;>
    simp [Instr.wf, ClassName.carries, ClassName.row, literalTrailerClass, TagClass.maxLen, TagClass.maxOff, intMax]
      at hw ⊢ <;> omega

/-- Operands a class carries are a well-formed operation's. -/
theorem wf_toInstr {n : ClassName} {len off : Nat} (h : n.carries len off) (hl : len ≤ intMax) :
    (n.toInstr len off).wf = true := by
  cases n <;> simp [ClassName.toInstr, Instr.wf, ClassName.carries, ClassName.row, literalTrailerClass, TagClass.maxLen,
    TagClass.maxOff, intMax] at h hl ⊢ <;> omega

/-- An operation is the instruction of its class and operands, and is encoded by its class. -/
theorem operation_eq {i : Instr} {n : ClassName} {len off : Nat} (h : i.operands = some (n, len, off)) :
    n.toInstr len off = i ∧ encode i = .operation (n.row.encode len off) ∧ ∀ F : FVT, F.has i = F.classes.contains n.row := by
  cases i <;> simp only [Instr.operands, reduceCtorEq, Option.some.injEq, Prod.mk.injEq] at h <;>
    obtain ⟨rfl, rfl, rfl⟩ := h <;> exact ⟨rfl, rfl, fun _ => rfl⟩

/-- The operands of a class's instruction (a literal's offset is 0). -/
theorem operands_toInstr (n : ClassName) {len off : Nat} (h : n.row.kind = .literal → off = 0) :
    (n.toInstr len off).operands = some (n, len, off) := by
  cases n <;> simp_all [ClassName.toInstr, Instr.operands, ClassName.row, literalTrailerClass]

/-- An operation of a class under the tables of this hardware: the offset of a literal is 0. -/
theorem decodeClass_offset {F : FVT} (hF : F ∈ tables) {bs : List Byte} {n : ClassName} {len off : Nat}
    (h : decodeClass F bs = .ok (some (n.row, len, off))) (hk : n.row.kind = .literal) : off = 0 := by
  obtain ⟨t, rest, m, -, e, -, -, -, ho, -, -⟩ := decodeClass_inv hF h
  rw [← e] at ho
  have h1 : n.row.offInline = none ∧ n.row.nO = 0 := by cases n <;> first | exact ⟨rfl, rfl⟩ | simp [ClassName.row] at hk
  rw [ho, h1.1, h1.2]; simp [inlineField, le]

/-- Under the tables of this hardware every operation of a class is an instruction with its operands. -/
theorem decodeClass_tables {F : FVT} (hF : F ∈ tables) (bs : List Byte) :
    decodeClass F bs = match decodeOperation F bs with
      | .error e => .error e
      | .ok i => .ok (i.operands.map fun p => (p.1.row, p.2.1, p.2.2)) := by
  simp only [decodeOperation]
  match hd : decodeClass F bs with
  | .error e => rfl
  | .ok none => rfl
  | .ok (some (c, len, off)) =>
    obtain ⟨t, rest, n, -, rfl, -⟩ := decodeClass_inv hF hd
    simp only [row_instr, operands_toInstr n (decodeClass_offset hF hd), Option.map_some]

set_option maxRecDepth 4000 in
/-- A tag of a class is the class's pattern with its inline fields. -/
theorem tag_of_takes : ∀ n ∈ [ClassName.litI, .litT1, .litT2, .litT3, .litT4, .copy1, .copy2, .copy4, .copyX], ∀ k < 256,
    n.row.takes (BitVec.ofNat 8 k) = true →
      k = n.row.pattern.toNat + placeField (inlineField (BitVec.ofNat 8 k) n.row.lenInline) n.row.lenInline +
        placeField (inlineField (BitVec.ofNat 8 k) n.row.offInline) n.row.offInline ∧
      (n.row.lenInline ≠ none → n.row.lenBias + inlineField (BitVec.ofNat 8 k) n.row.lenInline ≤ n.row.maxLen) ∧
      (n.row.offInline ≠ none → inlineField (BitVec.ofNat 8 k) n.row.offInline < 8) := by decide

/-- A class's encoding of what its tag and trailers assemble to is the tag and the trailers. -/
theorem encode_assembled (n : ClassName) {t : Byte} (h : n.row.takes t = true) {ls us : List Byte}
    (h1 : ls.length = n.row.nL) (h2 : us.length = n.row.nO)
    (hl : n.row.lenBias + inlineField t n.row.lenInline + le ls ≤ intMax)
    (ho : inlineField t n.row.offInline * 2 ^ n.row.offShift + le us ≤ intMax) :
    n.row.encode (n.row.lenBias + inlineField t n.row.lenInline + le ls)
        (inlineField t n.row.offInline * 2 ^ n.row.offShift + le us) = t :: (ls ++ us) ∧
      n.carries (n.row.lenBias + inlineField t n.row.lenInline + le ls)
        (inlineField t n.row.offInline * 2 ^ n.row.offShift + le us) := by
  obtain ⟨ht, hb, hy⟩ := tag_of_takes n (by cases n <;> decide) t.toNat t.isLt (by simpa using h)
  have bl := le_lt ls
  have bo := le_lt us
  have rl := leBytes_le ls
  have ro := leBytes_le us
  rw [h1] at bl rl
  rw [h2] at bo ro
  simp only [BitVec.ofNat_toNat, BitVec.setWidth_eq] at ht hb hy
  have hx := t.isLt
  have tag : ∀ k, t.toNat = k → BitVec.ofNat 8 k = t := fun k hk => by rw [← hk]; simp
  cases n <;>
    simp only [ClassName.row, literalTrailerClass, placeField, inlineField, TagClass.maxLen, TagClass.maxOff,
      TagClass.trailerOffset, TagClass.encode, ClassName.carries, ne_eq, reduceCtorEq, not_false_eq_true, forall_const,
      Option.getD_none, Option.getD_some, Nat.add_zero, Nat.zero_add, Nat.pow_zero, Nat.mul_one,
      Nat.add_sub_cancel_left, List.length_eq_zero_iff, false_implies, intMax]
      at ht hb hy bl bo rl ro h1 h2 hl ho ⊢ <;>
    norm_num at bl bo hb hl ho ⊢
  · exact ⟨⟨tag _ (by omega), by rw [h1, h2]; rfl⟩, by omega, by omega, bo⟩
  · exact ⟨⟨(BitVec.eq_of_toNat_eq ht).symm, by rw [rl, h2]; rfl⟩, by omega, bo⟩
  · exact ⟨⟨(BitVec.eq_of_toNat_eq ht).symm, by rw [rl, h2]; rfl⟩, by omega, bo⟩
  · exact ⟨⟨(BitVec.eq_of_toNat_eq ht).symm, by rw [rl, h2]; rfl⟩, by omega, bo⟩
  · exact ⟨⟨(BitVec.eq_of_toNat_eq ht).symm, by rw [rl, h2]; rfl⟩, by omega, bo⟩
  · exact ⟨⟨tag _ (by omega), by rw [Nat.mod_eq_of_lt bo, ro, h1]; rfl⟩, by omega, by omega, by omega⟩
  · exact ⟨⟨tag _ (by omega), by rw [ro, h1]; rfl⟩, by omega, by omega, by omega⟩
  · exact ⟨⟨tag _ (by omega), by rw [ro, h1]; rfl⟩, by omega, by omega, by omega⟩
  · exact ⟨⟨(BitVec.eq_of_toNat_eq ht).symm, by rw [rl, ro]⟩, by omega, by omega⟩

end Sys2Proof
end

