-- ==== Sys2Proof/Laws/Memory.lean ====
section
/-! SUPPORT. Physical memory: what a read gives after a write or a discard, and that both keep the canonical form. -/

namespace Sys2Proof.Machine

/-! ### Cells -/

theorem cellAt_of_lt {l : List Host.Cell} {z : Nat} (h : ∀ d ∈ l, z < d.1) : cellAt l z = Config.unlistedByte := by
  induction l with
  | nil => rfl
  | cons d l ih =>
    have h1 := h d (by simp)
    simp only [cellAt]
    rw [if_neg (by omega)]
    exact ih fun e he => h e (by simp [he])

theorem cellAt_setCell (cells : List Host.Cell) (h : cells.Pairwise fun c d => c.1 < d.1) (a x : Nat) (b : Byte) :
    cellAt (setCell cells a b) x = if x = a then b else cellAt cells x := by
  induction cells with
  | nil =>
    simp only [setCell]
    by_cases hb : b = Config.unlistedByte <;> by_cases hx : x = a
    · rw [if_pos hb, if_pos hx, hb]; rfl
    · rw [if_pos hb, if_neg hx]
    · subst hx; rw [if_neg hb, if_pos rfl]; simp [cellAt]
    · rw [if_neg hb, if_neg hx]; simp only [cellAt]; rw [if_neg fun h => hx h.symm]
  | cons c t ih =>
    obtain ⟨k, v⟩ := c
    rw [List.pairwise_cons] at h
    have hlt : ∀ e ∈ t, k < e.1 := fun e he => by simpa using h.1 e he
    have ht := ih h.2
    simp only [setCell]
    by_cases h1 : a < k
    · rw [if_pos h1]
      by_cases hb : b = Config.unlistedByte <;> by_cases hx : x = a
      · subst hx
        rw [if_pos hb, if_pos rfl, hb]
        refine cellAt_of_lt fun d hd => ?_
        rcases List.mem_cons.1 hd with rfl | hd
        · exact h1
        · have := hlt d hd; omega
      · rw [if_pos hb, if_neg hx]
      · subst hx; rw [if_neg hb, if_pos rfl]; simp [cellAt]
      · rw [if_neg hb, if_neg hx]
        conv_lhs => rw [cellAt]
        rw [if_neg fun h => hx h.symm]
    · rw [if_neg h1]
      by_cases h2 : a = k
      · subst h2
        rw [if_pos rfl]
        by_cases hb : b = Config.unlistedByte <;> by_cases hx : x = a
        · subst hx
          rw [if_pos hb, if_pos rfl, hb]
          exact cellAt_of_lt hlt
        · rw [if_pos hb, if_neg hx]
          conv_rhs => rw [cellAt]
          rw [if_neg fun h => hx h.symm]
        · subst hx; rw [if_neg hb, if_pos rfl]; simp [cellAt]
        · rw [if_neg hb, if_neg hx]
          simp only [cellAt]
          rw [if_neg fun h => hx h.symm, if_neg fun h => hx h.symm]
      · rw [if_neg h2]
        simp only [cellAt, ht]
        by_cases hx : k = x
        · rw [if_pos hx, if_pos hx, if_neg (by omega)]
        · rw [if_neg hx, if_neg hx]

theorem mem_setCell {cells : List Host.Cell} {a : Nat} {b : Byte} {c : Host.Cell} (h : c ∈ setCell cells a b) :
    c = (a, b) ∧ b ≠ Config.unlistedByte ∨ c ∈ cells := by
  induction cells with
  | nil =>
    simp only [setCell] at h
    split_ifs at h with hb
    · simp at h
    · exact .inl ⟨List.mem_singleton.1 h, hb⟩
  | cons d t ih =>
    obtain ⟨k, v⟩ := d
    simp only [setCell] at h
    split_ifs at h with h1 h2 h2 h3
    all_goals simp only [List.mem_cons] at h ⊢
    all_goals (try tauto)

theorem setCell_sorted {cells : List Host.Cell} (h : cells.Pairwise fun c d => c.1 < d.1) (a : Nat) (b : Byte) :
    (setCell cells a b).Pairwise fun c d => c.1 < d.1 := by
  induction cells with
  | nil => simp only [setCell]; split_ifs <;> simp
  | cons d t ih =>
    obtain ⟨k, v⟩ := d
    rw [List.pairwise_cons] at h
    have hlt : ∀ e ∈ t, k < e.1 := fun e he => by simpa using h.1 e he
    simp only [setCell]
    split_ifs with h1 h2 h3 h4
    · exact List.pairwise_cons.2 h
    · refine List.pairwise_cons.2 ⟨fun e he => ?_, List.pairwise_cons.2 h⟩
      rcases List.mem_cons.1 he with rfl | he
      · exact h1
      · have := hlt e he; simp only; omega
    · exact h.2
    · subst h3; exact List.pairwise_cons.2 ⟨hlt, h.2⟩
    · refine List.pairwise_cons.2 ⟨fun e he => ?_, ih h.2⟩
      rcases mem_setCell he with ⟨rfl, _⟩ | he
      · simp only; omega
      · exact hlt e he

theorem cellAt_filter (p : Host.Cell → Bool) (q : Nat → Bool) (hp : ∀ c, p c = q c.1) (cells : List Host.Cell) (x : Nat)
    (hx : q x = true) : cellAt (cells.filter p) x = cellAt cells x := by
  induction cells with
  | nil => rfl
  | cons c t ih =>
    obtain ⟨k, v⟩ := c
    by_cases hk : q k = true
    · rw [List.filter_cons_of_pos (by rw [hp]; exact hk)]
      simp only [cellAt, ih]
    · rw [List.filter_cons_of_neg (by rw [hp]; exact hk), ih]
      simp only [cellAt]
      rw [if_neg]
      rintro rfl
      exact hk hx

/-! ### Discarded ranges -/

theorem stampAt_append (l r : List Discarded) (x : Nat) :
    stampAt (l ++ r) x = (stampAt l x).or (stampAt r x) := by
  induction l with
  | nil => simp [stampAt]
  | cons d t ih =>
    simp only [List.cons_append, stampAt]
    split_ifs <;> simp [ih]

theorem stampAt_without (r : Discarded) (lo hi x : Nat) :
    stampAt (r.without lo hi) x = if (r.lo ≤ x ∧ x < r.hi) ∧ ¬ (lo ≤ x ∧ x < hi) then some r.stamp else none := by
  simp only [Discarded.without]
  by_cases h1 : r.lo < min r.hi lo <;> by_cases h2 : max r.lo hi < r.hi <;>
    simp only [h1, h2, if_true, if_false, List.nil_append, List.append_nil, List.cons_append, stampAt] <;>
    split_ifs <;> first | rfl | omega

theorem stampAt_flatMap_without (rs : List Discarded) (lo hi x : Nat) :
    stampAt (rs.flatMap (Discarded.without lo hi)) x = if lo ≤ x ∧ x < hi then none else stampAt rs x := by
  induction rs with
  | nil => simp [stampAt]
  | cons r t ih =>
    rw [List.flatMap_cons, stampAt_append, ih, stampAt_without]
    simp only [stampAt]
    by_cases h : lo ≤ x ∧ x < hi <;> by_cases h' : r.lo ≤ x ∧ x < r.hi <;> simp [h, h']

theorem stampAt_insertRange (r : Discarded) (rs : List Discarded) (x : Nat) (h : r.lo ≤ x ∧ x < r.hi → stampAt rs x = none) :
    stampAt (insertRange r rs) x = if r.lo ≤ x ∧ x < r.hi then some r.stamp else stampAt rs x := by
  induction rs with
  | nil => simp [insertRange, stampAt]
  | cons q t ih =>
    simp only [insertRange]
    split_ifs with h1 h2 h2
    · simp [stampAt, h2]
    · simp only [stampAt, h2, if_false]
    · have hq := h h2
      simp only [stampAt] at hq ⊢
      split_ifs at hq ⊢ with h3
      rw [ih fun _ => hq, if_pos h2]
    · simp only [stampAt]
      split_ifs
      · rfl
      · rw [ih fun hx => absurd hx h2, if_neg h2]

theorem mem_without {r q : Discarded} {lo hi : Nat} (h : q ∈ r.without lo hi) :
    r.lo ≤ q.lo ∧ q.hi ≤ r.hi ∧ q.lo < q.hi ∧ q.stamp = r.stamp ∧ (q.hi ≤ lo ∨ hi ≤ q.lo) := by
  simp only [Discarded.without] at h
  rw [List.mem_append] at h
  rcases h with h | h <;> split_ifs at h with hc
  · rw [List.mem_singleton] at h; subst h; dsimp only; refine ⟨?_, ?_, ?_, rfl, ?_⟩ <;> omega
  · simp at h
  · rw [List.mem_singleton] at h; subst h; dsimp only; refine ⟨?_, ?_, ?_, rfl, ?_⟩ <;> omega
  · simp at h

theorem mem_flatMap_without {rs : List Discarded} {q : Discarded} {lo hi : Nat}
    (h : q ∈ rs.flatMap (Discarded.without lo hi)) :
    ∃ r ∈ rs, r.lo ≤ q.lo ∧ q.hi ≤ r.hi ∧ q.lo < q.hi ∧ q.stamp = r.stamp ∧ (q.hi ≤ lo ∨ hi ≤ q.lo) := by
  obtain ⟨r, hr, hq⟩ := List.mem_flatMap.1 h
  exact ⟨r, hr, mem_without hq⟩

/-- The order of the discarded ranges in the canonical form. -/
abbrev Before (r q : Discarded) : Prop := r.hi < q.lo ∨ (r.hi = q.lo ∧ r.stamp ≠ q.stamp)

theorem without_ordered (r : Discarded) {lo hi : Nat} (h : lo < hi) : (r.without lo hi).Pairwise Before := by
  simp only [Discarded.without]
  split_ifs <;> simp [Before]; omega

theorem flatMap_without_ordered {rs : List Discarded} (h : rs.Pairwise Before) {lo hi : Nat} (hlt : lo < hi) :
    (rs.flatMap (Discarded.without lo hi)).Pairwise Before := by
  induction rs with
  | nil => simp
  | cons r t ih =>
    rw [List.pairwise_cons] at h
    rw [List.flatMap_cons, List.pairwise_append]
    refine ⟨without_ordered r hlt, ih h.2, fun x hx y hy => ?_⟩
    obtain ⟨q, hq, hqy⟩ := mem_flatMap_without hy
    have hx := mem_without hx
    have := h.1 q hq
    simp only [Before] at this ⊢
    rcases this with h1 | ⟨h1, h2⟩
    · left; omega
    · by_cases he : x.hi = y.lo
      · right; exact ⟨he, by rw [hx.2.2.2.1, hqy.2.2.2.1]; exact h2⟩
      · left; omega

theorem mem_insertRange {r q : Discarded} {rs : List Discarded} : q ∈ insertRange r rs ↔ q = r ∨ q ∈ rs := by
  induction rs with
  | nil => simp [insertRange]
  | cons x t ih =>
    simp only [insertRange]
    split_ifs
    · simp
    · simp only [List.mem_cons, ih]; tauto

theorem insertRange_ordered {r : Discarded} {rs : List Discarded} (h : rs.Pairwise Before) (hr : r.lo < r.hi)
    (hne : ∀ q ∈ rs, q.lo < q.hi) (hap : ∀ q ∈ rs, q.hi ≤ r.lo ∨ r.hi ≤ q.lo) (hst : ∀ q ∈ rs, q.stamp ≠ r.stamp) :
    (insertRange r rs).Pairwise Before := by
  induction rs with
  | nil => simp [insertRange]
  | cons x t ih =>
    have hx := List.pairwise_cons.1 h
    simp only [insertRange]
    split_ifs with h1
    · refine List.pairwise_cons.2 ⟨fun q hq => ?_, h⟩
      have hst' := hst q hq
      have h2 := hap q hq
      have hnq := hne q hq
      have hnx := hne x (by simp)
      simp only [Before]
      have hle : x.lo ≤ q.lo := by
        rcases List.mem_cons.1 hq with rfl | hq'
        · exact le_refl _
        · have := hx.1 q hq'; simp only [Before] at this; omega
      by_cases he : r.hi = q.lo
      · right; exact ⟨he, fun hc => hst' hc.symm⟩
      · left; omega
    · refine List.pairwise_cons.2 ⟨fun q hq => ?_, ih hx.2 (fun q hq => hne q (by simp [hq])) (fun q hq => hap q (by simp [hq]))
        (fun q hq => hst q (by simp [hq]))⟩
      rcases mem_insertRange.1 hq with rfl | hq
      · have h2 := hap x (by simp)
        have hst' := hst x (by simp)
        have hnx := hne x (by simp)
        simp only [Before]
        by_cases he : x.hi = q.lo
        · right; exact ⟨he, hst'⟩
        · left; omega
      · exact hx.1 q hq

/-! ### Memory -/

theorem stampAt_eq_none_of_forall {rs : List Discarded} {x : Nat} (h : ∀ r ∈ rs, ¬ (r.lo ≤ x ∧ x < r.hi)) :
    stampAt rs x = none := by
  induction rs with
  | nil => rfl
  | cons r t ih =>
    simp only [stampAt]
    rw [if_neg (h r (by simp))]
    exact ih fun q hq => h q (by simp [hq])

/-- A read after a write. -/
theorem Memory.read_write {m : Memory} (hm : m.wf) (a x : Nat) (b : Byte) :
    (m.write a b).read x = if x = a then b else m.read x := by
  simp only [Memory.read, Memory.write, stampAt_flatMap_without]
  by_cases h : x = a
  · subst h
    simp [cellAt_setCell _ hm.1]
  · rw [if_neg (by omega), if_neg h]
    split
    · rfl
    · rw [cellAt_setCell _ hm.1, if_neg h]

theorem Memory.read_write_same {m : Memory} (hm : m.wf) (a : Nat) (b : Byte) : (m.write a b).read a = b := by
  rw [Memory.read_write hm, if_pos rfl]

theorem Memory.read_write_other {m : Memory} (hm : m.wf) {a x : Nat} (b : Byte) (h : x ≠ a) :
    (m.write a b).read x = m.read x := by
  rw [Memory.read_write hm, if_neg h]

/-- A read after a discard: outside the range, what it was. -/
theorem Memory.read_discard_outside (m : Memory) {lo hi d x : Nat} (h : x < lo ∨ hi ≤ x) :
    (m.discard lo hi d).read x = m.read x := by
  simp only [Memory.discard]
  split_ifs with hlt
  · simp only [Memory.read]
    rw [stampAt_insertRange _ _ _ (by simp only; omega), stampAt_flatMap_without]
    simp only
    rw [if_neg (by omega), if_neg (by omega)]
    split
    · rfl
    · exact cellAt_filter _ (fun k => k < lo || hi ≤ k) (fun _ => rfl) _ _ (by simpa using h)
  · rfl

/-- A read after a discard: inside the range, the free value. -/
theorem Memory.read_discard_inside (m : Memory) {lo hi d x : Nat} (h : lo ≤ x ∧ x < hi) :
    (m.discard lo hi d).read x = Config.freeByte d x := by
  simp only [Memory.discard]
  rw [if_pos (by omega)]
  simp only [Memory.read]
  rw [stampAt_insertRange _ _ _ (by intro _; rw [stampAt_flatMap_without, if_pos h]), if_pos h]

/-- A write keeps the canonical form. -/
theorem Memory.wf_write {m : Memory} (hm : m.wf) (a : Nat) (b : Byte) : (m.write a b).wf := by
  obtain ⟨h1, h2, h3, h4, h5⟩ := hm
  refine ⟨setCell_sorted h1 a b, fun c hc => ?_, flatMap_without_ordered h3 (by omega), fun r hr => ?_, fun c hc r hr => ?_⟩
  · rcases mem_setCell hc with ⟨rfl, hb⟩ | hc
    · exact hb
    · exact h2 c hc
  · obtain ⟨_, _, h⟩ := mem_flatMap_without hr
    exact h.2.2.1
  · obtain ⟨q, hq, h⟩ := mem_flatMap_without hr
    rcases mem_setCell hc with ⟨rfl, _⟩ | hc
    · simp only; omega
    · have := h5 c hc q hq
      omega

/-- A discard under a fresh stamp keeps the canonical form. -/
theorem Memory.wf_discard {m : Memory} (hm : m.wf) (lo hi d : Nat) (hd : ∀ r ∈ m.discarded, r.stamp ≠ d) :
    (m.discard lo hi d).wf := by
  simp only [Memory.discard]
  split_ifs with hlt
  · obtain ⟨h1, h2, h3, h4, h5⟩ := hm
    refine ⟨h1.filter _, fun c hc => h2 c (List.mem_filter.1 hc).1, ?_, fun r hr => ?_, fun c hc r hr => ?_⟩
    · refine insertRange_ordered (flatMap_without_ordered h3 hlt) hlt (fun q hq => ?_) (fun q hq => ?_) (fun q hq => ?_)
      · obtain ⟨_, _, h⟩ := mem_flatMap_without hq; exact h.2.2.1
      · obtain ⟨_, _, h⟩ := mem_flatMap_without hq; exact h.2.2.2.2
      · obtain ⟨r, hr, h⟩ := mem_flatMap_without hq
        rw [h.2.2.2.1]; exact hd r hr
    · rcases mem_insertRange.1 hr with rfl | hr
      · exact hlt
      · obtain ⟨_, _, h⟩ := mem_flatMap_without hr; exact h.2.2.1
    · obtain ⟨hc1, hc2⟩ := List.mem_filter.1 hc
      simp only [Bool.or_eq_true, decide_eq_true_eq] at hc2
      rcases mem_insertRange.1 hr with rfl | hr
      · simp only; omega
      · obtain ⟨q, hq, h⟩ := mem_flatMap_without hr
        have := h5 c hc1 q hq
        omega
  · exact hm

/-- The stamps after a write are among those before it. -/
theorem Memory.stamps_write {m : Memory} {a : Nat} {b : Byte} {r : Discarded} (h : r ∈ (m.write a b).discarded) :
    ∃ q ∈ m.discarded, r.stamp = q.stamp := by
  obtain ⟨q, hq, h⟩ := mem_flatMap_without h
  exact ⟨q, hq, h.2.2.2.1⟩

/-- The stamps after a discard are among those before it and the new one. -/
theorem Memory.stamps_discard {m : Memory} {lo hi d : Nat} {r : Discarded} (h : r ∈ (m.discard lo hi d).discarded) :
    r.stamp = d ∨ ∃ q ∈ m.discarded, r.stamp = q.stamp := by
  simp only [Memory.discard] at h
  split_ifs at h
  · rcases mem_insertRange.1 h with rfl | h
    · left; rfl
    · obtain ⟨q, hq, h⟩ := mem_flatMap_without h
      exact .inr ⟨q, hq, h.2.2.2.1⟩
  · exact .inr ⟨r, h, rfl⟩

/-- Memory after reset is in canonical form. -/
theorem Memory.wf_reset : State.reset.mem.wf := by decide

end Sys2Proof.Machine
end

