-- ==== Sys2Proof/Laws/View.lean ====
section
/-! SUPPORT. The Buffer View primitives: for each, once, everything it can do. -/

namespace Sys2Proof.Machine

/-- `t` is `s` but for the bytes of memory; its discarded ranges are parts of those of `s`. -/
structure SameButMemory (s t : State) : Prop where
  st : t.st = s.st
  cr : t.cr = s.cr
  wr : t.wr = s.wr
  table : t.table = s.table
  turns : t.turns = s.turns
  readData : t.readData = s.readData
  draws : t.draws = s.draws
  wf : s.mem.wf → t.mem.wf
  stamps : ∀ r ∈ t.mem.discarded, ∃ q ∈ s.mem.discarded, r.stamp = q.stamp

theorem SameButMemory.refl (s : State) : SameButMemory s s :=
  ⟨rfl, rfl, rfl, rfl, rfl, rfl, rfl, id, fun r hr => ⟨r, hr, rfl⟩⟩

theorem SameButMemory.trans {s t u : State} (h : SameButMemory s t) (k : SameButMemory t u) : SameButMemory s u :=
  ⟨k.st.trans h.st, k.cr.trans h.cr, k.wr.trans h.wr, k.table.trans h.table, k.turns.trans h.turns,
    k.readData.trans h.readData, k.draws.trans h.draws, fun w => k.wf (h.wf w), fun r hr => by
      obtain ⟨q, hq, e⟩ := k.stamps r hr
      obtain ⟨p, hp, e'⟩ := h.stamps q hq
      exact ⟨p, hp, e.trans e'⟩⟩

theorem SameButMemory.setByte (s : State) (x : Space) (a : Nat) (b : Byte) : SameButMemory s (s.setByte x a b) :=
  ⟨rfl, rfl, rfl, rfl, rfl, rfl, rfl, fun h => Memory.wf_write h _ _, fun _ hr => Memory.stamps_write hr⟩

theorem SameButMemory.phys {s t : State} (h : SameButMemory s t) (x : Space) (a : Nat) : t.phys x a = s.phys x a := by
  simp only [State.phys, h.cr]

theorem SameButMemory.mapped {s t : State} (h : SameButMemory s t) (V : View) : t.mapped V = s.mapped V := by
  simp only [State.mapped, h.phys]

/-- The addresses of the view exist. -/
theorem State.mapped_iff {s : State} {V : View} : s.mapped V = true ↔ s.phys V.space V.limit ≤ 2 ^ Config.paddrBits := by
  simp only [State.mapped, decide_eq_true_eq]

/-! ### Single bytes -/

/-- `BV.read` answers the byte at a legal offset of a view whose addresses exist. -/
theorem State.bvRead_ok {s : State} {V : View} {a : Nat} (h1 : V.start ≤ a) (h2 : a < V.limit)
    (hm : s.phys V.space V.limit ≤ 2 ^ Config.paddrBits) : s.bvRead V a = .ok (s.mem.read (s.phys V.space a)) := by
  simp only [State.bvRead]
  rw [if_neg (by omega), if_pos (State.mapped_iff.2 hm)]

/-- `BV.write` stores the byte at a legal offset of a view whose addresses exist. -/
theorem State.bvWrite_ok {s : State} {V : View} {a : Nat} {b : Byte} (h1 : V.start ≤ a) (h2 : a < V.limit)
    (hm : s.phys V.space V.limit ≤ 2 ^ Config.paddrBits) : s.bvWrite V a b = .ok (s.setByte V.space a b) := by
  simp only [State.bvWrite]
  rw [if_neg (by omega), if_pos (State.mapped_iff.2 hm)]

/-- What a read that answers a byte says. -/
theorem State.bvRead_inv {s : State} {V : View} {a : Nat} {b : Byte} (h : s.bvRead V a = .ok b) :
    V.start ≤ a ∧ a < V.limit ∧ s.phys V.space V.limit ≤ 2 ^ Config.paddrBits ∧ b = s.mem.read (s.phys V.space a) := by
  simp only [State.bvRead, stopFault] at h
  split_ifs at h with h1 h2
  exact ⟨by omega, by omega, State.mapped_iff.1 h2, by simpa using h.symm⟩

/-- What a write that goes on says. -/
theorem State.bvWrite_inv {s t : State} {V : View} {a : Nat} {b : Byte} (h : s.bvWrite V a b = .ok t) :
    V.start ≤ a ∧ a < V.limit ∧ s.phys V.space V.limit ≤ 2 ^ Config.paddrBits ∧ t = s.setByte V.space a b := by
  simp only [State.bvWrite, stopFault] at h
  split_ifs at h with h1 h2
  exact ⟨by omega, by omega, State.mapped_iff.1 h2, by simpa using h.symm⟩

/-! ### Fetching -/

/-- The bytes fetched from `a` on: at most `n`, none at or past the limit. -/
theorem State.fetch_ok {s : State} {V : View} (hm : s.phys V.space V.limit ≤ 2 ^ Config.paddrBits) (n a : Nat)
    (h : V.start ≤ a) :
    s.fetch V n a = .ok ((List.range' a (min n (V.limit - a))).map fun i => s.mem.read (s.phys V.space i)) := by
  induction n generalizing a with
  | zero => simp [State.fetch]
  | succ n ih =>
    simp only [State.fetch]
    split_ifs with h1
    · rw [show V.limit - a = 0 by omega]; simp
    · rw [State.bvRead_ok h (by omega) hm, Flow.ok_bind, ih (a + 1) (by omega), Flow.ok_bind,
        show min (n + 1) (V.limit - a) = min n (V.limit - (a + 1)) + 1 by omega, List.range'_succ, List.map_cons]

/-- A fetch answers bytes or the model's own fault. -/
theorem State.fetch_error {s : State} {V : View} {n a : Nat} {e : Stop} (h : s.fetch V n a = .error e) :
    ∃ f, e = .fault f := by
  induction n generalizing a with
  | zero => simp [State.fetch] at h
  | succ n ih =>
    simp only [State.fetch] at h
    split_ifs at h
    rcases Flow.bind_eq_error h with h | ⟨b, _, h⟩
    · simp only [State.bvRead, stopFault] at h
      split_ifs at h <;> exact ⟨_, by simpa using h.symm⟩
    · rcases Flow.bind_eq_error h with h | ⟨bs, _, h⟩
      · exact ih h
      · simp at h

/-! ### Writing a list of bytes (R97) -/

/-- `BV.writeBytes` inside a view whose addresses exist goes on, with the bytes stored in order and nothing else changed. -/
theorem State.bvWriteBytes_ok {V : View} (bs : List Byte) {a : Nat} {s : State} (h1 : V.start ≤ a)
    (h2 : a + bs.length ≤ V.limit) (hm : s.phys V.space V.limit ≤ 2 ^ Config.paddrBits) :
    ∃ t, State.bvWriteBytes V bs a s = .ok t ∧ SameButMemory s t ∧
      (s.mem.wf → (∀ i (hi : i < bs.length), t.mem.read (s.phys V.space (a + i)) = bs[i]) ∧
        ∀ p, (p < s.phys V.space a ∨ s.phys V.space (a + bs.length) ≤ p) → t.mem.read p = s.mem.read p) := by
  induction bs generalizing a s with
  | nil => exact ⟨s, rfl, .refl s, fun _ => ⟨fun i hi => by simp at hi, fun p _ => rfl⟩⟩
  | cons b bs ih =>
    simp only [List.length_cons] at h2
    simp only [State.bvWriteBytes]
    rw [State.bvWrite_ok h1 (by omega) hm, Flow.ok_bind]
    obtain ⟨t, ht, hs, hr⟩ := ih (a := a + 1) (s := s.setByte V.space a b) (by omega) (by omega) (by simpa using hm)
    refine ⟨t, ht, (SameButMemory.setByte s _ _ _).trans hs, fun hw => ?_⟩
    obtain ⟨hin, hout⟩ := hr (by simpa using Memory.wf_write hw _ _)
    simp only [State.phys_setByte, State.setByte_mem] at hin hout
    refine ⟨fun i hi => ?_, fun p hp => ?_⟩
    · cases i with
      | zero =>
        rw [Nat.add_zero, hout _ (.inl ((State.phys_lt _ _).2 (by omega))), Memory.read_write_same hw]
        rfl
      | succ i =>
        have := hin i (by simpa using hi)
        rw [show a + (i + 1) = a + 1 + i by omega, this]
        rfl
    · simp only [List.length_cons, State.phys_add] at hp hout ⊢
      rw [hout p (by omega), Memory.read_write_other hw]
      omega

/-! ### Moving bytes -/

theorem State.moveBytes_same (xd xs : Space) (n d a : Nat) (s : State) : SameButMemory s (State.moveBytes xd xs n d a s) := by
  induction n generalizing d a s with
  | zero => exact .refl s
  | succ n ih => exact (SameButMemory.setByte s _ _ _).trans (ih _ _ _)

/-- Only the destination's bytes change. -/
theorem State.moveBytes_outside {xd xs : Space} {n d a : Nat} {s : State} (hw : s.mem.wf) {p : Nat}
    (hp : p < s.phys xd d ∨ s.phys xd (d + n) ≤ p) : (State.moveBytes xd xs n d a s).mem.read p = s.mem.read p := by
  induction n generalizing d a s with
  | zero => rfl
  | succ n ih =>
    simp only [State.moveBytes]
    rw [ih (Memory.wf_write hw _ _) (by simp only [State.phys_setByte, State.phys_add] at hp ⊢; omega)]
    simp only [State.setByte_mem]
    refine Memory.read_write_other hw _ ?_
    simp only [State.phys_add] at hp
    omega

/-- Where no source byte is a destination byte, the destination receives the source (R95). -/
theorem State.moveBytes_apart {xd xs : Space} {n d a : Nat} {s : State} (hw : s.mem.wf)
    (hap : ∀ i j, i < n → j < n → s.phys xs (a + i) ≠ s.phys xd (d + j)) {i : Nat} (hi : i < n) :
    (State.moveBytes xd xs n d a s).mem.read (s.phys xd (d + i)) = s.mem.read (s.phys xs (a + i)) := by
  induction n generalizing d a s i with
  | zero => omega
  | succ n ih =>
    simp only [State.moveBytes]
    have hw' := Memory.wf_write hw (s.phys xd d) (s.mem.read (s.phys xs a))
    cases i with
    | zero =>
      rw [State.moveBytes_outside (by simpa using hw') (.inl (by simp only [State.phys_setByte, State.phys_lt]; omega))]
      simp only [State.setByte_mem, Nat.add_zero]
      exact Memory.read_write_same hw _ _
    | succ i =>
      have := ih (d := d + 1) (a := a + 1) (s := s.setByte xd d (s.mem.read (s.phys xs a))) (i := i) (by simpa using hw')
        (fun i j h1 h2 => by
          have := hap (i + 1) (j + 1) (by omega) (by omega)
          simpa only [State.phys_setByte, show a + 1 + i = a + (i + 1) by omega, show d + 1 + j = d + (j + 1) by omega] using this)
        (by omega)
      simp only [State.phys_setByte, State.setByte_mem] at this
      rw [show d + (i + 1) = d + 1 + i by omega, this, show a + (i + 1) = a + 1 + i by omega]
      refine Memory.read_write_other hw _ ?_
      have := hap (i + 1) 0 (by omega) (by omega)
      rwa [Nat.add_zero, show a + (i + 1) = a + 1 + i by omega] at this

/-- A forward copy makes every destination byte equal to the byte `d - a` before it (R52). -/
theorem State.moveBytes_forward {x : Space} {n d a : Nat} {s : State} (hw : s.mem.wf) (had : a < d) {i : Nat} (hi : i < n) :
    (State.moveBytes x x n d a s).mem.read (s.phys x (d + i)) = (State.moveBytes x x n d a s).mem.read (s.phys x (a + i)) := by
  induction n generalizing d a s i with
  | zero => omega
  | succ n ih =>
    simp only [State.moveBytes]
    have hw' := Memory.wf_write hw (s.phys x d) (s.mem.read (s.phys x a))
    cases i with
    | zero =>
      rw [State.moveBytes_outside (by simpa using hw') (.inl (by simp only [State.phys_setByte, State.phys_lt]; omega)),
        State.moveBytes_outside (by simpa using hw') (.inl (by simp only [State.phys_setByte, State.phys_lt]; omega))]
      simp only [State.setByte_mem, Nat.add_zero]
      rw [Memory.read_write_same hw, Memory.read_write_other hw]
      simp only [ne_eq, State.phys_inj]; omega
    | succ i =>
      have := ih (d := d + 1) (a := a + 1) (s := s.setByte x d (s.mem.read (s.phys x a))) (i := i) (by simpa using hw')
        (by omega) (by omega)
      simp only [State.phys_setByte] at this
      rw [show d + (i + 1) = d + 1 + i by omega, this, show a + (i + 1) = a + 1 + i by omega]

/-- The result of a forward copy (R96): `OUT'[d + i] = OUT[s + (i mod (d - s))]`. -/
theorem State.moveBytes_repeat {x : Space} {n d a : Nat} {s : State} (hw : s.mem.wf) (had : a < d) {i : Nat} (hi : i < n) :
    (State.moveBytes x x n d a s).mem.read (s.phys x (d + i)) = s.mem.read (s.phys x (a + i % (d - a))) := by
  induction i using Nat.strongRecOn with
  | ind i ih =>
    rw [State.moveBytes_forward hw had hi]
    by_cases h : i < d - a
    · rw [Nat.mod_eq_of_lt h]
      exact State.moveBytes_outside hw (.inl (by simp only [State.phys_lt]; omega))
    · rw [Nat.mod_eq_sub_mod (by omega), ← ih (i - (d - a)) (by omega) (by omega),
        show d + (i - (d - a)) = a + i by omega]

/-! ### The copies -/

/-- A range that fits passes `VAL.check`. -/
theorem checkRange_ok {a n : Nat} {V : View} (h1 : V.start ≤ a) (h2 : a + n ≤ V.limit) (h3 : V.limit ≤ intMax) :
    checkRange a n V = .ok () := by
  have h : valCheck ((a : Int) - V.start) n ((V.limit : Int) - V.start) = none := by
    simp only [valCheck]
    rw [if_neg (by omega), if_neg (by omega), if_neg (by omega), if_neg (by omega), if_neg (by omega)]
  simp only [checkRange, h]

/-- `BV.copyLiteral` inside two views whose addresses exist moves the bytes. -/
theorem State.bvCopyLiteral_ok {s : State} {Vd Vs : View} {d a n : Nat} (h1 : Vs.start ≤ a) (h2 : a + n ≤ Vs.limit)
    (h3 : Vs.limit ≤ intMax) (h4 : Vd.start ≤ d) (h5 : d + n ≤ Vd.limit) (h6 : Vd.limit ≤ intMax)
    (hs : s.phys Vs.space Vs.limit ≤ 2 ^ Config.paddrBits) (hd : s.phys Vd.space Vd.limit ≤ 2 ^ Config.paddrBits) :
    s.bvCopyLiteral Vd d Vs a n = .ok (State.moveBytes Vd.space Vs.space n d a s) := by
  simp only [State.bvCopyLiteral, checkRange_ok h1 h2 h3, checkRange_ok h4 h5 h6, Flow.ok_bind]
  rw [if_pos (by rw [State.mapped_iff.2 hs, State.mapped_iff.2 hd]; rfl)]

/-- `BV.copyForward` inside a view whose addresses exist moves the bytes. -/
theorem State.bvCopyForward_ok {s : State} {V : View} {d a n : Nat} (h1 : V.start ≤ a) (h2 : a < d) (h3 : d + n ≤ V.limit)
    (h4 : V.limit ≤ intMax) (hm : s.phys V.space V.limit ≤ 2 ^ Config.paddrBits) :
    s.bvCopyForward V d a n = .ok (State.moveBytes V.space V.space n d a s) := by
  simp only [State.bvCopyForward, checkRange_ok (show V.start ≤ d by omega) h3 h4]
  rw [if_neg (by omega), if_pos (State.mapped_iff.2 hm)]
  rfl

end Sys2Proof.Machine
end

