-- ==== Sys2Proof/Laws/Decompressor.lean ====
section
/-! SUPPORT. The decompressor: what reading a tag, emitting a literal and emitting a copy can do, each once. -/

namespace Sys2Proof.Machine

/-- A state that differs in its memory alone is the old state with the new memory. -/
theorem SameButMemory.eq {s t : State} (h : SameButMemory s t) : t = { s with mem := t.mem } := by
  obtain ⟨st, cr, wr, table, mem, turns, rd, dr⟩ := t
  obtain ⟨h1, h2, h3, h4, h5, h6, h7, -, -⟩ := h
  simp only at h1 h2 h3 h4 h5 h6 h7
  subst h1 h2 h3 h4 h5 h6 h7
  rfl

/-! ### READ_TAG -/

/-- In each table of this hardware every class it has stands where `ClassName.index` says (R71, R76). -/
theorem FVT.indexOf_tables {F : FVT} (hF : F ∈ tables) (c : ClassName) : (F.indexOf c).getD (ClassName.index c) = ClassName.index c := by
  simp only [tables, List.mem_cons, List.not_mem_nil, or_false] at hF
  rcases hF with rfl | rfl <;> cases c <;> decide

theorem classIndex_eq (c : ClassName) (s : State) : classIndex c s = ClassName.index c := by
  unfold classIndex
  cases h : tables[s.cr.format.toNat]? with
  | none => rfl
  | some F => exact FVT.indexOf_tables (List.mem_of_getElem? h) c

/-- The state in which an operation of class `c` has been decoded at `ip` (R114 to R117). -/
abbrev State.decoded (s : State) (c : ClassName) (len off : Nat) : State :=
  { s with
    st := (match c.row.kind with | .literal => .emitLiteral | .copy => .emitCopy)
    wr := { s.wr with
      opc := s.wr.ip, tag := tagOf c.row len off, cls := ClassName.index c, len := len, off := off, ip := s.wr.ip + c.row.size } }

theorem readTag_ok {c : ClassName} {len off : Nat} (hl : len ≤ intMax) (ho : off ≤ intMax) (s : State) :
    readTag c len off s = .ok (s.decoded c len off) := by
  simp only [readTag, readOperation, classIndex_eq]
  rw [if_neg (by omega)]
  have e : s.wr.ip + 1 + c.row.nL + c.row.nO = s.wr.ip + c.row.size := by simp only [TagClass.size]; omega
  cases h : c.row.kind <;> simp only [State.decoded, State.fetchTag, h, e]

/-! ### EMIT_LITERAL (R118) -/

theorem emitLiteral_input {s : State} (h : s.wr.iend - s.wr.ip < s.wr.len) :
    emitLiteral s = .error (.raised (.malformed .literalExceedsInput s.opOffset) s) := by
  simp only [emitLiteral]; rw [if_pos h]; rfl

theorem emitLiteral_output {s : State} (h : s.wr.len ≤ s.wr.iend - s.wr.ip) (h' : s.wr.olimit - s.wr.op < s.wr.len) :
    emitLiteral s = .error (.raised (.malformed .outputOverrun s.opOffset) s) := by
  simp only [emitLiteral]; rw [if_neg (by omega), if_pos h']; rfl

theorem emitLiteral_ok {s : State} (h1 : s.wr.istart ≤ s.wr.ip) (h2 : s.wr.ip + s.wr.len ≤ s.wr.iend)
    (h3 : s.wr.ostart ≤ s.wr.op) (h4 : s.wr.op + s.wr.len ≤ s.wr.olimit) (h5 : s.wr.iend ≤ intMax) (h6 : s.wr.olimit ≤ intMax)
    (h7 : s.phys .input s.wr.iend ≤ 2 ^ Config.paddrBits) (h8 : s.phys .output s.wr.olimit ≤ 2 ^ Config.paddrBits) :
    emitLiteral s = .ok { s with
      st := .readTag, mem := (State.moveBytes .output .input s.wr.len s.wr.op s.wr.ip s).mem
      wr := { s.wr with ip := s.wr.ip + s.wr.len, op := s.wr.op + s.wr.len } } := by
  simp only [emitLiteral]
  rw [if_neg (by omega), if_neg (by omega)]
  have := State.bvCopyLiteral_ok (s := s) (Vd := s.vlim) (Vs := s.vin) (d := s.wr.op) (a := s.wr.ip) (n := s.wr.len)
    h1 h2 h5 h3 h4 h6 h7 h8
  have m := State.moveBytes_same .output .input s.wr.len s.wr.op s.wr.ip s
  rw [this, Flow.ok_bind]
  change Except.ok _ = Except.ok _
  simp only [State.vlim, State.vin, m.cr, m.wr, m.table, m.turns, m.readData, m.draws]

/-! ### EMIT_COPY (R119) -/

theorem emitCopy_zero {s : State} (h : s.wr.off = 0) :
    emitCopy s = .error (.raised (.malformed .offsetZero s.opOffset) s) := by
  simp only [emitCopy]; rw [if_pos h]; rfl

theorem emitCopy_beyond {s : State} (h : s.wr.off ≠ 0) (h' : s.wr.op - s.wr.ostart < s.wr.off) :
    emitCopy s = .error (.raised (.malformed .offsetBeyondWritten s.opOffset) s) := by
  simp only [emitCopy]; rw [if_neg h, if_pos h']; rfl

theorem emitCopy_output {s : State} (h : s.wr.off ≠ 0) (h' : s.wr.off ≤ s.wr.op - s.wr.ostart)
    (h'' : s.wr.olimit - s.wr.op < s.wr.len) :
    emitCopy s = .error (.raised (.malformed .outputOverrun s.opOffset) s) := by
  simp only [emitCopy]; rw [if_neg h, if_neg (by omega), if_pos h'']; rfl

theorem emitCopy_ok {s : State} (h1 : s.wr.off ≠ 0) (h2 : s.wr.off ≤ s.wr.op - s.wr.ostart)
    (h4 : s.wr.op + s.wr.len ≤ s.wr.olimit) (h6 : s.wr.olimit ≤ intMax)
    (h8 : s.phys .output s.wr.olimit ≤ 2 ^ Config.paddrBits) :
    emitCopy s = .ok { s with
      st := .readTag, mem := (State.moveBytes .output .output s.wr.len s.wr.op (s.wr.op - s.wr.off) s).mem
      wr := { s.wr with op := s.wr.op + s.wr.len } } := by
  simp only [emitCopy]
  rw [if_neg h1, if_neg (by omega), if_neg (by omega)]
  have := State.bvCopyForward_ok (s := s) (V := s.vlim) (d := s.wr.op) (a := s.wr.op - s.wr.off) (n := s.wr.len)
    (show s.wr.ostart ≤ _ by omega) (by omega) h4 h6 h8
  have m := State.moveBytes_same .output .output s.wr.len s.wr.op (s.wr.op - s.wr.off) s
  rw [this, Flow.ok_bind]
  change Except.ok _ = Except.ok _
  simp only [State.vlim, m.cr, m.wr, m.table, m.turns, m.readData, m.draws]

/-! ### Operations -/

theorem literalOp_eq {c : ClassName} {len : Nat} (hl : len ≤ intMax) (s : State) :
    literalOp c len s = emitLiteral (s.decoded c len 0) := by
  simp only [literalOp, readTag_ok hl (Nat.zero_le intMax), Flow.ok_bind]

theorem copyOp_eq {c : ClassName} {len off : Nat} (hl : len ≤ intMax) (ho : off ≤ intMax) (s : State) :
    copyOp c len off s = emitCopy (s.decoded c len off) := by
  simp only [copyOp, readTag_ok hl ho, Flow.ok_bind]

/-- The meaning of an operation of a class. -/
theorem exec_operation {i : Instr} {c : ClassName} {len off : Nat} (h : i.operands = some (c, len, off)) (s : State) :
    exec i s = finish (match c.row.kind with | .literal => literalOp c len s | .copy => copyOp c len off s) := by
  cases i <;> simp only [Instr.operands, Option.some.injEq, Prod.mk.injEq, reduceCtorEq] at h <;>
    obtain ⟨rfl, rfl, rfl⟩ := h <;> rfl

/-! ### The length of a header (R112) -/

theorem acceptLength_getulen {s : State} (h : s.cr.cmd = 3) : acceptLength s = .ok (s.complete s.wr.ulen) := by
  simp only [acceptLength]; rw [if_pos h]

theorem acceptLength_exceeds {s : State} (h : s.cr.cmd ≠ 3) (h' : s.wr.oend - s.wr.ostart < s.wr.ulen) :
    acceptLength s = .error (.raised (.capacity .declaredExceedsCapacity) s) := by
  simp only [acceptLength]; rw [if_neg h, if_pos h']; rfl

theorem acceptLength_ok {s : State} (h : s.cr.cmd ≠ 3) (h' : s.wr.ulen ≤ s.wr.oend - s.wr.ostart) :
    acceptLength s = .ok { s with wr := { s.wr with olimit := s.wr.ostart + s.wr.ulen }, st := .readTag } := by
  simp only [acceptLength]; rw [if_neg h, if_neg (by omega)]

theorem readHeader_eq {size value : Nat} (h : value ≤ intMax) (s : State) :
    readHeader size value s = acceptLength { s with wr := { s.wr with ulen := value, ip := s.wr.ip + size } } := by
  simp only [readHeader]; rw [if_neg (by omega)]

/-! ### Fetching -/

/-- The bytes of the input view from `ip` on are the byte at `ip` and the bytes after it. -/
theorem State.bytesFrom_cons {s : State} {V : View} {a : Nat} (h : a < V.limit) :
    s.bytesFrom V a = s.mem.read (s.phys V.space a) :: s.bytesFrom V (a + 1) := by
  simp only [State.bytesFrom]
  rw [show V.limit - a = (V.limit - (a + 1)) + 1 by omega, List.range'_succ]
  rfl

@[simp] theorem State.bytesFrom_length (s : State) (V : View) (a : Nat) : (s.bytesFrom V a).length = V.limit - a := by
  simp [State.bytesFrom]

theorem State.bytesFrom_getElem (s : State) (V : View) (a k : Nat) (h : k < (s.bytesFrom V a).length) :
    (s.bytesFrom V a)[k] = s.mem.read (s.phys V.space (a + k)) := by
  simp [State.bytesFrom]

theorem State.bytesFrom_drop (s : State) (V : View) (a k : Nat) : (s.bytesFrom V a).drop k = s.bytesFrom V (a + k) := by
  apply List.ext_getElem
  · simp; omega
  · intro i h1 h2
    rw [List.getElem_drop, State.bytesFrom_getElem, State.bytesFrom_getElem, Nat.add_assoc]

theorem State.fetch_eq_take {s : State} {V : View} (hm : s.phys V.space V.limit ≤ 2 ^ Config.paddrBits) (n a : Nat)
    (h : V.start ≤ a) : s.fetch V n a = .ok ((s.bytesFrom V a).take n) := by
  rw [State.fetch_ok hm n a h]
  congr 1
  apply List.ext_getElem
  · simp
  · intro i h1 h2
    simp [State.bytesFrom]

theorem fetchHeader_ok {s : State} (h : s.wr.istart ≤ s.wr.ip) (hm : s.phys .input s.wr.iend ≤ 2 ^ Config.paddrBits) :
    fetchHeader s = .ok (decodeHeader (s.bytesFrom s.vin s.wr.ip)) := by
  simp only [fetchHeader, State.fetch_eq_take (V := s.vin) hm _ _ h, Flow.ok_bind, decodeHeader, Config.varintMaxBytes,
    readVarint_take]

theorem fetchOperation_ok {F : FVT} (hF : F ∈ tables) {s : State} (h : s.wr.istart ≤ s.wr.ip)
    (hm : s.phys .input s.wr.iend ≤ 2 ^ Config.paddrBits) :
    fetchOperation F s = .ok (decodeOperation F (s.bytesFrom s.vin s.wr.ip)) := by
  simp only [fetchOperation, State.fetch_eq_take (V := s.vin) hm _ _ h, Flow.ok_bind, longestHead]
  rw [decodeOperation_take hF _ (Nat.le_refl 9)]

end Sys2Proof.Machine
end

