-- ==== Sys2Proof/Laws/Engine.lean ====
section
/-! SUPPORT. The engine's transitions: which rule each state runs, and what it fetches. -/

namespace Sys2Proof.Machine

/-- Where the engine has the turn, a step is its transition. -/
theorem step_engine {s : State} (h : s.turns = [] ∨ s.turns.head? = some .engine) :
    step s = engineStep { s with turns := s.turns.tail } := by
  obtain ⟨st, cr, wr, tb, mem, turns, rd, dr⟩ := s
  rcases h with h | h
  · simp only at h; subst h; rfl
  · cases turns with
    | nil => simp at h
    | cons x xs => simp at h; subst h; rfl

theorem step_idle_turns {s : State} (h : s.turns = []) : step s = engineStep s := by
  simp only [step, turnStep, h]

/-- A schedule of turns is consumed one turn a step. -/
theorem step_cases (s : State) :
    (s.turns = [] ∧ step s = engineStep s) ∨
    (∃ rest, s.turns = .engine :: rest ∧ step s = engineStep { s with turns := rest }) ∨
    ∃ m rest, s.turns = .host m :: rest ∧ step s = hostMove m { s with turns := rest } := by
  match h : s.turns with
  | [] => exact .inl ⟨rfl, by simp only [step, turnStep, h]⟩
  | .engine :: rest => exact .inr (.inl ⟨rest, rfl, by simp only [step, turnStep, h]⟩)
  | .host m :: rest => exact .inr (.inr ⟨m, rest, rfl, by simp only [step, turnStep, h]⟩)

theorem engineStep_argcheck {s : State} (h : s.st = .argcheck) : engineStep s = stepArgcheck s := by simp only [engineStep, h]
theorem engineStep_readHeader {s : State} (h : s.st = .readHeader) : engineStep s = stepReadHeader s := by
  simp only [engineStep, h]
theorem engineStep_readTag {s : State} (h : s.st = .readTag) : engineStep s = stepReadTag s := by simp only [engineStep, h]

/-- `READ_HEADER` under a table with a header (R112): the header decoded runs, or the engine faults. -/
theorem stepReadHeader_eq {s : State} {F : FVT} (hF : tables[s.cr.format.toNat]? = some F) (hh : F.hasHeader = true)
    (h : s.wr.istart ≤ s.wr.ip) (hm : s.phys .input s.wr.iend ≤ 2 ^ Config.paddrBits) :
    stepReadHeader s = match decodeHeader (s.bytesFrom s.vin s.wr.ip) with
      | .ok i => exec i s
      | .error e => .next (s.takeError (.malformed (headerReason e) 0)) := by
  simp only [stepReadHeader, currentTable_ok hF, hh, fetchHeader_ok h hm, if_true]
  cases decodeHeader (s.bytesFrom s.vin s.wr.ip) <;> rfl

/-- `READ_TAG` once the completion test has passed (R113 to R117): the operation decoded runs, or the engine faults. -/
theorem stepReadTag_eq {s : State} {F : FVT} (hF : tables[s.cr.format.toNat]? = some F)
    (h1 : s.wr.op ≠ s.wr.olimit) (h2 : s.wr.ip ≠ s.wr.iend)
    (h : s.wr.istart ≤ s.wr.ip) (hm : s.phys .input s.wr.iend ≤ 2 ^ Config.paddrBits) :
    stepReadTag s = match decodeOperation F (s.bytesFrom s.vin s.wr.ip) with
      | .ok i => exec i s
      | .error e => .next ((s.fetchTag (s.inByte s.wr.ip)).takeError
          (.malformed (operationReason e) (s.fetchTag (s.inByte s.wr.ip)).opOffset)) := by
  have hc : completion s = none := by simp only [completion]; rw [if_neg h1, if_neg h2]
  simp only [stepReadTag, hc, currentTable_ok hF, fetchOperation_ok (table_mem hF) h hm]
  cases decodeOperation F (s.bytesFrom s.vin s.wr.ip) <;> rfl

/-- The ends of `READ_TAG` (R113). -/
theorem stepReadTag_done {s : State} (h1 : s.wr.op = s.wr.olimit) (h2 : s.wr.ip = s.wr.iend) :
    stepReadTag s = .next (s.complete s.wr.ulen) := by
  simp only [stepReadTag, completion]; rw [if_pos h1, if_pos h2]; rfl

theorem stepReadTag_trailing {s : State} (h1 : s.wr.op = s.wr.olimit) (h2 : s.wr.ip ≠ s.wr.iend) :
    stepReadTag s = .next (s.takeError (.malformed .trailingInput (s.wr.ip - s.wr.istart))) := by
  simp only [stepReadTag, completion]; rw [if_pos h1, if_neg h2]; rfl

theorem stepReadTag_truncated {s : State} (h1 : s.wr.op ≠ s.wr.olimit) (h2 : s.wr.ip = s.wr.iend) :
    stepReadTag s = .next (s.takeError (.malformed .truncatedTag (s.wr.ip - s.wr.istart))) := by
  simp only [stepReadTag, completion]; rw [if_neg h1, if_pos h2]; rfl

end Sys2Proof.Machine
end

