-- ==== Sys2Proof/Laws/Flow.lean ====
section
/-! SUPPORT. What every flow of rules keeps, in every state: the argument registers and the schedule (R32, R170), and where each
transition can go (R18, R111). -/

namespace Sys2Proof.Machine

/-- A flow that runs to its end satisfies `P`; one that raises an error does so in a state that satisfies `Q`. -/
def Flow.Post {α : Type} (f : Flow α) (P : α → Prop) (Q : State → Prop) : Prop :=
  match f with
  | .ok a => P a
  | .error (.raised _ u) => Q u
  | .error (.fault _) => True
  | .error (.refused _) => True

namespace Flow.Post

variable {α β : Type} {P : α → Prop} {R : β → Prop} {Q : State → Prop}

theorem ok {a : α} (h : P a) : Flow.Post (.ok a) P Q := h
theorem raise {e : Error} {u : State} (h : Q u) : Flow.Post (raise e u) P Q := h
theorem fault {f : Fault} : Flow.Post (stopFault f : Flow α) P Q := trivial
theorem refused {r : Refusal} : Flow.Post (.error (.refused r) : Flow α) P Q := trivial

theorem bind {f : Flow α} {g : α → Flow β} (h : f.Post P Q) (k : ∀ a, P a → (g a).Post R Q) : (f >>= g).Post R Q := by
  match f, h with
  | .ok a, h => exact k a h
  | .error (.raised _ u), h => exact h
  | .error (.fault _), _ => trivial
  | .error (.refused _), _ => trivial

theorem imp {f : Flow α} {P' : α → Prop} {Q' : State → Prop} (h : f.Post P Q) (hp : ∀ a, P a → P' a) (hq : ∀ u, Q u → Q' u) :
    f.Post P' Q' := by
  match f, h with
  | .ok a, h => exact hp a h
  | .error (.raised _ u), h => exact hq u h
  | .error (.fault _), _ => trivial
  | .error (.refused _), _ => trivial

/-- A flow that has stopped stops what would follow it. -/
theorem error {f : Flow α} {e : Stop} (h : f.Post P Q) (he : f = .error e) :
    Flow.Post (.error e : Flow β) R Q := by
  subst he
  match e, h with
  | .raised _ _, h => exact h
  | .fault _, _ => trivial
  | .refused _, _ => trivial

end Flow.Post

/-- What a step answers after a flow. -/
theorem finish_post {f : Flow State} {P Q : State → Prop} (h : f.Post P Q) {t : State} (ht : finish f = .next t) :
    P t ∨ ∃ e u, Q u ∧ t = u.takeError e := by
  match f, h with
  | .ok a, h => simp only [finish_ok, Host.Outcome.next.injEq] at ht; exact .inl (ht ▸ h)
  | .error (.raised e u), h => simp only [finish_raised, Host.Outcome.next.injEq] at ht; exact .inr ⟨e, u, h, ht.symm⟩
  | .error (.fault _), _ => simp at ht
  | .error (.refused _), _ => simp at ht

/-- The control registers the engine never writes, the others at 0. -/
def Control.arguments (c : Control) : Control := { c with result := 0, errKind := 0, errReason := 0, errOffset := 0 }

/-- `t` has the argument registers and the schedule of `s`. -/
structure Kept (s t : State) : Prop where
  arguments : t.cr.arguments = s.cr.arguments
  turns : t.turns = s.turns

theorem Kept.refl (s : State) : Kept s s := ⟨rfl, rfl⟩
theorem Kept.trans {s t u : State} (h : Kept s t) (k : Kept t u) : Kept s u :=
  ⟨k.arguments.trans h.arguments, k.turns.trans h.turns⟩
theorem Kept.takeError {s t : State} (h : Kept s t) (e : Error) : Kept s (t.takeError e) :=
  ⟨by rw [← h.arguments, State.takeError_cr]; rfl, by rw [State.takeError_turns, h.turns]⟩
theorem SameButMemory.kept {s t : State} (h : SameButMemory s t) : Kept s t := ⟨by rw [h.cr], h.turns⟩

/-- The argument registers one by one. -/
theorem Kept.readReg {s t : State} (h : Kept s t) {r : CReg}
    (hr : r ∉ [CReg.status, .result, .errKind, .errReason, .errOffset]) : t.readReg r = s.readReg r := by
  have e := h.arguments
  simp only [Control.arguments, Control.mk.injEq] at e
  cases r <;> simp only [List.mem_cons, reduceCtorEq, List.not_mem_nil, or_self, or_false, or_true, not_true_eq_false] at hr <;>
    simp only [State.readReg, e]

theorem Kept.cmd {s t : State} (h : Kept s t) : t.cr.cmd = s.cr.cmd := h.readReg (r := .cmd) (by decide)

/-! ### Memory -/

theorem bvWrite_post (s : State) (V : View) (a : Nat) (b : Byte) : (s.bvWrite V a b).Post (SameButMemory s) fun _ => False := by
  simp only [State.bvWrite]
  split_ifs
  · trivial
  · exact SameButMemory.setByte s _ _ _
  · trivial

theorem bvWriteBytes_post (V : View) (bs : List Byte) (a : Nat) (s : State) :
    (State.bvWriteBytes V bs a s).Post (SameButMemory s) fun _ => False := by
  induction bs generalizing a s with
  | nil => exact SameButMemory.refl s
  | cons b bs ih => exact (bvWrite_post s V a b).bind fun t ht => (ih (a + 1) t).imp (fun _ h => ht.trans h) fun _ h => h

theorem checkRange_post (a n : Nat) (V : View) : (checkRange a n V).Post (fun _ => True) fun _ => False := by
  simp only [checkRange]; split <;> trivial

theorem bvCopyLiteral_post (s : State) (Vd : View) (d : Nat) (Vs : View) (a n : Nat) :
    (s.bvCopyLiteral Vd d Vs a n).Post (SameButMemory s) fun _ => False := by
  refine (checkRange_post _ _ _).bind fun _ _ => (checkRange_post _ _ _).bind fun _ _ => ?_
  split_ifs
  · exact State.moveBytes_same _ _ _ _ _ _
  · trivial

theorem bvCopyForward_post (s : State) (V : View) (d a n : Nat) :
    (s.bvCopyForward V d a n).Post (SameButMemory s) fun _ => False := by
  simp only [State.bvCopyForward]
  split_ifs
  · trivial
  · trivial
  · exact (checkRange_post _ _ _).bind fun _ _ => .ok (State.moveBytes_same _ _ _ _ _ _)
  · exact (checkRange_post _ _ _).bind fun _ _ => .fault

/-! ### DEC -/

theorem acceptLength_post (s : State) :
    (acceptLength s).Post (fun t => Kept s t ∧ (t.st = .done ∨ t.st = .readTag)) (Kept s) := by
  simp only [acceptLength]
  split_ifs
  · exact ⟨⟨rfl, rfl⟩, .inl rfl⟩
  · exact Kept.refl s
  · exact ⟨⟨rfl, rfl⟩, .inr rfl⟩

theorem readHeader_post (size value : Nat) (s : State) :
    (readHeader size value s).Post (fun t => Kept s t ∧ (t.st = .done ∨ t.st = .readTag)) (Kept s) := by
  simp only [readHeader]
  split_ifs
  · exact Kept.refl s
  · exact (acceptLength_post _).imp (fun _ h => ⟨⟨h.1.arguments, h.1.turns⟩, h.2⟩) fun _ h => ⟨h.arguments, h.turns⟩

theorem readTag_post (c : ClassName) (len off : Nat) (s : State) : (readTag c len off s).Post (Kept s) (Kept s) := by
  simp only [readTag, readOperation]
  split_ifs
  · exact ⟨rfl, rfl⟩
  · cases c.row.kind <;> exact ⟨rfl, rfl⟩

theorem emitLiteral_post (s : State) : (emitLiteral s).Post (fun t => Kept s t ∧ t.st = .readTag) (Kept s) := by
  simp only [emitLiteral]
  split_ifs
  iterate 3 exact Kept.refl s
  exact ((bvCopyLiteral_post s _ _ _ _ _).imp (fun _ h => h) (fun _ h => h.elim)).bind
    fun t ht => ⟨⟨ht.kept.arguments, ht.kept.turns⟩, rfl⟩

theorem emitCopy_post (s : State) : (emitCopy s).Post (fun t => Kept s t ∧ t.st = .readTag) (Kept s) := by
  simp only [emitCopy]
  split_ifs
  iterate 7 exact Kept.refl s
  exact ((bvCopyForward_post s _ _ _ _).imp (fun _ h => h) (fun _ h => h.elim)).bind
    fun t ht => ⟨⟨ht.kept.arguments, ht.kept.turns⟩, rfl⟩

theorem literalOp_post (c : ClassName) (len : Nat) (s : State) :
    (literalOp c len s).Post (fun t => Kept s t ∧ t.st = .readTag) (Kept s) :=
  (readTag_post c len 0 s).bind fun t ht => (emitLiteral_post t).imp (fun _ h => ⟨ht.trans h.1, h.2⟩) fun _ h => ht.trans h

theorem copyOp_post (c : ClassName) (len off : Nat) (s : State) :
    (copyOp c len off s).Post (fun t => Kept s t ∧ t.st = .readTag) (Kept s) :=
  (readTag_post c len off s).bind fun t ht => (emitCopy_post t).imp (fun _ h => ⟨ht.trans h.1, h.2⟩) fun _ h => ht.trans h

/-! ### CMP -/

theorem reserve_post (k : Nat) (s : State) : (reserve k s).Post (fun _ => True) (Kept s) := by
  simp only [reserve]
  split_ifs
  · exact Kept.refl s
  · trivial

theorem emitBytes_post (bs : List Byte) (s : State) : (emitBytes bs s).Post (Kept s) (Kept s) :=
  ((bvWriteBytes_post _ bs _ s).imp (fun _ h => h) fun _ h => h.elim).bind fun _ h => ⟨h.kept.arguments, h.kept.turns⟩

theorem literalPiece_post (F : FVT) (a L : Nat) (s : State) : (literalPiece F a L s).Post (Kept s) (Kept s) := by
  simp only [literalPiece]
  split
  · trivial
  · refine (reserve_post _ s).bind fun _ _ => (emitBytes_post _ s).bind fun t ht => ?_
    exact ((bvCopyLiteral_post t _ _ _ _ _).imp (fun _ h => h) (fun _ h => h.elim)).bind
      fun u hu => ht.trans ⟨hu.kept.arguments, hu.kept.turns⟩

theorem literalRun_post (F : FVT) (b fuel a : Nat) (s : State) : (literalRun F b fuel a s).Post (Kept s) (Kept s) := by
  induction fuel generalizing a s with
  | zero => exact Kept.refl s
  | succ n ih =>
    simp only [literalRun]
    split_ifs
    · exact (literalPiece_post F a _ s).bind fun t ht => (ih _ t).imp (fun _ h => ht.trans h) fun _ h => ht.trans h
    · exact Kept.refl s

theorem copyEmission_post (F : FVT) (len off : Nat) (s : State) : (copyEmission F len off s).Post (Kept s) (Kept s) := by
  simp only [copyEmission]
  split
  · trivial
  · exact (reserve_post _ s).bind fun _ _ => emitBytes_post _ s

theorem emitHeader_post (F : FVT) (s : State) : (emitHeader F s).Post (Kept s) (Kept s) := by
  simp only [emitHeader]
  split_ifs
  · exact (reserve_post _ s).bind fun _ _ => emitBytes_post _ s
  · exact Kept.refl s

theorem cHeader_post (F : FVT) (tsz : Nat → Nat) (s : State) :
    (cHeader F tsz s).Post (fun t => Kept s t ∧ t.st = .cScan) (Kept s) :=
  (emitHeader_post F s).bind fun _ ht => ⟨⟨ht.arguments, ht.turns⟩, rfl⟩

theorem fetch_post (s : State) (V : View) (n a : Nat) : (s.fetch V n a).Post (fun _ => True) fun _ => False := by
  match h : s.fetch V n a with
  | .ok _ => trivial
  | .error e =>
    obtain ⟨f, rfl⟩ := State.fetch_error h
    trivial

theorem cScan_post (F : FVT) (h : List Byte → Nat → Nat) (s : State) :
    (cScan F h s).Post (fun t => Kept s t ∧ (t.st = s.st ∨ t.st = .cEmit ∨ t.st = .cTail)) fun _ => False := by
  simp only [cScan]
  split_ifs
  · exact ⟨⟨rfl, rfl⟩, .inr (.inr rfl)⟩
  · refine (fetch_post s _ _ _).bind fun w _ => ?_
    split
    · exact ⟨⟨rfl, rfl⟩, .inl rfl⟩
    · exact ⟨⟨rfl, rfl⟩, .inr (.inl rfl)⟩

theorem cEmit_post (F : FVT) (s : State) : (cEmit F s).Post (fun t => Kept s t ∧ t.st = .cScan) (Kept s) :=
  (literalRun_post F _ _ _ s).bind fun t ht =>
    ((copyEmission_post F _ _ t).imp (fun _ h => ht.trans h) fun _ h => ht.trans h).bind
      fun _ hu => ⟨⟨hu.arguments, hu.turns⟩, rfl⟩

theorem cTail_post (F : FVT) (s : State) : (cTail F s).Post (fun t => Kept s t ∧ t.st = .done) (Kept s) :=
  (literalRun_post F _ _ _ s).bind fun _ ht => ⟨⟨ht.arguments, ht.turns⟩, rfl⟩

/-! ### The transitions -/

theorem currentTable_post (s : State) : (currentTable s).Post (fun _ => True) fun _ => False := by
  simp only [currentTable]; split <;> trivial

theorem withTable_post {f : FVT → State → Flow State} {s : State} {P : State → Prop}
    (h : ∀ F, (f F s).Post P (Kept s)) {t : State} (ht : withTable f s = .next t) :
    P t ∨ ∃ e u, Kept s u ∧ t = u.takeError e :=
  finish_post (((currentTable_post s).imp (fun _ h => h) fun _ h => h.elim).bind fun F _ => h F) ht

theorem fetchHeader_post (s : State) :
    (fetchHeader s).Post (fun r => ∀ i, r = .ok i → ∃ size value, i = .hdr size value) fun _ => False := by
  refine (fetch_post s _ _ _).bind fun bs _ => ?_
  intro i hi
  simp only [decodeHeader] at hi
  split at hi
  · simp at hi
  · simp only [Except.ok.injEq] at hi; exact ⟨_, _, hi.symm⟩

/-- What an operation that decodes is: a reserved tag or an operation of a class. -/
theorem decodeOperation_shape {F : FVT} {bs : List Byte} {i : Instr} (h : decodeOperation F bs = .ok i) :
    (∃ t, i = .reservedFvt1 t) ∨ ∃ c len off, i.operands = some (c, len, off) := by
  simp only [decodeOperation] at h
  split at h
  · simp at h
  · simp only [Except.ok.injEq] at h; exact .inl ⟨_, h.symm⟩
  · rename_i c len off _
    simp only [TagClass.instr] at h
    split at h
    · rename_i n _
      simp only [Except.ok.injEq] at h
      subst h
      cases n <;> exact .inr ⟨_, _, _, rfl⟩
    · simp at h

theorem fetchOperation_post (F : FVT) (s : State) :
    (fetchOperation F s).Post (fun r => ∀ i, r = .ok i →
      (∃ t, i = .reservedFvt1 t) ∨ ∃ c len off, i.operands = some (c, len, off)) fun _ => False :=
  (fetch_post s _ _ _).bind fun _ _ => fun _ hi => decodeOperation_shape hi

/-- `READ_HEADER`, in every state. -/
theorem stepReadHeader_kept {s t : State} (h : stepReadHeader s = .next t) :
    Kept s t ∧ (t.st = .readTag ∨ t.st = .done ∨ t.st = .fault) := by
  have fin : ∀ f : Flow State, f.Post (fun t => Kept s t ∧ (t.st = .done ∨ t.st = .readTag)) (Kept s) → finish f = .next t →
      Kept s t ∧ (t.st = .readTag ∨ t.st = .done ∨ t.st = .fault) := by
    intro f hf ht
    rcases finish_post hf ht with ⟨h1, h2⟩ | ⟨e, u, h1, rfl⟩
    · exact ⟨h1, h2.elim (fun h => .inr (.inl h)) .inl⟩
    · exact ⟨h1.takeError e, .inr (.inr (State.takeError_st _ _))⟩
  simp only [stepReadHeader] at h
  split at h
  · rename_i e he
    exact fin _ (Flow.Post.error ((currentTable_post s).imp (fun _ h => h) fun _ h => h.elim) he) h
  · split_ifs at h
    · split at h
      · rename_i e he
        exact fin _ (Flow.Post.error ((fetchHeader_post s).imp (fun _ h => h) fun _ h => h.elim) he) h
      · rename_i i hi
        have := fetchHeader_post s
        rw [hi] at this
        obtain ⟨size, value, rfl⟩ := this i rfl
        exact fin _ (readHeader_post size value s) h
      · exact fin _ (Flow.Post.raise (Kept.refl s)) h
    · exact fin (readOutOfBand s)
        ((acceptLength_post _).imp (fun _ h => ⟨⟨h.1.arguments, h.1.turns⟩, h.2⟩) fun _ h => ⟨h.arguments, h.turns⟩) h

/-- `READ_TAG` and the operation it decodes, in every state. -/
theorem stepReadTag_kept {s t : State} (h : stepReadTag s = .next t) :
    Kept s t ∧ (t.st = .readTag ∨ t.st = .done ∨ t.st = .fault) := by
  have fin : ∀ f : Flow State, f.Post (fun t => Kept s t ∧ (t.st = .readTag ∨ t.st = .done)) (Kept s) → finish f = .next t →
      Kept s t ∧ (t.st = .readTag ∨ t.st = .done ∨ t.st = .fault) := by
    intro f hf ht
    rcases finish_post hf ht with ⟨h1, h2⟩ | ⟨e, u, h1, rfl⟩
    · exact ⟨h1, h2.elim .inl (fun h => .inr (.inl h))⟩
    · exact ⟨h1.takeError e, .inr (.inr (State.takeError_st _ _))⟩
  simp only [stepReadTag] at h
  split at h
  · rename_i r hr
    refine fin _ ?_ h
    simp only [completion] at hr
    split_ifs at hr <;> simp only [Option.some.injEq] at hr <;> subst hr
    · exact ⟨⟨rfl, rfl⟩, .inr rfl⟩
    · exact Kept.refl s
    · exact Kept.refl s
  · split at h
    · rename_i e he
      exact fin _ (Flow.Post.error ((currentTable_post s).imp (fun _ h => h) fun _ h => h.elim) he) h
    · rename_i F hF
      split at h
      · rename_i e he
        exact fin _ (Flow.Post.error ((fetchOperation_post F s).imp (fun _ h => h) fun _ h => h.elim) he) h
      · rename_i i hi
        have := fetchOperation_post F s
        rw [hi] at this
        rcases this i rfl with ⟨tag, rfl⟩ | ⟨c, len, off, ho⟩
        · exact fin (raise _ (s.fetchTag tag)) (Flow.Post.raise ⟨rfl, rfl⟩) h
        · rw [exec_operation ho] at h
          refine fin _ ?_ h
          cases c.row.kind
          · exact (literalOp_post c len s).imp (fun _ h => ⟨h.1, .inl h.2⟩) fun _ h => h
          · exact (copyOp_post c len off s).imp (fun _ h => ⟨h.1, .inl h.2⟩) fun _ h => h
      · exact fin (raise _ (s.fetchTag (s.inByte s.wr.ip))) (Flow.Post.raise ⟨rfl, rfl⟩) h

/-- `ARGCHECK`: a command completes its entry, takes an error, or is refused (R171 to R179). -/
theorem stepArgcheck_cases (s : State) :
    (s.cr.cmd = 1 ∧ 0 ≤ sext s.cr.arg ∧ sext s.cr.arg ≤ 1840700242 ∧
      stepArgcheck s = .next (s.complete (mcl (sext s.cr.arg).toNat))) ∨
    (s.cr.cmd = 2 ∧ argCompress s = .ok s.compressEntered ∧ stepArgcheck s = .next s.compressEntered) ∨
    (s.cr.cmd = 3 ∧ argGetulen s = .ok s.getulenEntered ∧ stepArgcheck s = .next s.getulenEntered) ∨
    (s.cr.cmd = 4 ∧ argDecompress s = .ok s.decompressEntered ∧ stepArgcheck s = .next s.decompressEntered) ∨
    (∃ e, stepArgcheck s = .next (s.takeError e)) ∨ stepArgcheck s = .refused .viewsOverlap := by
  have hc : s.cr.cmd = BitVec.ofNat 32 s.cr.cmd.toNat := by simp
  by_cases h1 : s.cr.cmd.toNat = 1
  · have e : stepArgcheck s = finish (argMaxlen s) := by simp only [stepArgcheck, decodeCommand, h1, exec, execMaxlen]
    rw [h1] at hc
    rcases argMaxlen_cases s with ⟨h, h', h''⟩ | ⟨r, h⟩ <;> rw [e, h]
    · exact .inl ⟨hc, h', h'', rfl⟩
    · exact .inr (.inr (.inr (.inr (.inl ⟨r, rfl⟩))))
  by_cases h2 : s.cr.cmd.toNat = 2
  · have e : stepArgcheck s = finish (argCompress s) := by simp only [stepArgcheck, decodeCommand, h2, exec, execCompress]
    rw [h2] at hc
    rcases argCompress_cases s with ⟨h, -⟩ | ⟨r, h⟩ | h <;> rw [e, h]
    · exact .inr (.inl ⟨hc, rfl, rfl⟩)
    · exact .inr (.inr (.inr (.inr (.inl ⟨r, rfl⟩))))
    · exact .inr (.inr (.inr (.inr (.inr rfl))))
  by_cases h3 : s.cr.cmd.toNat = 3
  · have e : stepArgcheck s = finish (argGetulen s) := by simp only [stepArgcheck, decodeCommand, h3, exec, execGetulen]
    rw [h3] at hc
    rcases argGetulen_cases s with ⟨h, -⟩ | ⟨r, h⟩ <;> rw [e, h]
    · exact .inr (.inr (.inl ⟨hc, rfl, rfl⟩))
    · exact .inr (.inr (.inr (.inr (.inl ⟨r, rfl⟩))))
  by_cases h4 : s.cr.cmd.toNat = 4
  · have e : stepArgcheck s = finish (argDecompress s) := by
      simp only [stepArgcheck, decodeCommand, h4, exec, execDecompress]
    rw [h4] at hc
    rcases argDecompress_cases s with ⟨h, -⟩ | ⟨r, h⟩ | h <;> rw [e, h]
    · exact .inr (.inr (.inr (.inl ⟨hc, rfl, rfl⟩)))
    · exact .inr (.inr (.inr (.inr (.inl ⟨r, rfl⟩))))
    · exact .inr (.inr (.inr (.inr (.inr rfl))))
  · refine .inr (.inr (.inr (.inr (.inl ⟨.invalidArgument .badCommand, ?_⟩))))
    simp only [stepArgcheck, decodeCommand]
    rfl

end Sys2Proof.Machine
end

