-- ==== Sys2Proof/Laws/Tables.lean ====
section
/-! SUPPORT. The two tables: what each class represents and which class an encoder chooses (R75 to R79). -/

namespace Sys2Proof

/-! ### What a class represents -/

theorem represents_iff (c : TagClass) (len off : Nat) : c.represents len off = true ↔
    c.lenBias ≤ len ∧ len ≤ c.maxLen ∧ (c.kind = .copy → off ≤ c.maxOff) := by
  simp only [TagClass.represents, Bool.and_eq_true, decide_eq_true_eq, and_assoc]
  cases c.kind <;> simp

theorem litI_maxLen : ClassName.litI.row.maxLen = 60 := by decide
theorem litT1_maxLen : ClassName.litT1.row.maxLen = 256 := by decide
theorem litT2_maxLen : ClassName.litT2.row.maxLen = 65536 := by decide
theorem litT3_maxLen : ClassName.litT3.row.maxLen = 16777216 := by decide
theorem litT4_maxLen : ClassName.litT4.row.maxLen = intMax := by decide
theorem copy1_maxLen : ClassName.copy1.row.maxLen = 11 := by decide
theorem copy2_maxLen : ClassName.copy2.row.maxLen = 64 := by decide
theorem copy4_maxLen : ClassName.copy4.row.maxLen = 64 := by decide
theorem copyX_maxLen : ClassName.copyX.row.maxLen = intMax := by decide
theorem copy1_maxOff : ClassName.copy1.row.maxOff = 2047 := by decide
theorem copy2_maxOff : ClassName.copy2.row.maxOff = 65535 := by decide
theorem copy4_maxOff : ClassName.copy4.row.maxOff = intMax := by decide
theorem copyX_maxOff : ClassName.copyX.row.maxOff = 65535 := by decide

theorem represents_litI (len off : Nat) : ClassName.litI.row.represents len off = decide (1 ≤ len ∧ len ≤ 60) := by
  rw [Bool.eq_iff_iff, represents_iff, litI_maxLen, decide_eq_true_eq]; simp [ClassName.row]
theorem represents_litT1 (len off : Nat) : ClassName.litT1.row.represents len off = decide (1 ≤ len ∧ len ≤ 256) := by
  rw [Bool.eq_iff_iff, represents_iff, litT1_maxLen, decide_eq_true_eq]; simp [ClassName.row, literalTrailerClass]
theorem represents_litT2 (len off : Nat) : ClassName.litT2.row.represents len off = decide (1 ≤ len ∧ len ≤ 65536) := by
  rw [Bool.eq_iff_iff, represents_iff, litT2_maxLen, decide_eq_true_eq]; simp [ClassName.row, literalTrailerClass]
theorem represents_litT3 (len off : Nat) : ClassName.litT3.row.represents len off = decide (1 ≤ len ∧ len ≤ 16777216) := by
  rw [Bool.eq_iff_iff, represents_iff, litT3_maxLen, decide_eq_true_eq]; simp [ClassName.row, literalTrailerClass]
theorem represents_litT4 (len off : Nat) : ClassName.litT4.row.represents len off = decide (1 ≤ len ∧ len ≤ intMax) := by
  rw [Bool.eq_iff_iff, represents_iff, litT4_maxLen, decide_eq_true_eq]; simp [ClassName.row, literalTrailerClass]
theorem represents_copy1 (len off : Nat) :
    ClassName.copy1.row.represents len off = decide (4 ≤ len ∧ len ≤ 11 ∧ off ≤ 2047) := by
  rw [Bool.eq_iff_iff, represents_iff, copy1_maxLen, copy1_maxOff, decide_eq_true_eq]; simp [ClassName.row]
theorem represents_copy2 (len off : Nat) :
    ClassName.copy2.row.represents len off = decide (1 ≤ len ∧ len ≤ 64 ∧ off ≤ 65535) := by
  rw [Bool.eq_iff_iff, represents_iff, copy2_maxLen, copy2_maxOff, decide_eq_true_eq]; simp [ClassName.row]
theorem represents_copy4 (len off : Nat) :
    ClassName.copy4.row.represents len off = decide (1 ≤ len ∧ len ≤ 64 ∧ off ≤ intMax) := by
  rw [Bool.eq_iff_iff, represents_iff, copy4_maxLen, copy4_maxOff, decide_eq_true_eq]; simp [ClassName.row]
theorem represents_copyX (len off : Nat) :
    ClassName.copyX.row.represents len off = decide (1 ≤ len ∧ len ≤ intMax ∧ off ≤ 65535) := by
  rw [Bool.eq_iff_iff, represents_iff, copyX_maxLen, copyX_maxOff, decide_eq_true_eq]; simp [ClassName.row]

/-! ### The class an encoder chooses (R79) -/

/-- The literal class of both tables: the first of those that represent the length, in table order. -/
theorem choose_literal_eq {F : FVT} (hF : F ∈ tables) (len off : Nat) : F.choose .literal len off =
    if ClassName.litI.row.represents len off then some ClassName.litI.row
    else if ClassName.litT1.row.represents len off then some ClassName.litT1.row
    else if ClassName.litT2.row.represents len off then some ClassName.litT2.row
    else if ClassName.litT3.row.represents len off then some ClassName.litT3.row
    else if ClassName.litT4.row.represents len off then some ClassName.litT4.row else none := by
  simp only [tables, List.mem_cons, List.not_mem_nil, or_false] at hF
  rcases hF with rfl | rfl <;>
    simp only [FVT.choose, fvt0, fvt1, List.filter_cons, List.filter_nil,
      show (ClassName.litI.row.kind == OpKind.literal) = true from rfl,
      show (ClassName.litT1.row.kind == OpKind.literal) = true from rfl,
      show (ClassName.litT2.row.kind == OpKind.literal) = true from rfl,
      show (ClassName.litT3.row.kind == OpKind.literal) = true from rfl,
      show (ClassName.litT4.row.kind == OpKind.literal) = true from rfl,
      show (ClassName.copy1.row.kind == OpKind.literal) = false from rfl,
      show (ClassName.copy2.row.kind == OpKind.literal) = false from rfl,
      show (ClassName.copy4.row.kind == OpKind.literal) = false from rfl,
      show (ClassName.copyX.row.kind == OpKind.literal) = false from rfl, Bool.true_and, Bool.false_and] <;>
    cases ClassName.litI.row.represents len off <;> cases ClassName.litT1.row.represents len off <;>
    cases ClassName.litT2.row.represents len off <;> cases ClassName.litT3.row.represents len off <;>
    cases ClassName.litT4.row.represents len off <;> rfl

/-- The copy class of FVT0. -/
theorem choose_copy_fvt0 (len off : Nat) : fvt0.choose .copy len off =
    if ClassName.copy1.row.represents len off then some ClassName.copy1.row
    else if ClassName.copy2.row.represents len off then some ClassName.copy2.row
    else if ClassName.copy4.row.represents len off then some ClassName.copy4.row else none := by
  simp only [FVT.choose, fvt0, List.filter_cons, List.filter_nil,
      show (ClassName.litI.row.kind == OpKind.copy) = false from rfl,
      show (ClassName.litT1.row.kind == OpKind.copy) = false from rfl,
      show (ClassName.litT2.row.kind == OpKind.copy) = false from rfl,
      show (ClassName.litT3.row.kind == OpKind.copy) = false from rfl,
      show (ClassName.litT4.row.kind == OpKind.copy) = false from rfl,
      show (ClassName.copy1.row.kind == OpKind.copy) = true from rfl,
      show (ClassName.copy2.row.kind == OpKind.copy) = true from rfl,
      show (ClassName.copy4.row.kind == OpKind.copy) = true from rfl, Bool.true_and, Bool.false_and, Bool.false_eq_true,
      if_false]
  cases ClassName.copy1.row.represents len off <;> cases ClassName.copy2.row.represents len off <;>
    cases ClassName.copy4.row.represents len off <;> rfl

/-- The copy class of FVT1. -/
theorem choose_copy_fvt1 (len off : Nat) : fvt1.choose .copy len off =
    if ClassName.copy1.row.represents len off then some ClassName.copy1.row
    else if ClassName.copy2.row.represents len off then some ClassName.copy2.row
    else if ClassName.copyX.row.represents len off then some ClassName.copyX.row else none := by
  simp only [FVT.choose, fvt1, List.filter_cons, List.filter_nil,
      show (ClassName.litI.row.kind == OpKind.copy) = false from rfl,
      show (ClassName.litT1.row.kind == OpKind.copy) = false from rfl,
      show (ClassName.litT2.row.kind == OpKind.copy) = false from rfl,
      show (ClassName.litT3.row.kind == OpKind.copy) = false from rfl,
      show (ClassName.litT4.row.kind == OpKind.copy) = false from rfl,
      show (ClassName.copy1.row.kind == OpKind.copy) = true from rfl,
      show (ClassName.copy2.row.kind == OpKind.copy) = true from rfl,
      show (ClassName.copyX.row.kind == OpKind.copy) = true from rfl, Bool.true_and, Bool.false_and, Bool.false_eq_true,
      if_false]
  cases ClassName.copy1.row.represents len off <;> cases ClassName.copy2.row.represents len off <;>
    cases ClassName.copyX.row.represents len off <;> rfl

/-- What a chosen class is: a class of the table, of the kind, that represents the operands. -/
theorem pickShortest_mem {cs : List TagClass} {c : TagClass} (h : pickShortest cs = some c) : c ∈ cs := by
  induction cs generalizing c with
  | nil => simp [pickShortest] at h
  | cons d cs ih =>
    simp only [pickShortest] at h
    match hp : pickShortest cs with
    | none => simp only [hp, Option.some.injEq] at h; exact h ▸ List.mem_cons_self
    | some e =>
      simp only [hp] at h
      split_ifs at h <;> simp only [Option.some.injEq] at h <;> subst h
      · exact List.mem_cons_self
      · exact List.mem_cons_of_mem _ (ih hp)

theorem choose_mem {F : FVT} {k : OpKind} {len off : Nat} {c : TagClass} (h : F.choose k len off = some c) :
    c ∈ F.classes ∧ c.kind = k ∧ c.represents len off = true := by
  have := pickShortest_mem h
  simp only [List.mem_filter, Bool.and_eq_true, beq_iff_eq] at this
  exact ⟨this.1, this.2.1, this.2.2⟩

/-! ### The largest lengths -/

@[simp] theorem maxLen_literal {F : FVT} (hF : F ∈ tables) : F.maxLen .literal = intMax := by
  simp only [tables, List.mem_cons, List.not_mem_nil, or_false] at hF
  rcases hF with rfl | rfl <;> decide

theorem fvt0_maxLen_copy : fvt0.maxLen .copy = 64 := by decide
theorem fvt1_maxLen_copy : fvt1.maxLen .copy = intMax := by decide

/-- The constants of both tables. -/
theorem table_constants {F : FVT} (hF : F ∈ tables) : F.hasHeader = true ∧ F.minMatch = 4 ∧ F.maxOffset = 65535 ∧
    4 ≤ F.maxLen .copy ∧ F.maxLen .copy ≤ intMax := by
  simp only [tables, List.mem_cons, List.not_mem_nil, or_false] at hF
  rcases hF with rfl | rfl <;> decide

/-- A literal of every length has a class (R77 (10)). -/
theorem choose_literal_some {F : FVT} (hF : F ∈ tables) {len : Nat} (h1 : 1 ≤ len) (h2 : len ≤ intMax) :
    ∃ n : ClassName, F.choose .literal len 0 = some n.row ∧ n.row ∈ F.classes ∧ n.row.kind = .literal ∧ n.carries len 0 := by
  have : ∃ c, F.choose .literal len 0 = some c := by
    rw [choose_literal_eq hF, represents_litI, represents_litT1, represents_litT2, represents_litT3, represents_litT4]
    simp only [decide_eq_true_eq]
    split_ifs <;> first | exact ⟨_, rfl⟩ | omega
  obtain ⟨c, hc⟩ := this
  obtain ⟨m1, m2, m3⟩ := choose_mem hc
  obtain ⟨n, rfl⟩ := mem_classes hF m1
  obtain ⟨r1, r2, -⟩ := (represents_iff _ _ _).1 m3
  exact ⟨n, hc, m1, m2, r1, r2, fun _ => rfl, fun _ => Nat.zero_le _⟩

/-- A copy that the compressor emits has a class (R77 (11)). -/
theorem choose_copy_some {F : FVT} (hF : F ∈ tables) {len off : Nat} (h1 : 4 ≤ len) (h2 : len ≤ F.maxLen .copy)
    (h3 : off ≤ 65535) :
    ∃ n : ClassName, F.choose .copy len off = some n.row ∧ n.row ∈ F.classes ∧ n.row.kind = .copy ∧ n.carries len off := by
  have : ∃ c, F.choose .copy len off = some c := by
    have hF' := hF
    simp only [tables, List.mem_cons, List.not_mem_nil, or_false] at hF'
    rcases hF' with rfl | rfl
    · rw [fvt0_maxLen_copy] at h2
      rw [choose_copy_fvt0, represents_copy1, represents_copy2, represents_copy4]
      simp only [decide_eq_true_eq]
      split_ifs <;> first | exact ⟨_, rfl⟩ | omega
    · rw [fvt1_maxLen_copy] at h2
      rw [choose_copy_fvt1, represents_copy1, represents_copy2, represents_copyX]
      simp only [decide_eq_true_eq]
      split_ifs <;> first | exact ⟨_, rfl⟩ | omega
  obtain ⟨c, hc⟩ := this
  obtain ⟨m1, m2, m3⟩ := choose_mem hc
  obtain ⟨n, rfl⟩ := mem_classes hF m1
  obtain ⟨r1, r2, r3⟩ := (represents_iff _ _ _).1 m3
  exact ⟨n, hc, m1, m2, r1, r2, fun h => by simp [h] at m2, r3⟩

/-- The length and the offset of a class's operands are never more than `INT_MAX`. -/
theorem carries_le {n : ClassName} {len off : Nat} (h : n.carries len off) : 1 ≤ len ∧ len ≤ intMax ∧ off ≤ intMax := by
  cases n <;> simp [ClassName.carries, ClassName.row, literalTrailerClass, TagClass.maxLen, TagClass.maxOff, intMax] at h ⊢ <;>
    omega

end Sys2Proof
end

