-- ==== Sys2Proof/Laws/Match.lean ====
section
/-! SUPPORT. The match finder (R151 to R154): what an extension and an accepted match are. -/

namespace Sys2Proof.Machine

/-- Forward extension keeps a match and ends at a limit or at a difference (R152). -/
theorem extendForward_spec (rd : Nat → Byte) (iend maxLen cand s : Nat) (fuel mlen : Nat) (h1 : s + mlen ≤ iend)
    (h2 : mlen ≤ maxLen) (h3 : ∀ k, k < mlen → rd (cand + k) = rd (s + k)) :
    let r := extendForward rd iend maxLen cand s fuel mlen
    mlen ≤ r ∧ s + r ≤ iend ∧ r ≤ maxLen ∧ (∀ k, k < r → rd (cand + k) = rd (s + k)) ∧
      (iend ≤ s + mlen + fuel → s + r = iend ∨ r = maxLen ∨ rd (cand + r) ≠ rd (s + r)) := by
  induction fuel generalizing mlen with
  | zero => exact ⟨Nat.le_refl _, h1, h2, h3, fun h => .inl (by simp only [extendForward]; omega)⟩
  | succ n ih =>
    simp only [extendForward]
    split_ifs with hc
    · obtain ⟨c1, c2, c3⟩ := hc
      obtain ⟨k1, k2, k3, k4, k5⟩ := ih (mlen + 1) (by omega) (by omega) (by
        intro k hk
        by_cases hkm : k = mlen
        · subst hkm; exact c3
        · exact h3 k (by omega))
      exact ⟨by omega, k2, k3, k4, fun h => k5 (by omega)⟩
    · refine ⟨Nat.le_refl _, h1, h2, h3, fun _ => ?_⟩
      by_contra hcon
      simp only [not_or, not_not] at hcon
      exact hc ⟨by omega, by omega, hcon.2.2⟩

/-- Backward extension keeps a match and ends at a limit or at a difference (R153). -/
theorem extendBackward_spec (rd : Nat → Byte) (istart anchor maxLen : Nat) (fuel s cand mlen : Nat) (h1 : anchor ≤ s)
    (h2 : istart ≤ cand) (h3 : mlen ≤ maxLen) (hlt : cand < s) (h4 : ∀ k, k < mlen → rd (cand + k) = rd (s + k)) :
    let r := extendBackward rd istart anchor maxLen fuel s cand mlen
    anchor ≤ r.1 ∧ r.1 ≤ s ∧ istart ≤ r.2.1 ∧ r.2.1 < r.1 ∧ r.1 - r.2.1 = s - cand ∧ mlen ≤ r.2.2 ∧ r.2.2 ≤ maxLen ∧
      r.1 + r.2.2 = s + mlen ∧ (∀ k, k < r.2.2 → rd (r.2.1 + k) = rd (r.1 + k)) ∧
      (s ≤ anchor + fuel → r.1 = anchor ∨ r.2.1 = istart ∨ r.2.2 = maxLen ∨ rd (r.1 - 1) ≠ rd (r.2.1 - 1)) := by
  induction fuel generalizing s cand mlen with
  | zero =>
    exact ⟨h1, Nat.le_refl _, h2, hlt, rfl, Nat.le_refl _, h3, rfl, h4, fun h => .inl (by simp only [extendBackward]; omega)⟩
  | succ n ih =>
    simp only [extendBackward]
    split_ifs with hc
    · obtain ⟨c1, c2, c3, c4⟩ := hc
      obtain ⟨k1, k2, k3, k4, k5, k6, k7, k8, k9, k10⟩ := ih (s - 1) (cand - 1) (mlen + 1) (by omega) (by omega) (by omega)
        (by omega) (by
          intro k hk
          by_cases hk0 : k = 0
          · subst hk0; exact c4.symm
          · have := h4 (k - 1) (by omega)
            rwa [show cand + (k - 1) = cand - 1 + k by omega, show s + (k - 1) = s - 1 + k by omega] at this)
      exact ⟨k1, by omega, k3, k4, by omega, by omega, k7, by omega, k9, fun h => k10 (by omega)⟩
    · refine ⟨h1, Nat.le_refl _, h2, hlt, rfl, Nat.le_refl _, h3, rfl, h4, fun _ => ?_⟩
      by_contra hcon
      simp only [not_or, not_not] at hcon
      exact hc ⟨by omega, by omega, by omega, hcon.2.2.2⟩

/-- The bytes of a window. -/
theorem windowAt_eq {rd : Nat → Byte} {a b : Nat} : windowAt rd a = windowAt rd b ↔ ∀ k, k < 4 → rd (a + k) = rd (b + k) := by
  simp only [windowAt, List.cons.injEq, and_true]
  constructor
  · rintro ⟨h0, h1, h2, h3⟩ k hk
    match k, hk with
    | 0, _ => exact h0
    | 1, _ => exact h1
    | 2, _ => exact h2
    | 3, _ => exact h3
  · intro h
    exact ⟨h 0 (by omega), h 1 (by omega), h 2 (by omega), h 3 (by omega)⟩

/-- No candidate qualifies: no match (R151). -/
theorem findMatch_none {F : FVT} {rd : Nat → Byte} {istart iend anchor ip : Nat} {e : Option Nat}
    (h : ∀ pos, ¬ (e = some pos ∧ ip - pos ≤ F.maxOffset ∧ windowAt rd pos = windowAt rd ip)) :
    findMatch F rd istart iend anchor ip e = none := by
  match e with
  | none => rfl
  | some pos =>
    simp only [findMatch]
    rw [if_neg fun hc => h pos ⟨rfl, hc⟩]

/-- A candidate qualifies: the match is accepted, and longest in the directions the table allows (R151 to R154). -/
theorem findMatch_some {F : FVT} (hF : F ∈ tables) {rd : Nat → Byte} {istart iend anchor ip pos : Nat} (h1 : istart ≤ pos)
    (h2 : pos < ip) (h3 : anchor ≤ ip) (h4 : ip + 4 ≤ iend) (h5 : ip - pos ≤ F.maxOffset)
    (h6 : windowAt rd pos = windowAt rd ip) :
    ∃ p cand mlen, findMatch F rd istart iend anchor ip (some pos) = some (p, cand, mlen) ∧
      anchor ≤ p ∧ p ≤ ip ∧ istart ≤ cand ∧ cand < p ∧ p - cand = ip - pos ∧ 4 ≤ mlen ∧ mlen ≤ F.maxLen .copy ∧
      ip + 4 ≤ p + mlen ∧ p + mlen ≤ iend ∧ (∀ k, k < mlen → rd (cand + k) = rd (p + k)) ∧
      (p + mlen = iend ∨ mlen = F.maxLen .copy ∨ rd (cand + mlen) ≠ rd (p + mlen)) ∧
      (F.backwardExtend = false → p = ip) ∧
      (F.backwardExtend = true → p = anchor ∨ cand = istart ∨ mlen = F.maxLen .copy ∨ rd (p - 1) ≠ rd (cand - 1)) := by
  obtain ⟨-, c2, -, c4, -⟩ := table_constants hF
  simp only [findMatch]
  rw [if_pos ⟨h5, h6⟩]
  obtain ⟨f1, f2, f3, f4, f5⟩ := extendForward_spec rd iend (F.maxLen .copy) pos ip (iend - ip) 4 h4 c4
    (windowAt_eq.1 h6)
  simp only [Config.window]
  generalize extendForward rd iend (F.maxLen .copy) pos ip (iend - ip) 4 = m at *
  have f5 := f5 (by omega)
  cases hb : F.backwardExtend with
  | false =>
    simp only [Bool.false_eq_true, if_false]
    rw [if_pos (by omega)]
    exact ⟨ip, pos, m, rfl, h3, Nat.le_refl _, h1, h2, rfl, f1, f3, by omega, f2, f4, f5, fun _ => rfl, fun h => absurd h (by decide)⟩
  | true =>
    simp only [if_true]
    obtain ⟨b1, b2, b3, b4, b5, b6, b7, b8, b9, b10⟩ := extendBackward_spec rd istart anchor (F.maxLen .copy) (ip - anchor) ip pos m
      h3 h1 f3 h2 f4
    generalize extendBackward rd istart anchor (F.maxLen .copy) (ip - anchor) ip pos m = r at *
    obtain ⟨p, cand, mlen⟩ := r
    simp only at *
    rw [if_pos (by omega)]
    refine ⟨p, cand, mlen, rfl, b1, b2, b3, b4, b5, by omega, b7, by omega, by omega, b9, ?_, fun h => absurd h (by decide),
      fun _ => b10 (by omega)⟩
    rw [b8, show cand + mlen = pos + m by omega]
    rcases f5 with f5 | f5 | f5
    · exact .inl f5
    · exact .inr (.inl (by omega))
    · exact .inr (.inr f5)

/-- No match, or an accepted one. -/
theorem findMatch_cases {F : FVT} (hF : F ∈ tables) (rd : Nat → Byte) {istart iend anchor ip : Nat} {e : Option Nat}
    (he : ∀ q, e = some q → istart ≤ q ∧ q < ip) (h3 : anchor ≤ ip) (h4 : ip + 4 ≤ iend) :
    findMatch F rd istart iend anchor ip e = none ∨
    ∃ p cand mlen, findMatch F rd istart iend anchor ip e = some (p, cand, mlen) ∧
      anchor ≤ p ∧ p ≤ ip ∧ istart ≤ cand ∧ cand < p ∧ p - cand ≤ F.maxOffset ∧ 4 ≤ mlen ∧ mlen ≤ F.maxLen .copy ∧
      ip + 4 ≤ p + mlen ∧ p + mlen ≤ iend ∧ ∀ k, k < mlen → rd (cand + k) = rd (p + k) := by
  by_cases hq : ∃ pos, e = some pos ∧ ip - pos ≤ F.maxOffset ∧ windowAt rd pos = windowAt rd ip
  · obtain ⟨pos, rfl, q2, q3⟩ := hq
    obtain ⟨q4, q5⟩ := he pos rfl
    obtain ⟨p, cand, mlen, e, r1, r2, r3, r4, r5, r6, r7, r8, r9, r10, -⟩ := findMatch_some hF q4 q5 h3 h4 q2 q3
    exact .inr ⟨p, cand, mlen, e, r1, r2, r3, r4, by omega, r6, r7, r8, r9, r10⟩
  · exact .inl (findMatch_none fun pos h => hq ⟨pos, h⟩)

/-- Setting an entry of the table keeps its positions below the next. -/
theorem table_set_below {T : List (Option Nat)} {lo ip slot : Nat} (h : ∀ q, some q ∈ T → lo ≤ q ∧ q < ip) (hlo : lo ≤ ip) {r : Nat}
    (hr : ip < r) : ∀ q, some q ∈ T.set slot (some ip) → lo ≤ q ∧ q < r := by
  intro q hq
  rcases List.mem_or_eq_of_mem_set hq with hq | hq
  · have := h q hq; omega
  · simp only [Option.some.injEq] at hq; subst hq; exact ⟨hlo, hr⟩

/-- An entry of the table. -/
theorem table_entry {T : List (Option Nat)} {slot : Nat} {lo ip : Nat} (h : ∀ q, some q ∈ T → lo ≤ q ∧ q < ip) :
    ∀ q, (T[slot]?).getD none = some q → lo ≤ q ∧ q < ip := by
  intro q hq
  match hx : T[slot]? with
  | none => rw [hx] at hq; simp at hq
  | some e =>
    rw [hx] at hq
    simp only [Option.getD_some] at hq
    subst hq
    exact h q (List.mem_of_getElem? hx)

/-- The finder looks at the bytes from `istart` to `iend` alone. -/
theorem extendForward_congr {rd rd' : Nat → Byte} {lo iend maxLen cand s : Nat} (hr : ∀ a, lo ≤ a → a < iend → rd a = rd' a)
    (hc : lo ≤ cand) (hlt : cand ≤ s) (fuel mlen : Nat) :
    extendForward rd iend maxLen cand s fuel mlen = extendForward rd' iend maxLen cand s fuel mlen := by
  induction fuel generalizing mlen with
  | zero => rfl
  | succ n ih =>
    simp only [extendForward]
    by_cases h : s + mlen < iend
    · rw [hr (cand + mlen) (by omega) (by omega), hr (s + mlen) (by omega) h, ih]
    · rw [if_neg fun hc => h hc.1, if_neg fun hc => h hc.1]

theorem extendBackward_congr {rd rd' : Nat → Byte} {istart iend anchor maxLen : Nat}
    (hr : ∀ a, istart ≤ a → a < iend → rd a = rd' a) (fuel s cand mlen : Nat) (h1 : s ≤ iend) (h2 : cand < s) :
    extendBackward rd istart anchor maxLen fuel s cand mlen = extendBackward rd' istart anchor maxLen fuel s cand mlen := by
  induction fuel generalizing s cand mlen with
  | zero => rfl
  | succ n ih =>
    simp only [extendBackward]
    by_cases h : cand > istart
    · rw [hr (s - 1) (by omega) (by omega), hr (cand - 1) (by omega) (by omega)]
      split_ifs with hc
      · exact ih _ _ _ (by omega) (by omega)
      · rfl
    · rw [if_neg fun hc => h hc.2.1, if_neg fun hc => h hc.2.1]

theorem windowAt_congr {rd rd' : Nat → Byte} {lo iend a : Nat} (hr : ∀ a, lo ≤ a → a < iend → rd a = rd' a) (h1 : lo ≤ a)
    (h2 : a + 4 ≤ iend) : windowAt rd a = windowAt rd' a := by
  simp only [windowAt, hr a (by omega) (by omega), hr (a + 1) (by omega) (by omega), hr (a + 2) (by omega) (by omega),
    hr (a + 3) (by omega) (by omega)]

theorem findMatch_congr {F : FVT} {rd rd' : Nat → Byte} {istart iend anchor ip : Nat}
    (hr : ∀ a, istart ≤ a → a < iend → rd a = rd' a) {e : Option Nat} (he : ∀ q, e = some q → istart ≤ q ∧ q < ip)
    (h : ip + 4 ≤ iend) : findMatch F rd istart iend anchor ip e = findMatch F rd' istart iend anchor ip e := by
  match e with
  | none => rfl
  | some pos =>
    obtain ⟨h1, h2⟩ := he pos rfl
    simp only [findMatch]
    rw [windowAt_congr hr h1 (by omega), windowAt_congr hr (show istart ≤ ip by omega) h,
      extendForward_congr hr h1 (by omega), extendBackward_congr hr _ _ _ _ (by omega) h2]

/-! ### The finder on a view that starts at `lo` is the finder on the list of its bytes -/

theorem extendForward_shift (rd : Nat → Byte) (lo iend maxLen cand s fuel mlen : Nat) :
    extendForward rd (lo + iend) maxLen (lo + cand) (lo + s) fuel mlen =
      extendForward (fun a => rd (lo + a)) iend maxLen cand s fuel mlen := by
  induction fuel generalizing mlen with
  | zero => rfl
  | succ n ih =>
    simp only [extendForward, ih, Nat.add_assoc, Nat.add_lt_add_iff_left]

theorem extendBackward_shift (rd : Nat → Byte) (lo istart anchor maxLen fuel s cand mlen : Nat) :
    extendBackward rd (lo + istart) (lo + anchor) maxLen fuel (lo + s) (lo + cand) mlen =
      (lo + (extendBackward (fun a => rd (lo + a)) istart anchor maxLen fuel s cand mlen).1,
       lo + (extendBackward (fun a => rd (lo + a)) istart anchor maxLen fuel s cand mlen).2.1,
       (extendBackward (fun a => rd (lo + a)) istart anchor maxLen fuel s cand mlen).2.2) := by
  induction fuel generalizing s cand mlen with
  | zero => rfl
  | succ n ih =>
    simp only [extendBackward]
    by_cases hc : s > anchor ∧ cand > istart ∧ mlen < maxLen ∧ rd (lo + (s - 1)) = rd (lo + (cand - 1))
    · have e1 : lo + s - 1 = lo + (s - 1) := by omega
      have e2 : lo + cand - 1 = lo + (cand - 1) := by omega
      rw [if_pos hc, e1, e2, if_pos ⟨by omega, by omega, hc.2.2.1, hc.2.2.2⟩, ih]
    · rw [if_neg hc, if_neg]
      rintro ⟨h1, h2, h3, h4⟩
      rw [show lo + s - 1 = lo + (s - 1) by omega, show lo + cand - 1 = lo + (cand - 1) by omega] at h4
      exact hc ⟨by omega, by omega, h3, h4⟩

theorem windowAt_shift (rd : Nat → Byte) (lo a : Nat) : windowAt rd (lo + a) = windowAt (fun b => rd (lo + b)) a := by
  simp only [windowAt, Nat.add_assoc]

/-- An accepted match, its positions counted from `lo`. -/
def shiftMatch (lo : Nat) (m : Nat × Nat × Nat) : Nat × Nat × Nat := (lo + m.1, lo + m.2.1, m.2.2)

theorem findMatch_shift (F : FVT) (rd : Nat → Byte) (lo iend anchor ip : Nat) (e : Option Nat) :
    findMatch F rd lo (lo + iend) (lo + anchor) (lo + ip) (e.map (lo + ·)) =
      (findMatch F (fun a => rd (lo + a)) 0 iend anchor ip e).map (shiftMatch lo) := by
  match e with
  | none => rfl
  | some pos =>
    simp only [Option.map_some, findMatch, windowAt_shift, extendForward_shift, Nat.add_sub_add_left]
    have hb := extendBackward_shift rd lo 0 anchor (F.maxLen .copy) (ip - anchor) ip pos
      (extendForward (fun a => rd (lo + a)) iend (F.maxLen .copy) pos ip (iend - ip) Config.window)
    rw [Nat.add_zero] at hb
    rw [hb]
    split_ifs <;> rfl

end Sys2Proof.Machine
end

