-- ==== Sys2Proof/Laws/Run.lean ====
section
/-! SUPPORT. DECOMPRESS in states that meet its invariant: each transition is the matching pass of the function `Decode`. -/

namespace Sys2Proof.Machine

/-! ### The forward copy on lists -/

@[simp] theorem copyOut_length (off n : Nat) (out : List Byte) : (copyOut off n out).length = out.length + n := by
  induction n generalizing out with
  | zero => rfl
  | succ n ih => simp only [copyOut, ih, List.length_append, List.length_singleton]; omega

/-- The forward copy is the list that continues `out` with period `off` (R52). -/
theorem eq_copyOut {off : Nat} (h0 : 0 < off) (n : Nat) (out l : List Byte) (hoff : off ≤ out.length)
    (hlen : l.length = out.length + n) (hpre : l.take out.length = out)
    (hper : ∀ i, out.length ≤ i → i < l.length → l[i]? = l[i - off]?) : l = copyOut off n out := by
  induction n generalizing out with
  | zero =>
    rw [copyOut, ← hpre, List.take_of_length_le]
    rw [hlen]; omega
  | succ n ih =>
    simp only [copyOut]
    have h1 : out.length < l.length := by omega
    apply ih
    · simp only [List.length_append, List.length_singleton]; omega
    · simp only [List.length_append, List.length_singleton]; omega
    · simp only [List.length_append, List.length_singleton]
      rw [List.take_add_one, hpre, hper _ (Nat.le_refl _) h1]
      have hlt : out.length - off < out.length := by omega
      have : l[out.length - off]? = out[out.length - off]? := by
        have := List.getElem?_take_of_lt (l := l) hlt
        rw [hpre] at this
        exact this.symm
      rw [this, List.getD_eq_getElem?_getD, List.getElem?_eq_getElem (show out.length - off < out.length by omega)]
      rfl
    · intro i h h'
      simp only [List.length_append, List.length_singleton] at h
      exact hper i (by omega) h'

/-! ### What the views hold -/

/-- The bytes of the input view. -/
def State.block (s : State) : List Byte := s.bytesFrom s.vin s.wr.istart

/-- The bytes written so far: `OUT[ostart .. op)`. -/
def State.written (s : State) : List Byte :=
  s.bytesFrom { space := .output, start := s.wr.ostart, limit := s.wr.op } s.wr.ostart

@[simp] theorem State.block_length (s : State) : s.block.length = s.wr.iend - s.wr.istart := by
  simp [State.block, State.vin]

@[simp] theorem State.written_length (s : State) : s.written.length = s.wr.op - s.wr.ostart := by
  simp [State.written]

theorem State.block_getElem (s : State) (k : Nat) (h : k < s.block.length) :
    s.block[k] = s.inByte (s.wr.istart + k) := State.bytesFrom_getElem _ _ _ _ _

theorem State.written_getElem (s : State) (k : Nat) (h : k < s.written.length) :
    s.written[k] = s.outByte (s.wr.ostart + k) := State.bytesFrom_getElem _ _ _ _ _

theorem State.block_drop (s : State) (h : s.wr.istart ≤ s.wr.ip) :
    s.block.drop (s.wr.ip - s.wr.istart) = s.bytesFrom s.vin s.wr.ip := by
  rw [State.block, State.bytesFrom_drop]; congr 1; omega

theorem State.InputOk.iend_le {s : State} (h : s.InputOk) : s.wr.iend ≤ intMax := by
  have := h.inside
  have := sext_le s.cr.inExtent
  omega

theorem State.OutputOk.lim_le {s : State} {n : Nat} (h : s.OutputOk n) : n ≤ intMax := by
  have := h.inside
  have := sext_le s.cr.outExtent
  omega

/-- A shorter output view is as good. -/
theorem State.OutputOk.mono {s : State} {n m : Nat} (h : s.OutputOk n) (h1 : s.wr.ostart ≤ m) (h2 : m ≤ n) : s.OutputOk m :=
  ⟨h1, by have := h.inside; omega, Nat.le_trans (by simp only [State.phys]; omega) h.mapped, h.start,
    by have := h.limit; omega⟩

/-! ### What the views rest on -/

theorem State.phys_congr {s t : State} (e : t.cr = s.cr) (x : Space) (a : Nat) : t.phys x a = s.phys x a := by
  simp only [State.phys, e]

theorem State.InputOk.congr {s t : State} (h : s.InputOk) (e : t.cr = s.cr) (e1 : t.wr.istart = s.wr.istart)
    (e2 : t.wr.iend = s.wr.iend) : t.InputOk :=
  ⟨by rw [e1, e2]; exact h.ordered, by rw [e2, e]; exact h.inside, by rw [e2, State.phys_congr e]; exact h.mapped,
    by rw [e1, e]; exact h.start, by rw [e2, e]; exact h.limit⟩

theorem State.OutputOk.congr {s t : State} {n : Nat} (h : s.OutputOk n) (e : t.cr = s.cr) (e1 : t.wr.ostart = s.wr.ostart) :
    t.OutputOk n :=
  ⟨by rw [e1]; exact h.ordered, by rw [e]; exact h.inside, by rw [State.phys_congr e]; exact h.mapped,
    by rw [e1, e]; exact h.start, by rw [e]; exact h.limit⟩

theorem State.Apart.congr {s t : State} {n : Nat} (h : s.Apart n) (e : t.cr = s.cr) (e1 : t.wr.istart = s.wr.istart)
    (e2 : t.wr.iend = s.wr.iend) (e3 : t.wr.ostart = s.wr.ostart) : t.Apart n := by
  intro a b h1 h2 h3 h4
  rw [State.phys_congr e, State.phys_congr e]
  exact h a b (by omega) (by omega) (by omega) h4

/-- The invariants of R11 go over to a state with the same views and cursors in range. -/
theorem State.Decoding.congr {s t : State} (h : s.Decoding) (e : t.cr = s.cr) (e1 : t.wr.istart = s.wr.istart)
    (e2 : t.wr.iend = s.wr.iend) (e3 : t.wr.ostart = s.wr.ostart) (e4 : t.wr.oend = s.wr.oend)
    (e5 : t.wr.olimit = s.wr.olimit) (e6 : t.wr.ulen = s.wr.ulen) (h1 : s.wr.istart ≤ t.wr.ip) (h2 : t.wr.ip ≤ s.wr.iend)
    (h3 : s.wr.ostart ≤ t.wr.op) (h4 : t.wr.op ≤ s.wr.olimit) : t.Decoding :=
  ⟨by rw [e]; exact h.command, by rw [e]; exact h.table, h.input.congr e e1 e2, by rw [e4]; exact h.output.congr e e3,
    by rw [e4]; exact h.apart.congr e e1 e2 e3, by omega, by omega, by omega, by omega,
    by rw [e5, e3, e6]; exact h.declared, by rw [e5, e4]; exact h.capacity⟩

/-! ### A transition that faults -/

/-- `u` is a state in which a transition of DEC from `s` raises an error: only the registers of the current operation differ. -/
structure RaisedFrom (s u : State) : Prop where
  cr : u.cr = s.cr
  mem : u.mem = s.mem
  table : u.table = s.table
  turns : u.turns = s.turns
  readData : u.readData = s.readData
  draws : u.draws = s.draws
  ostart : u.wr.ostart = s.wr.ostart
  oend : u.wr.oend = s.wr.oend
  olimit : u.wr.olimit = s.wr.olimit
  unspecified : u.unspecifiedOnFault = s.unspecifiedOnFault
  bounded : s.wr.Bounded → u.wr.Bounded

theorem RaisedFrom.refl (s : State) : RaisedFrom s s := ⟨rfl, rfl, rfl, rfl, rfl, rfl, rfl, rfl, rfl, rfl, id⟩

/-! ### A transition that runs an operation -/

/-- `t` is `s` after an operation that ends at input position `pos` (from the view's start) with `out` written. -/
structure RanFrom (s t : State) (pos : Nat) (out : List Byte) : Prop where
  st : t.st = .readTag
  cr : t.cr = s.cr
  table : t.table = s.table
  turns : t.turns = s.turns
  readData : t.readData = s.readData
  draws : t.draws = s.draws
  istart : t.wr.istart = s.wr.istart
  iend : t.wr.iend = s.wr.iend
  ostart : t.wr.ostart = s.wr.ostart
  oend : t.wr.oend = s.wr.oend
  olimit : t.wr.olimit = s.wr.olimit
  ulen : t.wr.ulen = s.wr.ulen
  ip : t.wr.ip = s.wr.istart + pos
  op : t.wr.op = s.wr.ostart + out.length
  ipHigh : t.wr.ip ≤ s.wr.iend
  ipMoves : s.wr.ip ≤ t.wr.ip
  opMoves : s.wr.op < t.wr.op
  opHigh : t.wr.op ≤ s.wr.olimit
  bounded : s.wr.Bounded → t.wr.Bounded
  memory : t.mem.wf
  stamps : ∀ r ∈ t.mem.discarded, ∃ q ∈ s.mem.discarded, r.stamp = q.stamp
  written : t.written = out
  outside : ∀ a, (a < s.phys .output s.wr.op ∨ s.phys .output s.wr.olimit ≤ a) → t.mem.read a = s.mem.read a

/-- The list of bytes at the addresses of a range of output offsets. -/
theorem State.written_eq {t : State} {l : List Byte} (hl : l.length = t.wr.op - t.wr.ostart)
    (h : ∀ k (hk : k < l.length), t.outByte (t.wr.ostart + k) = l[k]) : t.written = l := by
  apply List.ext_getElem
  · rw [State.written_length, hl]
  · intro k h1 h2
    rw [State.written_getElem, h k h2]

/-- The literal of a decoded operation (R118), on the bytes of the two views. -/
theorem emitLiteral_run {u : State} (hd : u.Decoding) (hdd : u.Decoded) (hw : u.mem.wf) :
    match runOperation u.block u.wr.ulen (u.wr.opc - u.wr.istart) (u.wr.ip - u.wr.istart) u.written .literal u.wr.len u.wr.off with
    | .ok (pos, out) => ∃ t, emitLiteral u = .ok t ∧ RanFrom u t pos out
    | .error e => emitLiteral u = .error (.raised e u) := by
  obtain ⟨h1, h2, h3, h4, h5, h6, h7, h8, h9, h10, h11⟩ := hd
  obtain ⟨d1, d2, d3, d4, d5⟩ := hdd
  have hi := h3.iend_le
  have ho := h4.lim_le
  simp only [runOperation, State.block_length, State.written_length]
  split_ifs with g1 g2
  · exact emitLiteral_input (by omega)
  · exact emitLiteral_output (by omega) (by omega)
  · simp only []
    have hcap := h4.mono (show u.wr.ostart ≤ u.wr.olimit by omega) h11
    refine ⟨_, emitLiteral_ok h6 (by omega) h8 (by omega) hi (by omega) h3.mapped hcap.mapped, ?_⟩
    have hsame := State.moveBytes_same .output .input u.wr.len u.wr.op u.wr.ip u
    have hlen : (u.written ++ (u.block.drop (u.wr.ip - u.wr.istart)).take u.wr.len).length
        = u.wr.op + u.wr.len - u.wr.ostart := by
      simp only [List.length_append, State.written_length, List.length_take, List.length_drop, State.block_length]; omega
    refine ⟨rfl, rfl, rfl, rfl, rfl, rfl, rfl, rfl, rfl, rfl, rfl, rfl, ?_, ?_, ?_, ?_, ?_, ?_, ?_, hsame.wf hw, hsame.stamps, ?_, ?_⟩
    · show u.wr.ip + u.wr.len = _; omega
    · show u.wr.op + u.wr.len = _; rw [hlen]; omega
    · show u.wr.ip + u.wr.len ≤ _; omega
    · exact Nat.le_add_right _ _
    · show u.wr.op < u.wr.op + u.wr.len; omega
    · show u.wr.op + u.wr.len ≤ _; omega
    · intro b
      exact { b with ip := show u.wr.ip + u.wr.len ≤ intMax by omega, op := show u.wr.op + u.wr.len ≤ intMax by omega }
    · apply State.written_eq
      · rw [hlen]
      · intro k hk
        rw [hlen] at hk
        show (State.moveBytes .output .input u.wr.len u.wr.op u.wr.ip u).mem.read (u.phys .output (u.wr.ostart + k)) = _
        by_cases hkop : u.wr.ostart + k < u.wr.op
        · rw [State.moveBytes_outside hw (.inl ((State.phys_lt u .output).2 hkop)), List.getElem_append_left (by simp; omega),
            State.written_getElem]; rfl
        · rw [List.getElem_append_right (by simp; omega), List.getElem_take, List.getElem_drop, State.block_getElem]
          have := State.moveBytes_apart (xd := .output) (xs := .input) (n := u.wr.len) (d := u.wr.op) (a := u.wr.ip) hw
            (fun i j hi hj => h5 _ _ (by omega) (by omega) (by omega) (by omega))
            (show u.wr.ostart + k - u.wr.op < u.wr.len by omega)
          rw [show u.wr.op + (u.wr.ostart + k - u.wr.op) = u.wr.ostart + k by omega] at this
          rw [this, State.inByte]
          congr 2
          simp only [State.written_length]; omega
    · intro a ha
      refine State.moveBytes_outside hw ?_
      rcases ha with ha | ha
      · exact .inl ha
      · exact .inr (Nat.le_trans ((State.phys_le u .output).2 (by omega)) ha)

/-- The copy of a decoded operation (R119), on the bytes of the output view. -/
theorem emitCopy_run {u : State} (hd : u.Decoding) (hdd : u.Decoded) (hw : u.mem.wf) :
    match runOperation u.block u.wr.ulen (u.wr.opc - u.wr.istart) (u.wr.ip - u.wr.istart) u.written .copy u.wr.len u.wr.off with
    | .ok (pos, out) => ∃ t, emitCopy u = .ok t ∧ RanFrom u t pos out
    | .error e => emitCopy u = .error (.raised e u) := by
  obtain ⟨h1, h2, h3, h4, h5, h6, h7, h8, h9, h10, h11⟩ := hd
  obtain ⟨d1, d2, d3, d4, d5⟩ := hdd
  have hi := h3.iend_le
  have ho := h4.lim_le
  simp only [runOperation, State.written_length]
  split_ifs with g1 g2 g3
  · exact emitCopy_zero g1
  · exact emitCopy_beyond g1 (by omega)
  · exact emitCopy_output g1 (by omega) (by omega)
  · simp only []
    have hcap := h4.mono (show u.wr.ostart ≤ u.wr.olimit by omega) h11
    refine ⟨_, emitCopy_ok g1 (by omega) (by omega) (by omega) hcap.mapped, ?_⟩
    have hsame := State.moveBytes_same .output .output u.wr.len u.wr.op (u.wr.op - u.wr.off) u
    have hlen : (copyOut u.wr.off u.wr.len u.written).length = u.wr.op + u.wr.len - u.wr.ostart := by
      simp only [copyOut_length, State.written_length]; omega
    refine ⟨rfl, rfl, rfl, rfl, rfl, rfl, rfl, rfl, rfl, rfl, rfl, rfl, ?_, ?_, ?_, ?_, ?_, ?_, ?_, hsame.wf hw, hsame.stamps, ?_, ?_⟩
    · show u.wr.ip = _; omega
    · show u.wr.op + u.wr.len = _; rw [hlen]; omega
    · exact h7
    · exact Nat.le_refl _
    · show u.wr.op < u.wr.op + u.wr.len; omega
    · show u.wr.op + u.wr.len ≤ _; omega
    · intro b
      exact { b with op := show u.wr.op + u.wr.len ≤ intMax by omega }
    · -- the bytes after the copy continue the bytes before it with period `off`
      apply eq_copyOut (by omega)
      · simp; omega
      · simp only [State.written_length]; omega
      · apply List.ext_getElem
        · simp only [List.length_take, State.written_length]; omega
        · intro k hk1 hk2
          rw [List.getElem_take, State.written_getElem, State.written_getElem]
          rw [State.written_length] at hk2
          exact State.moveBytes_outside hw (.inl ((State.phys_lt u .output).2 (show u.wr.ostart + k < u.wr.op by omega)))
      · intro i hi1 hi2
        rw [State.written_length] at hi1
        have hi3 : i < u.wr.op + u.wr.len - u.wr.ostart := by rw [State.written_length] at hi2; exact hi2
        rw [List.getElem?_eq_getElem hi2, List.getElem?_eq_getElem (by omega), State.written_getElem, State.written_getElem]
        have := State.moveBytes_forward (x := .output) (n := u.wr.len) (d := u.wr.op) (a := u.wr.op - u.wr.off) hw (by omega)
          (show u.wr.ostart + i - u.wr.op < u.wr.len by omega)
        rw [show u.wr.op + (u.wr.ostart + i - u.wr.op) = u.wr.ostart + i by omega,
          show u.wr.op - u.wr.off + (u.wr.ostart + i - u.wr.op) = u.wr.ostart + (i - u.wr.off) by omega] at this
        exact congrArg some this
    · intro a ha
      refine State.moveBytes_outside hw ?_
      rcases ha with ha | ha
      · exact .inl ha
      · exact .inr (Nat.le_trans ((State.phys_le u .output).2 (by omega)) ha)

/-! ### READ_TAG -/

/-- What an operation that decodes is, once more: a reserved tag at the head, or a class of the table with its operands. -/
theorem decodeOperation_operands {F : FVT} (hF : F ∈ tables) {bs : List Byte} {i : Instr} (h : decodeOperation F bs = .ok i) :
    (∃ t rest, bs = t :: rest ∧ i = .reservedFvt1 t ∧ F.classify t = none) ∨
    ∃ c len off, i.operands = some (c, len, off) ∧ c.row ∈ F.classes ∧ c.row.size ≤ bs.length ∧ 1 ≤ len ∧ len ≤ intMax ∧
      off ≤ intMax := by
  obtain ⟨t, rest, rfl, ⟨hc, rfl⟩ | ⟨n, hc, hn, len, off, hl, ho, hl', ho', rfl⟩⟩ := decodeOperation_inv hF h
  · exact .inl ⟨t, rest, rfl, rfl, hc⟩
  · refine .inr ⟨n, len, off, operands_toInstr n ?_, (classify_mem hc).1, ?_, ?_, hl', ho'⟩
    · intro hk
      have h1 : n.row.offInline = none ∧ n.row.nO = 0 := by cases n <;> first | exact ⟨rfl, rfl⟩ | simp [ClassName.row] at hk
      rw [ho, h1.1, h1.2]; simp [inlineField, le]
    · simp only [TagClass.size, List.length_cons]; omega
    · have := (row_length n t).1
      omega

theorem index_le (c : ClassName) : ClassName.index c ≤ intMax := by cases c <;> simp [ClassName.index, intMax]

/-- `READ_TAG` in DECOMPRESS, once the completion test has passed, is one pass of the function `Decode`. -/
theorem stepReadTag_run {s : State} {F : FVT} (hst : s.st = .readTag) (hd : s.Decoding) (hw : s.mem.wf)
    (hF : tables[s.cr.format.toNat]? = some F) (h1 : s.wr.op ≠ s.wr.olimit) (h2 : s.wr.ip ≠ s.wr.iend) :
    match decodeOperation F (s.block.drop (s.wr.ip - s.wr.istart)) with
    | .error e => ∃ u, RaisedFrom s u ∧
        stepReadTag s = .next (u.takeError (.malformed (operationReason e) (s.wr.ip - s.wr.istart)))
    | .ok i =>
      match i.operands with
      | none => ∃ u, RaisedFrom s u ∧ stepReadTag s = .next (u.takeError (.malformed .invalidTag (s.wr.ip - s.wr.istart)))
      | some (c, len, off) =>
        match runOperation s.block s.wr.ulen (s.wr.ip - s.wr.istart) (s.wr.ip - s.wr.istart + c.row.size) s.written
            c.row.kind len off with
        | .error e => ∃ u, RaisedFrom s u ∧ stepReadTag s = .next (u.takeError e)
        | .ok (pos, out) => ∃ t, stepReadTag s = .next t ∧ RanFrom s t pos out ∧ s.wr.ip < t.wr.ip := by
  have hT := table_mem hF
  have hip := hd.ipLow
  have hip2 := hd.ipHigh
  have hi := hd.input.iend_le
  have hlt : s.wr.ip < s.wr.iend := by omega
  rw [State.block_drop s hip, stepReadTag_eq hF h1 h2 hip hd.input.mapped]
  have raised : ∀ tag, RaisedFrom s (s.fetchTag tag) := by
    intro tag
    refine ⟨rfl, rfl, rfl, rfl, rfl, rfl, rfl, rfl, rfl, ?_, fun b => ?_⟩
    · simp only [State.unspecifiedOnFault, State.fetchTag, hst]
    · exact { b with ip := show s.wr.ip + 1 ≤ intMax by omega, opc := b.ip }
  match hdec : decodeOperation F (s.bytesFrom s.vin s.wr.ip) with
  | .error e => exact ⟨_, raised _, rfl⟩
  | .ok i =>
    simp only []
    rcases decodeOperation_operands hT hdec with ⟨tag, rest, -, rfl, -⟩ | ⟨c, len, off, hop, hmem, hsize, hl1, hl2, ho⟩
    · exact ⟨_, raised tag, rfl⟩
    · simp only [hop]
      rw [State.bytesFrom_length] at hsize
      have hsz : s.wr.ip + c.row.size ≤ s.wr.iend := by
        have : s.vin.limit = s.wr.iend := rfl
        omega
      have hpos : 1 ≤ c.row.size := by simp only [TagClass.size]; omega
      rw [exec_operation hop]
      have hud : (s.decoded c len off).Decoding :=
        hd.congr rfl rfl rfl rfl rfl rfl rfl (Nat.le_add_right_of_le hip) hsz hd.opLow hd.opHigh
      have hudd : (s.decoded c len off).Decoded :=
        ⟨hip, show s.wr.ip < s.wr.ip + c.row.size by omega, hl1, hl2, ho⟩
      have hur : RaisedFrom s (s.decoded c len off) := by
        refine ⟨rfl, rfl, rfl, rfl, rfl, rfl, rfl, rfl, rfl, ?_, fun b => ?_⟩
        · cases hk : c.row.kind <;> simp only [State.unspecifiedOnFault, hst, hk]
        · exact { b with
            ip := show s.wr.ip + c.row.size ≤ intMax by omega, opc := b.ip, len := hl2, off := ho, cls := index_le c }
      have ran : ∀ {t pos out}, RanFrom (s.decoded c len off) t pos out → RanFrom s t pos out ∧ s.wr.ip < t.wr.ip := by
        intro t pos out r
        have h := r.ipMoves
        have h' : s.wr.ip + c.row.size ≤ t.wr.ip := h
        exact ⟨⟨r.st, r.cr, r.table, r.turns, r.readData, r.draws, r.istart, r.iend, r.ostart, r.oend, r.olimit, r.ulen, r.ip,
          r.op, r.ipHigh, by omega, r.opMoves, r.opHigh, fun b => r.bounded (hur.bounded b), r.memory, r.stamps, r.written,
          r.outside⟩, by omega⟩
      have epos : (s.decoded c len off).wr.ip - (s.decoded c len off).wr.istart = s.wr.ip - s.wr.istart + c.row.size := by
        show s.wr.ip + c.row.size - s.wr.istart = _; omega
      cases hk : c.row.kind with
      | literal =>
        have key := emitLiteral_run hud hudd hw
        rw [epos] at key
        change (match runOperation s.block s.wr.ulen (s.wr.ip - s.wr.istart) (s.wr.ip - s.wr.istart + c.row.size) s.written
          .literal len off with | .ok (pos, out) => _ | .error e => _) at key
        have hoff : off = 0 := by
          cases i <;> simp only [Instr.operands, Option.some.injEq, Prod.mk.injEq, reduceCtorEq] at hop <;>
            obtain ⟨rfl, rfl, rfl⟩ := hop <;> first | rfl | simp [ClassName.row] at hk
        subst hoff
        simp only [literalOp_eq hl2]
        split at key
        · rename_i pos out hrun
          obtain ⟨t, e1, e2⟩ := key
          rw [hrun, e1]
          exact ⟨t, rfl, ran e2⟩
        · rename_i e hrun
          rw [hrun, key]
          exact ⟨_, hur, rfl⟩
      | copy =>
        have key := emitCopy_run hud hudd hw
        rw [epos] at key
        change (match runOperation s.block s.wr.ulen (s.wr.ip - s.wr.istart) (s.wr.ip - s.wr.istart + c.row.size) s.written
          .copy len off with | .ok (pos, out) => _ | .error e => _) at key
        simp only [copyOp_eq hl2 ho]
        split at key
        · rename_i pos out hrun
          obtain ⟨t, e1, e2⟩ := key
          rw [hrun, e1]
          exact ⟨t, rfl, ran e2⟩
        · rename_i e hrun
          rw [hrun, key]
          exact ⟨_, hur, rfl⟩

/-! ### READ_HEADER -/

/-- `READ_HEADER` at the start of the input view (R112). -/
theorem stepReadHeader_run {s : State} {F : FVT} (h : s.ReadyForHeader) (hF : tables[s.cr.format.toNat]? = some F) :
    match readVarint s.block with
    | .error e => stepReadHeader s = .next (s.takeError (.malformed (headerReason e) 0))
    | .ok (value, size) =>
      let u : State := { s with wr := { s.wr with ulen := value, ip := s.wr.ip + size } }
      1 ≤ size ∧ s.wr.ip + size ≤ s.wr.iend ∧ value ≤ intMax ∧
      stepReadHeader s =
        if s.cr.cmd = 3 then .next (u.complete value)
        else if value > s.wr.oend - s.wr.ostart then .next (u.takeError (.capacity .declaredExceedsCapacity))
        else .next { u with st := .readTag, wr := { u.wr with olimit := s.wr.ostart + value } } := by
  have hh := (table_constants (table_mem hF)).1
  have hip : s.wr.istart ≤ s.wr.ip := h.atStart.ge
  have hb : s.bytesFrom s.vin s.wr.ip = s.block := by rw [State.block, h.atStart]
  rw [stepReadHeader_eq hF hh hip h.input.mapped, hb]
  match hr : readVarint s.block with
  | .error e => simp only [decodeHeader, hr]
  | .ok (value, size) =>
    obtain ⟨vs, rest, e1, hs, -, rfl, -, hv⟩ := readVarint_inv hr
    have hl := congrArg List.length e1
    have hord := h.input.ordered
    rw [State.block_length, List.length_append] at hl
    have hpos : 1 ≤ vs.length := by
      cases vs with
      | nil => exact absurd hs id
      | cons _ _ => simp
    have hst := h.atStart
    refine ⟨hpos, by omega, hv, ?_⟩
    simp only [decodeHeader, hr, exec, execHdr, readHeader_eq hv, acceptLength]
    split_ifs <;> rfl

end Sys2Proof.Machine
end

