-- ==== Sys2Proof/Laws/Compressor.lean ====
section
/-! SUPPORT. The compressor: what an emission does, each once, on the bytes of the views. -/

namespace Sys2Proof.Machine

/-! ### Emission -/

/-- `t` is `s` with the bytes `bs` written at the output cursor and the cursor past them. -/
structure Emitted (s t : State) (bs : List Byte) : Prop where
  eq : t = { s with mem := t.mem, wr := { s.wr with op := s.wr.op + bs.length } }
  memory : t.mem.wf
  stamps : ∀ r ∈ t.mem.discarded, ∃ q ∈ s.mem.discarded, r.stamp = q.stamp
  bytes : ∀ k (h : k < bs.length), t.mem.read (s.phys .output (s.wr.op + k)) = bs[k]
  outside : ∀ a, (a < s.phys .output s.wr.op ∨ s.phys .output (s.wr.op + bs.length) ≤ a) → t.mem.read a = s.mem.read a

namespace Emitted

variable {s t u : State} {xs ys : List Byte}

theorem cr (h : Emitted s t xs) : t.cr = s.cr := by rw [h.eq]
theorem st (h : Emitted s t xs) : t.st = s.st := by rw [h.eq]
theorem wr (h : Emitted s t xs) : t.wr = { s.wr with op := s.wr.op + xs.length } := by rw [h.eq]
theorem phys (h : Emitted s t xs) (x : Space) (a : Nat) : t.phys x a = s.phys x a := State.phys_congr h.cr x a

theorem nil (hw : s.mem.wf) : Emitted s s [] := ⟨rfl, hw, fun r hr => ⟨r, hr, rfl⟩, fun _ h => by simp at h, fun _ _ => rfl⟩

theorem append (h : Emitted s t xs) (k : Emitted t u ys) : Emitted s u (xs ++ ys) := by
  refine ⟨?_, k.memory, ?_, ?_, ?_⟩
  · rw [k.eq, h.eq, List.length_append, Nat.add_assoc]
  · intro r hr
    obtain ⟨q, hq, e⟩ := k.stamps r hr
    obtain ⟨p, hp, e'⟩ := h.stamps q hq
    exact ⟨p, hp, e.trans e'⟩
  · intro i hi
    have hop : t.wr.op = s.wr.op + xs.length := by rw [h.wr]
    by_cases hx : i < xs.length
    · rw [List.getElem_append_left hx, k.outside, h.bytes i hx]
      rw [h.phys, hop]; exact .inl ((State.phys_lt s .output).2 (by omega))
    · rw [List.getElem_append_right (by omega)]
      have hi' : i - xs.length < ys.length := by rw [List.length_append] at hi; omega
      have := k.bytes _ hi'
      rw [h.phys, hop, show s.wr.op + xs.length + (i - xs.length) = s.wr.op + i by omega] at this
      exact this
  · intro a ha
    have hop : t.wr.op = s.wr.op + xs.length := by rw [h.wr]
    rw [List.length_append] at ha
    rw [k.outside, h.outside]
    · rcases ha with ha | ha
      · exact .inl ha
      · exact .inr (Nat.le_trans ((State.phys_le s .output).2 (by omega)) ha)
    · rw [h.phys, h.phys, hop]
      rcases ha with ha | ha
      · exact .inl (Nat.lt_of_lt_of_le ha ((State.phys_le s .output).2 (by omega)))
      · exact .inr (Nat.le_trans ((State.phys_le s .output).2 (by omega)) ha)

/-- A flow that writes the bytes at the output cursor and moves the cursor. -/
theorem of_same {v : State} {n : Nat} (hv : SameButMemory s v) (hw : s.mem.wf) (hn : xs.length = n)
    (h1 : ∀ k (h : k < xs.length), v.mem.read (s.phys .output (s.wr.op + k)) = xs[k])
    (h2 : ∀ a, (a < s.phys .output s.wr.op ∨ s.phys .output (s.wr.op + n) ≤ a) → v.mem.read a = s.mem.read a) :
    Emitted s { v with wr := { v.wr with op := v.wr.op + n } } xs := by
  subst hn
  refine ⟨?_, hv.wf hw, hv.stamps, h1, h2⟩
  have e := hv.eq
  generalize v.mem = m at *
  subst e
  rfl

end Emitted

theorem State.Compressing.congr {s t : State} (h : s.Compressing) (e : t.cr = s.cr) (e1 : t.wr.istart = s.wr.istart)
    (e2 : t.wr.iend = s.wr.iend) (e3 : t.wr.ostart = s.wr.ostart) (e4 : t.wr.olimit = s.wr.olimit)
    (h1 : s.wr.ostart ≤ t.wr.op) (h2 : t.wr.op ≤ s.wr.olimit) : t.Compressing :=
  ⟨by rw [e]; exact h.command, by rw [e]; exact h.table, h.input.congr e e1 e2, by rw [e4]; exact h.output.congr e e3,
    by rw [e4]; exact h.apart.congr e e1 e2 e3, by rw [e4, e3, e2, e1]; exact h.bound, by omega, by omega⟩

/-- The invariants of R12 after an emission that fits. -/
theorem Emitted.compressing {s t : State} {bs : List Byte} (h : Emitted s t bs) (hc : s.Compressing)
    (hf : s.wr.op + bs.length ≤ s.wr.olimit) : t.Compressing := by
  have := hc.opLow
  have e := h.wr
  apply hc.congr h.cr <;> rw [e] <;> simp only <;> omega

/-- An emission leaves the input view alone. -/
theorem Emitted.inByte {s t : State} {bs : List Byte} (h : Emitted s t bs) (hc : s.Compressing)
    (hf : s.wr.op + bs.length ≤ s.wr.olimit) {a : Nat} (h1 : s.wr.istart ≤ a) (h2 : a < s.wr.iend) :
    t.inByte a = s.inByte a := by
  simp only [State.inByte, h.phys]
  refine h.outside _ ?_
  by_contra hcon
  have := hc.opLow
  refine hc.apart a (s.wr.op + (s.phys .input a - s.phys .output s.wr.op)) h1 h2 (by omega) ?_ ?_
  · simp only [State.phys] at hcon ⊢; omega
  · rw [State.phys_add]; omega

theorem Emitted.block {s t : State} {bs : List Byte} (h : Emitted s t bs) (hc : s.Compressing)
    (hf : s.wr.op + bs.length ≤ s.wr.olimit) : t.block = s.block := by
  have e := h.wr
  apply List.ext_getElem
  · simp only [State.block_length, e]
  · intro k k1 k2
    rw [State.block_getElem, State.block_getElem, e]
    rw [State.block_length] at k2
    exact h.inByte hc hf (by simp only; omega) (by simp only; omega)

theorem reserve_ok {k : Nat} {s : State} (h : k ≤ s.wr.olimit - s.wr.op) : reserve k s = .ok () := by
  simp only [reserve]; rw [if_neg (by omega)]

theorem reserve_overrun {k : Nat} {s : State} (h : s.wr.olimit - s.wr.op < k) :
    reserve k s = .error (.raised (.capacity .emissionOverrun) s) := by
  simp only [reserve]; rw [if_pos h]; rfl

theorem emitBytes_ok {bs : List Byte} {s : State} (hw : s.mem.wf) (h1 : s.wr.ostart ≤ s.wr.op)
    (h2 : s.wr.op + bs.length ≤ s.wr.olimit) (hm : s.phys .output s.wr.olimit ≤ 2 ^ Config.paddrBits) :
    ∃ t, emitBytes bs s = .ok t ∧ Emitted s t bs := by
  obtain ⟨t, e, hs, hb⟩ := State.bvWriteBytes_ok (V := s.vlim) (s := s) bs h1 h2 hm
  obtain ⟨hb1, hb2⟩ := hb hw
  refine ⟨{ t with wr := { t.wr with op := t.wr.op + bs.length } }, ?_, .of_same hs hw rfl hb1 hb2⟩
  simp only [emitBytes, e, Flow.ok_bind]

/-- One piece of a literal run (R158). -/
theorem literalPiece_ok {F : FVT} (hF : F ∈ tables) {a L : Nat} {s : State} (hw : s.mem.wf) (hc : s.Compressing)
    (h1 : s.wr.istart ≤ a) (h2 : a + L ≤ s.wr.iend) (hL : 1 ≤ L) :
    ∃ n : ClassName, F.choose .literal L 0 = some n.row ∧
      let bytes := n.row.encode L 0 ++ (s.block.drop (a - s.wr.istart)).take L
      (s.wr.op + bytes.length ≤ s.wr.olimit → ∃ t, literalPiece F a L s = .ok t ∧ Emitted s t bytes) ∧
      (s.wr.olimit < s.wr.op + bytes.length → literalPiece F a L s = .error (.raised (.capacity .emissionOverrun) s)) := by
  have hi := hc.input.iend_le
  have ho := hc.output.lim_le
  have hop := hc.opLow
  obtain ⟨n, hn, -, -, -⟩ := choose_literal_some hF hL (by omega)
  have hlen : ((s.block.drop (a - s.wr.istart)).take L).length = L := by simp; omega
  have hop2 := hc.opHigh
  refine ⟨n, hn, fun hfit => ?_, fun hover => ?_⟩
  · rw [List.length_append, encode_length, hlen] at hfit
    obtain ⟨t, e, he⟩ := emitBytes_ok (bs := n.row.encode L 0) hw hop (by rw [encode_length]; omega) hc.output.mapped
    have tw := he.wr
    rw [encode_length] at tw
    have tc := he.compressing hc (by rw [encode_length]; omega)
    have hcopy := State.bvCopyLiteral_ok (s := t) (Vd := t.vlim) (Vs := t.vin) (d := t.wr.op) (a := a) (n := L)
      (show t.wr.istart ≤ a by rw [tw]; exact h1) (show a + L ≤ t.wr.iend by rw [tw]; exact h2)
      (show t.wr.iend ≤ intMax by rw [tw]; exact hi) tc.opLow (show t.wr.op + L ≤ t.wr.olimit by rw [tw]; simp only; omega)
      (show t.wr.olimit ≤ intMax by rw [tw]; exact ho) tc.input.mapped tc.output.mapped
    have hs := State.moveBytes_same .output .input L t.wr.op a t
    refine ⟨{ State.moveBytes .output .input L t.wr.op a t with
      wr := { (State.moveBytes .output .input L t.wr.op a t).wr with
        op := (State.moveBytes .output .input L t.wr.op a t).wr.op + L } }, ?_, he.append (.of_same hs he.memory hlen ?_ ?_)⟩
    · simp only [literalPiece, hn, reserve_ok (show n.row.size + L ≤ s.wr.olimit - s.wr.op by omega), e, Flow.ok_bind]
      rw [hcopy]; rfl
    · intro k hk
      rw [hlen] at hk
      rw [List.getElem_take, List.getElem_drop, State.block_getElem]
      have hap := State.moveBytes_apart (xd := .output) (xs := .input) (d := t.wr.op) (a := a) he.memory
        (fun i j hi hj => tc.apart (a + i) (t.wr.op + j) (show t.wr.istart ≤ _ by rw [tw]; simp only; omega)
          (show _ < t.wr.iend by rw [tw]; simp only; omega) (show t.wr.ostart ≤ _ by rw [tw]; simp only; omega)
          (show _ < t.wr.olimit by rw [tw]; simp only; omega)) hk
      rw [hap, show s.wr.istart + (a - s.wr.istart + k) = a + k by omega]
      exact he.inByte hc (by rw [encode_length]; omega) (by omega) (by omega)
    · intro p hp
      exact State.moveBytes_outside he.memory hp
  · rw [List.length_append, encode_length, hlen] at hover
    simp only [literalPiece, hn, reserve_overrun (show s.wr.olimit - s.wr.op < n.row.size + L by omega), Flow.error_bind]

/-- A literal run (R158, R159) writes its bytes, or overruns. -/
theorem literalRun_ok {F : FVT} (hF : F ∈ tables) {b : Nat} (fuel : Nat) {a : Nat} {s : State} (hw : s.mem.wf) (hc : s.Compressing)
    (h1 : s.wr.istart ≤ a) (h2 : b ≤ s.wr.iend) :
    let bytes := literalRunBytes F s.block (b - s.wr.istart) fuel (a - s.wr.istart)
    (s.wr.op + bytes.length ≤ s.wr.olimit → ∃ t, literalRun F b fuel a s = .ok t ∧ Emitted s t bytes) ∧
    (s.wr.olimit < s.wr.op + bytes.length →
      ∃ t bs, literalRun F b fuel a s = .error (.raised (.capacity .emissionOverrun) t) ∧ Emitted s t bs ∧
        s.wr.op + bs.length ≤ s.wr.olimit) := by
  have hop2 := hc.opHigh
  induction fuel generalizing a s with
  | zero => exact ⟨fun _ => ⟨s, rfl, .nil hw⟩, fun h => by simp only [literalRunBytes, List.length_nil] at h; omega⟩
  | succ fuel ih =>
    by_cases hab : a < b
    · have hi := hc.input.iend_le
      simp only [literalRun, literalRunBytes]
      rw [if_pos hab, if_pos (by omega), maxLen_literal hF]
      rw [show min (b - s.wr.istart - (a - s.wr.istart)) intMax = min (b - a) intMax by omega]
      generalize hL : min (b - a) intMax = L
      have hL1 : 1 ≤ L := by rw [← hL]; simp only [intMax]; omega
      have hL2 : L ≤ b - a := by rw [← hL]; exact Nat.min_le_left _ _
      obtain ⟨n, hn, hok, hov⟩ := literalPiece_ok hF hw hc h1 (show a + L ≤ s.wr.iend by omega) hL1
      simp only [hn]
      generalize hP : n.row.encode L 0 ++ (s.block.drop (a - s.wr.istart)).take L = P at *
      rw [show a - s.wr.istart + L = a + L - s.wr.istart by omega]
      by_cases hfit : s.wr.op + P.length ≤ s.wr.olimit
      · obtain ⟨t, e, he⟩ := hok hfit
        have tc := he.compressing hc hfit
        have tb := he.block hc hfit
        have tw := he.wr
        have := ih (a := a + L) he.memory tc (show t.wr.istart ≤ _ by rw [tw]; simp only; omega)
          (show b ≤ t.wr.iend by rw [tw]; exact h2) tc.opHigh
        rw [tb, tw] at this
        simp only at this
        obtain ⟨k1, k2⟩ := this
        rw [e, Flow.ok_bind, List.length_append]
        refine ⟨fun h => ?_, fun h => ?_⟩
        · obtain ⟨u, e', he'⟩ := k1 (by omega)
          exact ⟨u, e', he.append he'⟩
        · obtain ⟨u, bs, e', he', hl⟩ := k2 (by omega)
          exact ⟨u, P ++ bs, e', he.append he', by rw [List.length_append]; omega⟩
      · rw [hov (by omega), Flow.error_bind, List.length_append]
        exact ⟨fun h => by omega, fun _ => ⟨s, [], rfl, .nil hw, hop2⟩⟩
    · simp only [literalRun, literalRunBytes]
      rw [if_neg hab, if_neg (by omega)]
      exact ⟨fun _ => ⟨s, rfl, .nil hw⟩, fun h => by simp only [List.length_nil] at h; omega⟩

/-- A copy emission (R160). -/
theorem copyEmission_ok {F : FVT} (hF : F ∈ tables) {len off : Nat} {s : State} (hw : s.mem.wf) (hc : s.Compressing)
    (h1 : 4 ≤ len) (h2 : len ≤ F.maxLen .copy) (h3 : off ≤ 65535) :
    let bytes := copyBytes F len off
    (s.wr.op + bytes.length ≤ s.wr.olimit → ∃ t, copyEmission F len off s = .ok t ∧ Emitted s t bytes) ∧
    (s.wr.olimit < s.wr.op + bytes.length →
      copyEmission F len off s = .error (.raised (.capacity .emissionOverrun) s)) := by
  obtain ⟨n, hn, -, -, -⟩ := choose_copy_some hF h1 h2 h3
  have hop2 := hc.opHigh
  simp only [copyBytes, copyEmission, hn, encode_length]
  refine ⟨fun h => ?_, fun h => ?_⟩
  · rw [reserve_ok (by omega), Flow.ok_bind]
    exact emitBytes_ok hw hc.opLow (by rw [encode_length]; exact h) hc.output.mapped
  · rw [reserve_overrun (by omega), Flow.error_bind]

/-- The header of a block (R143). -/
theorem emitHeader_ok {F : FVT} (hF : F.hasHeader = true) {s : State} (hw : s.mem.wf) (h1 : s.wr.ostart ≤ s.wr.op)
    (h2 : s.wr.op + (shortestVarint (s.wr.iend - s.wr.istart)).length ≤ s.wr.olimit)
    (hm : s.phys .output s.wr.olimit ≤ 2 ^ Config.paddrBits) :
    ∃ t, emitHeader F s = .ok t ∧ Emitted s t (shortestVarint (s.wr.iend - s.wr.istart)) := by
  simp only [emitHeader, hF, if_true]
  rw [reserve_ok (by omega), Flow.ok_bind]
  exact emitBytes_ok hw h1 h2 hm

/-! ### The transitions -/

/-- `C_EMIT` (R156) writes the pending literal run and the copy, or overruns. -/
theorem cEmit_ok {F : FVT} (hF : F ∈ tables) {s : State} (hw : s.mem.wf) (hc : s.Compressing) (hm : s.Matched F) :
    let bytes := literalRunBytes F s.block (s.wr.ip - s.wr.istart) (s.wr.ip - s.wr.anchor) (s.wr.anchor - s.wr.istart) ++
      copyBytes F s.wr.mlen (s.wr.ip - s.wr.cand)
    (s.wr.op + bytes.length ≤ s.wr.olimit → ∃ t, Emitted s t bytes ∧
      cEmit F s = .ok { t with
        st := .cScan, wr := { t.wr with ip := t.wr.ip + t.wr.mlen, anchor := t.wr.ip + t.wr.mlen } }) ∧
    (s.wr.olimit < s.wr.op + bytes.length →
      ∃ t bs, cEmit F s = .error (.raised (.capacity .emissionOverrun) t) ∧ Emitted s t bs ∧
        s.wr.op + bs.length ≤ s.wr.olimit) := by
  obtain ⟨-, c2, c3, c4, c5⟩ := table_constants hF
  have m6 := hm.lenLow
  have m5 := hm.near
  have m8 := hm.inside
  simp only [c2, c3, Config.window] at m5 m6
  obtain ⟨k1, k2⟩ := literalRun_ok hF (b := s.wr.ip) (s.wr.ip - s.wr.anchor) hw hc hm.anchorLow (by omega)
  generalize literalRunBytes F s.block (s.wr.ip - s.wr.istart) (s.wr.ip - s.wr.anchor) (s.wr.anchor - s.wr.istart) = P at *
  have run : s.wr.op + P.length ≤ s.wr.olimit →
      ∃ t, literalRun F s.wr.ip (s.wr.ip - s.wr.anchor) s.wr.anchor s = .ok t ∧ Emitted s t P ∧
      (s.wr.op + P.length + (copyBytes F s.wr.mlen (s.wr.ip - s.wr.cand)).length ≤ s.wr.olimit →
        ∃ u, copyEmission F t.wr.mlen (t.wr.ip - t.wr.cand) t = .ok u ∧
          Emitted t u (copyBytes F s.wr.mlen (s.wr.ip - s.wr.cand))) ∧
      (s.wr.olimit < s.wr.op + P.length + (copyBytes F s.wr.mlen (s.wr.ip - s.wr.cand)).length →
        copyEmission F t.wr.mlen (t.wr.ip - t.wr.cand) t = .error (.raised (.capacity .emissionOverrun) t)) := by
    intro h
    obtain ⟨t, e, he⟩ := k1 h
    have tw := he.wr
    have := copyEmission_ok hF (len := s.wr.mlen) (off := s.wr.ip - s.wr.cand) he.memory (he.compressing hc h)
      (by omega) hm.lenHigh (by omega)
    rw [tw] at this
    refine ⟨t, e, he, ?_⟩
    rw [tw]
    exact this
  generalize copyBytes F s.wr.mlen (s.wr.ip - s.wr.cand) = Q at *
  have hlen : (P ++ Q).length = P.length + Q.length := List.length_append
  refine ⟨fun h => ?_, fun h => ?_⟩
  · obtain ⟨t, e, he, q1, -⟩ := run (by omega)
    obtain ⟨u, e', he'⟩ := q1 (by omega)
    exact ⟨u, he.append he', by simp only [cEmit, e, e', Flow.ok_bind]⟩
  · by_cases hf : s.wr.op + P.length ≤ s.wr.olimit
    · obtain ⟨t, e, he, -, q2⟩ := run hf
      exact ⟨t, P, by simp only [cEmit, e, Flow.ok_bind, q2 (by omega), Flow.error_bind], he, hf⟩
    · obtain ⟨t, bs, e, he, hl⟩ := k2 (by omega)
      exact ⟨t, bs, by simp only [cEmit, e, Flow.error_bind], he, hl⟩

/-- `C_TAIL` (R157) writes the last literal run and ends, or overruns. -/
theorem cTail_ok {F : FVT} (hF : F ∈ tables) {s : State} (hw : s.mem.wf) (hc : s.Compressing) (ha : s.wr.istart ≤ s.wr.anchor) :
    let bytes := literalRunBytes F s.block (s.wr.iend - s.wr.istart) (s.wr.iend - s.wr.anchor) (s.wr.anchor - s.wr.istart)
    (s.wr.op + bytes.length ≤ s.wr.olimit → ∃ t, Emitted s t bytes ∧
      cTail F s = .ok (t.complete (t.wr.op - t.wr.ostart))) ∧
    (s.wr.olimit < s.wr.op + bytes.length →
      ∃ t bs, cTail F s = .error (.raised (.capacity .emissionOverrun) t) ∧ Emitted s t bs ∧
        s.wr.op + bs.length ≤ s.wr.olimit) := by
  obtain ⟨k1, k2⟩ := literalRun_ok hF (b := s.wr.iend) (s.wr.iend - s.wr.anchor) hw hc ha (Nat.le_refl _)
  refine ⟨fun h => ?_, fun h => ?_⟩
  · obtain ⟨t, e, he⟩ := k1 h
    exact ⟨t, he, by simp only [cTail, e, Flow.ok_bind]⟩
  · obtain ⟨t, bs, e, he, hl⟩ := k2 h
    exact ⟨t, bs, by simp only [cTail, e, Flow.error_bind], he, hl⟩

/-- The window at `ip` (R98). -/
theorem bvWindow_ok {s : State} (h1 : s.wr.istart ≤ s.wr.ip) (h2 : 4 ≤ s.wr.iend - s.wr.ip)
    (hm : s.phys .input s.wr.iend ≤ 2 ^ Config.paddrBits) :
    s.bvWindow s.vin s.wr.ip = .ok (windowAt s.inByte s.wr.ip) := by
  rw [State.bvWindow, State.fetch_ok (V := s.vin) hm _ _ h1,
    show min Config.window (s.vin.limit - s.wr.ip) = 4 by show min 4 (s.wr.iend - s.wr.ip) = 4; omega]
  rfl

/-- `C_SCAN` with a whole window left (R148 to R151): the table's entry is replaced, and the candidate is tried. -/
theorem cScan_window {F : FVT} {h : List Byte → Nat → Nat} {s : State} (h1 : s.wr.istart ≤ s.wr.ip)
    (h2 : 4 ≤ s.wr.iend - s.wr.ip) (hm : s.phys .input s.wr.iend ≤ 2 ^ Config.paddrBits) :
    let slot := h (windowAt s.inByte s.wr.ip) s.wr.ts
    let t := { s with table := s.table.set slot (some s.wr.ip) }
    cScan F h s =
      match findMatch F s.inByte s.wr.istart s.wr.iend s.wr.anchor s.wr.ip ((s.table[slot]?).getD none) with
      | none => .ok { t with wr := { t.wr with ip := t.wr.ip + 1 } }
      | some (p, cand, mlen) => .ok { t with wr := { t.wr with ip := p, cand := cand, mlen := mlen }, st := .cEmit } := by
  have hwin : Config.window = 4 := rfl
  simp only [cScan]
  rw [if_neg (by omega), bvWindow_ok h1 h2 hm, Flow.ok_bind]
  rfl

end Sys2Proof.Machine
end

