-- ==== Sys2Proof/Laws/Invariant.lean ====
section
/-! SUPPORT. The invariant, piece by piece: what keeps it through an error, an end, an operation, an emission and a host's move. -/

namespace Sys2Proof.Machine

/-! ### Latches -/

theorem Error.kindCode_range (e : Error) : 1 ≤ e.kindCode ∧ e.kindCode ≤ 3 := by cases e <;> simp [Error.kindCode]

theorem State.LatchOk.busy {s t : State} (h : s.LatchOk) (h1 : s.st ≠ .done) (h2 : s.st ≠ .fault) (e : t.cr = s.cr)
    (h4 : t.st ≠ .fault) : t.LatchOk := by
  have hz := (h.kind.not).2 h2
  refine ⟨fun _ => by rw [e]; exact h.result h1, by rw [e]; exact h.resultHigh, ?_, fun _ => by rw [e]; exact h.reason h2⟩
  rw [e]
  exact ⟨fun hk => absurd hk hz, fun hk => absurd hk h4⟩

theorem State.LatchOk.takeError (u : State) (e : Error) : (u.takeError e).LatchOk := by
  have hk := e.kindCode_range
  refine ⟨fun _ => by rw [State.takeError_cr]; rfl, by rw [State.takeError_cr]; simp, ?_, fun h => absurd (State.takeError_st u e) h⟩
  rw [State.takeError_cr, State.takeError_st]
  refine ⟨fun _ => rfl, fun _ h => ?_⟩
  have := congrArg BitVec.toNat h
  simp at this
  omega

theorem State.LatchOk.complete {s : State} (h : s.LatchOk) (h2 : s.st ≠ .fault) {v : Nat} (hv : v ≤ intMax) :
    (s.complete v).LatchOk := by
  have hz := (h.kind.not).2 h2
  refine ⟨fun hd => absurd rfl hd, ?_, ⟨fun hk => absurd hk hz, fun hk => by simp at hk⟩, fun _ => h.reason h2⟩
  simp only [State.complete_cr, BitVec.toNat_ofNat]
  exact Nat.le_trans (Nat.mod_le _ _) hv

/-! ### Errors and ends -/

theorem stamps_of {s t : State} (h : ∀ r ∈ s.mem.discarded, r.stamp < s.draws)
    (hs : ∀ r ∈ t.mem.discarded, ∃ q ∈ s.mem.discarded, r.stamp = q.stamp) (hd : s.draws ≤ t.draws) :
    ∀ r ∈ t.mem.discarded, r.stamp < t.draws := by
  intro r hr
  obtain ⟨q, hq, e⟩ := hs r hr
  have := h q hq
  omega

/-- Taking an error keeps the invariant. -/
theorem State.takeError_inv {u : State} (h1 : u.mem.wf) (h2 : ∀ r ∈ u.mem.discarded, r.stamp < u.draws)
    (h3 : u.cr.inCtl &&& ~~~3 = 0 ∧ u.cr.outCtl &&& ~~~3 = 0) (h4 : u.wr.Bounded) (h5 : ∀ t ∈ u.turns, t.inRange) (e : Error) :
    (u.takeError e).Inv := by
  have hmem : (u.takeError e).mem.wf ∧ ∀ r ∈ (u.takeError e).mem.discarded, r.stamp < (u.takeError e).draws := by
    simp only [State.takeError]
    split
    · refine ⟨Memory.wf_discard h1 _ _ _ fun r hr => Nat.ne_of_lt (h2 r hr), fun r hr => ?_⟩
      simp only [State.latchError_draws, State.discardOutput_draws]
      rcases Memory.stamps_discard hr with h | ⟨q, hq, h⟩
      · omega
      · have := h2 q hq; omega
    · exact ⟨h1, h2⟩
  refine ⟨hmem.1, hmem.2, by rw [State.takeError_cr]; exact h3, .takeError u e, by rw [State.takeError_wr]; exact h4, ?_,
    by rw [State.takeError_turns]; exact h5⟩
  simp only [State.PhaseOk, State.takeError_st]

theorem State.Inv.takeError {s : State} (h : s.Inv) (e : Error) : (s.takeError e).Inv :=
  State.takeError_inv h.memory h.stamps h.reserved h.registers h.turns e

theorem RaisedFrom.inv {s u : State} (r : RaisedFrom s u) (h : s.Inv) (e : Error) : (u.takeError e).Inv :=
  State.takeError_inv (by rw [r.mem]; exact h.memory) (by rw [r.mem, r.draws]; exact h.stamps) (by rw [r.cr]; exact h.reserved)
    (r.bounded h.registers) (by rw [r.turns]; exact h.turns) e

theorem State.Inv.complete {s : State} (h : s.Inv) (h2 : s.st ≠ .fault) {v : Nat} (hv : v ≤ intMax) : (s.complete v).Inv :=
  ⟨h.memory, h.stamps, h.reserved, h.latch.complete h2 hv, h.registers, by simp only [State.PhaseOk, State.complete_st], h.turns⟩

/-- An operation of DECOMPRESS keeps the invariant. -/
theorem RanFrom.inv {s t : State} {pos : Nat} {out : List Byte} (r : RanFrom s t pos out) (h : s.Inv) (hd : s.Decoding)
    (h1 : s.st ≠ .done) (h2 : s.st ≠ .fault) : t.Inv := by
  have i1 := r.ipMoves
  have i2 := r.opMoves
  have i3 := hd.ipLow
  have i4 := hd.opLow
  refine ⟨r.memory, stamps_of h.stamps r.stamps (by rw [r.draws]), by rw [r.cr]; exact h.reserved,
    h.latch.busy h1 h2 r.cr (by rw [r.st]; decide), r.bounded h.registers, ?_, by rw [r.turns]; exact h.turns⟩
  simp only [State.PhaseOk, r.st]
  exact hd.congr r.cr r.istart r.iend r.ostart r.oend r.olimit r.ulen (by omega) r.ipHigh (by omega) r.opHigh

/-! ### Emissions -/

theorem Emitted.draws {s t : State} {bs : List Byte} (h : Emitted s t bs) : t.draws = s.draws := by rw [h.eq]
theorem Emitted.turns {s t : State} {bs : List Byte} (h : Emitted s t bs) : t.turns = s.turns := by rw [h.eq]
theorem Emitted.table {s t : State} {bs : List Byte} (h : Emitted s t bs) : t.table = s.table := by rw [h.eq]

/-- An error raised after an emission that fitted. -/
theorem Emitted.takeError_inv {s t : State} {bs : List Byte} (he : Emitted s t bs) (h : s.Inv) (hc : s.Compressing)
    (hf : s.wr.op + bs.length ≤ s.wr.olimit) (e : Error) : (t.takeError e).Inv := by
  have hl := hc.output.lim_le
  refine State.takeError_inv he.memory (stamps_of h.stamps he.stamps (by rw [he.draws])) (by rw [he.cr]; exact h.reserved) ?_
    (by rw [he.turns]; exact h.turns) e
  rw [he.wr]
  exact { h.registers with op := show s.wr.op + bs.length ≤ intMax by omega }

/-! ### States that differ in what no rule of the phase reads -/

theorem State.ReadyForHeader.congr {s t : State} (h : s.ReadyForHeader) (e : t.cr = s.cr) (ew : t.wr = s.wr) :
    t.ReadyForHeader := by
  refine ⟨by rw [e]; exact h.table, h.input.congr e (by rw [ew]) (by rw [ew]), by rw [ew]; exact h.atStart, ?_⟩
  rw [e]
  rcases h.command with hc | ⟨hc, ho, hp, ha⟩
  · exact .inl hc
  · exact .inr ⟨hc, by rw [ew]; exact ho.congr e (by rw [ew]), by rw [ew]; exact hp,
      by rw [ew]; exact ha.congr e (by rw [ew]) (by rw [ew]) (by rw [ew])⟩

theorem State.Decoded.congr {s t : State} (h : s.Decoded) (ew : t.wr = s.wr) : t.Decoded := by
  constructor <;> rw [ew]
  · exact h.opcLow
  · exact h.opcHigh
  · exact h.lenLow
  · exact h.lenHigh
  · exact h.offHigh

theorem State.TableBelow.congr {s t : State} {p : Nat} (h : s.TableBelow p) (ew : t.wr = s.wr) (et : t.table = s.table) :
    t.TableBelow p :=
  ⟨by rw [et, ew]; exact h.size, by rw [ew]; exact h.choice, by rw [et, ew]; exact h.entries⟩

theorem State.Scanning.congr {s t : State} (h : s.Scanning) (ew : t.wr = s.wr) (et : t.table = s.table) : t.Scanning :=
  ⟨by rw [ew]; exact h.anchorLow, by rw [ew]; exact h.anchorHigh, by rw [ew]; exact h.ipHigh,
    by rw [ew]; exact h.table.congr ew et⟩

theorem State.Matched.congr {s t : State} {F : FVT} (h : s.Matched F) (ew : t.wr = s.wr) (et : t.table = s.table)
    (hb : ∀ a, s.wr.istart ≤ a → a < s.wr.iend → t.inByte a = s.inByte a) : t.Matched F := by
  refine ⟨by rw [ew]; exact h.anchorLow, by rw [ew]; exact h.anchorHigh, by rw [ew]; exact h.candLow,
    by rw [ew]; exact h.candHigh, by rw [ew]; exact h.near, by rw [ew]; exact h.lenLow, by rw [ew]; exact h.lenHigh,
    by rw [ew]; exact h.inside, ?_, by rw [ew]; exact h.table.congr ew et⟩
  have h1 := h.candLow
  have h2 := h.candHigh
  have h3 := h.inside
  intro i hi
  rw [ew] at hi ⊢
  rw [hb _ (by omega) (by omega), hb _ (by omega) (by omega)]
  exact h.equal i hi

/-- What a phase asks rests on the registers, the table and the bytes of the input view. -/
theorem State.PhaseOk.congr {s t : State} (h : s.PhaseOk) (es : t.st = s.st) (e : t.cr = s.cr) (ew : t.wr = s.wr)
    (et : t.table = s.table)
    (hb : s.busy = true → s.st ≠ .argcheck → ∀ a, s.wr.istart ≤ a → a < s.wr.iend → t.inByte a = s.inByte a) : t.PhaseOk := by
  have dec : s.Decoding → t.Decoding := fun h => h.congr e (by rw [ew]) (by rw [ew]) (by rw [ew]) (by rw [ew]) (by rw [ew])
    (by rw [ew]) (by rw [ew]; exact h.ipLow) (by rw [ew]; exact h.ipHigh) (by rw [ew]; exact h.opLow) (by rw [ew]; exact h.opHigh)
  have comp : s.Compressing → t.Compressing := fun h => h.congr e (by rw [ew]) (by rw [ew]) (by rw [ew]) (by rw [ew])
    (by rw [ew]; exact h.opLow) (by rw [ew]; exact h.opHigh)
  simp only [State.PhaseOk, es] at h ⊢
  cases hs : s.st <;> simp only [hs] at h ⊢
  · exact h.congr e ew
  · exact dec h
  · exact ⟨dec h.1, h.2.congr ew⟩
  · exact ⟨dec h.1, h.2.congr ew⟩
  · exact ⟨comp h.1, by rw [ew]; exact h.2⟩
  · exact ⟨comp h.1, h.2.congr ew et⟩
  · refine ⟨comp h.1, fun F hF => ?_⟩
    rw [e] at hF
    exact (h.2 F hF).congr ew et (hb (by simp only [State.busy, hs]; rfl) (by rw [hs]; decide))
  · exact ⟨comp h.1, h.2.congr ew et⟩

/-- While a command runs past `ARGCHECK`, its input view is the range its registers name. -/
theorem State.PhaseOk.inputRange {s : State} (h : s.PhaseOk) (hb : s.busy = true) (ha : s.st ≠ .argcheck) {a : Nat}
    (h1 : s.wr.istart ≤ a) (h2 : a < s.wr.iend) : inSpan (s.phys .input a) s.inputRange = true := by
  have key : s.InputOk ∧ (s.cr.cmd = 2 ∨ s.cr.cmd = 3 ∨ s.cr.cmd = 4) := by
    simp only [State.PhaseOk] at h
    simp only [State.busy] at hb
    cases hs : s.st <;> simp only [hs] at h hb ha
    all_goals first
      | exact absurd rfl ha
      | exact absurd hb (by decide)
      | exact ⟨h.input, h.command.elim (fun h => .inr (.inl h)) (fun h => .inr (.inr h.1))⟩
      | exact ⟨h.input, .inr (.inr h.command)⟩
      | exact ⟨h.1.input, .inr (.inr h.1.command)⟩
      | exact ⟨h.1.input, .inl h.1.command⟩
  obtain ⟨hi, hc⟩ := key
  have e1 := hi.start
  have e2 := hi.limit
  have hr : s.inputRange.1 = (s.cr.base .input : Int) + s.wr.istart ∧ s.inputRange.2 = (s.cr.base .input : Int) + s.wr.iend := by
    simp only [State.inputRange]
    rcases hc with hc | hc | hc
    · rw [if_neg (by rw [hc]; decide)] at e2
      rw [if_pos (.inl hc)]
      constructor <;> simp only <;> omega
    · rw [if_pos hc] at e2
      rw [if_neg (by rw [hc]; decide), if_pos hc]
      constructor <;> simp only <;> omega
    · rw [if_neg (by rw [hc]; decide)] at e2
      rw [if_pos (.inr hc)]
      constructor <;> simp only <;> omega
  simp only [inSpan, Bool.and_eq_true, decide_eq_true_eq, hr.1, hr.2, State.phys]
  push_cast
  omega

/-! ### What the host does -/

theorem freeInt_le (d k : Nat) : (Config.freeInt d k).toNat ≤ intMax := by
  have := (Config.freeInt d k).isLt
  simp only [intMax]; omega

theorem Working.free_bounded (d : Nat) : (Working.free d).Bounded := by
  constructor <;> exact freeInt_le _ _

theorem Working.reset_bounded : Working.reset.Bounded := by constructor <;> exact Nat.zero_le _

theorem ctlBits_reserved (v : Word) : ctlBits v &&& ~~~3 = 0 := by
  simp only [ctlBits, BitVec.and_assoc]
  rw [show (3 : Word) &&& ~~~3 = 0 by decide]
  exact BitVec.and_zero

end Sys2Proof.Machine
end

