-- ==== Sys2Proof/Laws/Confine.lean ====
section
/-! SUPPORT. Two runs of a flow of rules over memories that agree on the views: they make the same choices, and their memories go
on agreeing (R58). -/

namespace Sys2Proof.Machine

/-- Two states that differ in memory alone, and there only at addresses outside `A`. -/
structure Like (A : Nat → Prop) (s s' : State) : Prop where
  eq : s' = { s with mem := s'.mem }
  wf : s.mem.wf
  wf' : s'.mem.wf
  agree : ∀ a, A a → s'.mem.read a = s.mem.read a

/-- The bytes of the two views lie in `A`. -/
structure Views (A : Nat → Prop) (s : State) : Prop where
  input : ∀ a, s.wr.istart ≤ a → a < s.wr.iend → A (s.phys .input a)
  output : ∀ a, s.wr.ostart ≤ a → a < s.wr.olimit → A (s.phys .output a)

/-- Both flows end, or both stop for the same reason, in states that `P` relates. -/
def Flow.Rel (P Q : State → State → Prop) (f f' : Flow State) : Prop :=
  match f with
  | .ok t => ∃ t', f' = .ok t' ∧ P t t'
  | .error (.raised e t) => ∃ t', f' = .error (.raised e t') ∧ Q t t'
  | .error (.fault a) => f' = .error (.fault a)
  | .error (.refused a) => f' = .error (.refused a)

namespace Flow.Rel

variable {P P' Q Q' : State → State → Prop} {f f' : Flow State}

theorem ok {t t' : State} (h : P t t') : Flow.Rel P Q (.ok t) (.ok t') := ⟨t', rfl, h⟩
theorem raise {e : Error} {t t' : State} (h : Q t t') : Flow.Rel P Q (raise e t) (raise e t') := ⟨t', rfl, h⟩
theorem fault {a : Fault} : Flow.Rel P Q (stopFault a) (stopFault a) := rfl

theorem bind {g g' : State → Flow State} (h : f.Rel P Q f') (k : ∀ t t', P t t' → (g t).Rel P' Q (g' t')) :
    (f >>= g).Rel P' Q (f' >>= g') := by
  match f, h with
  | .ok t, ⟨t', e, h1⟩ => subst e; exact k t t' h1
  | .error (.raised _ _), ⟨t', e, h1⟩ => subst e; exact ⟨t', rfl, h1⟩
  | .error (.fault _), h => subst h; rfl
  | .error (.refused _), h => subst h; rfl

theorem imp (h : f.Rel P Q f') (hp : ∀ t t', P t t' → P' t t') (hq : ∀ t t', Q t t' → Q' t t') : f.Rel P' Q' f' := by
  match f, h with
  | .ok t, ⟨t', e, h⟩ => exact ⟨t', e, hp _ _ h⟩
  | .error (.raised _ _), ⟨t', e, h⟩ => exact ⟨t', e, hq _ _ h⟩
  | .error (.fault _), h => exact h
  | .error (.refused _), h => exact h

end Flow.Rel

namespace Like

variable {A : Nat → Prop} {s s' : State}

theorem cr (h : Like A s s') : s'.cr = s.cr := by rw [h.eq]
theorem wr (h : Like A s s') : s'.wr = s.wr := by rw [h.eq]
theorem st (h : Like A s s') : s'.st = s.st := by rw [h.eq]
theorem table (h : Like A s s') : s'.table = s.table := by rw [h.eq]
theorem draws (h : Like A s s') : s'.draws = s.draws := by rw [h.eq]
theorem turns (h : Like A s s') : s'.turns = s.turns := by rw [h.eq]
theorem readData (h : Like A s s') : s'.readData = s.readData := by rw [h.eq]
theorem phys (h : Like A s s') (x : Space) (a : Nat) : s'.phys x a = s.phys x a := State.phys_congr h.cr x a
theorem mapped (h : Like A s s') (V : View) : s'.mapped V = s.mapped V := by simp only [State.mapped, h.phys]
theorem vin (h : Like A s s') : s'.vin = s.vin := by simp only [State.vin, h.wr]
theorem vlim (h : Like A s s') : s'.vlim = s.vlim := by simp only [State.vlim, h.wr]

/-- The same byte written on both sides. -/
theorem setByte (h : Like A s s') (x : Space) (a : Nat) (b : Byte) : Like A (s.setByte x a b) (s'.setByte x a b) := by
  refine ⟨?_, Memory.wf_write h.wf _ _, Memory.wf_write h.wf' _ _, fun p hp => ?_⟩
  · simp only [State.setByte, h.cr, h.wr, h.st, h.table, h.draws, h.turns, h.readData]
  · simp only [State.setByte_mem, h.phys, Memory.read_write h.wf, Memory.read_write h.wf']
    split_ifs
    · rfl
    · exact h.agree p hp

theorem bvWriteBytes (V : View) (bs : List Byte) (a : Nat) (h : Like A s s') :
    (State.bvWriteBytes V bs a s).Rel (Like A) (fun _ _ => False) (State.bvWriteBytes V bs a s') := by
  induction bs generalizing a s s' with
  | nil => exact .ok h
  | cons b bs ih =>
    simp only [State.bvWriteBytes, State.bvWrite, h.mapped]
    by_cases h1 : a < V.start ∨ a ≥ V.limit
    · rw [if_pos h1, if_pos h1]; rfl
    · rw [if_neg h1, if_neg h1]
      by_cases h2 : s.mapped V = true
      · rw [if_pos h2, if_pos h2, Flow.ok_bind, Flow.ok_bind]
        exact ih (a + 1) (h.setByte _ _ _)
      · rw [if_neg h2, if_neg h2]; rfl

theorem moveBytes {xd xs : Space} (n d a : Nat) (h : Like A s s') (hA : ∀ i, i < n → A (s.phys xs (a + i))) :
    Like A (State.moveBytes xd xs n d a s) (State.moveBytes xd xs n d a s') := by
  induction n generalizing d a s s' with
  | zero => exact h
  | succ n ih =>
    simp only [State.moveBytes]
    have hb : s'.mem.read (s'.phys xs a) = s.mem.read (s.phys xs a) := by
      rw [h.phys]; exact h.agree _ (hA 0 (by omega))
    rw [hb]
    refine ih (d + 1) (a + 1) (h.setByte _ _ _) fun i hi => ?_
    have := hA (i + 1) (by omega)
    rwa [show a + 1 + i = a + (i + 1) by omega]

end Like

/-- A range check of two flows. -/
theorem checkRange_rel {P Q : State → State → Prop} {a n : Nat} {V : View} {f f' : Flow State} (hl : V.limit ≤ intMax)
    (h : V.start ≤ a → a + n ≤ V.limit → f.Rel P Q f') :
    (checkRange a n V >>= fun _ => f).Rel P Q (checkRange a n V >>= fun _ => f') := by
  simp only [checkRange]
  match hc : valCheck ((a : Int) - V.start) n ((V.limit : Int) - V.start) with
  | some r => rfl
  | none =>
    have := (valCheck_ok_iff (show (V.limit : Int) - V.start ≤ intMax by omega)).1 hc
    exact h (by omega) (by omega)

namespace Like

variable {A : Nat → Prop} {s s' : State}

theorem bvCopyLiteral {Vd Vs : View} {d a n : Nat} (h : Like A s s') (h1 : Vs.limit ≤ intMax) (h2 : Vd.limit ≤ intMax)
    (hA : ∀ x, Vs.start ≤ x → x < Vs.limit → A (s.phys Vs.space x)) :
    (s.bvCopyLiteral Vd d Vs a n).Rel (Like A) (fun _ _ => False) (s'.bvCopyLiteral Vd d Vs a n) := by
  simp only [State.bvCopyLiteral, h.mapped]
  refine checkRange_rel h1 fun k1 k2 => checkRange_rel h2 fun _ _ => ?_
  split_ifs
  · exact .ok <| h.moveBytes n d a fun i hi => hA _ (by omega) (by omega)
  · rfl

theorem bvCopyForward {V : View} {d a n : Nat} (h : Like A s s') (h1 : V.limit ≤ intMax)
    (hA : ∀ x, V.start ≤ x → x < V.limit → A (s.phys V.space x)) :
    (s.bvCopyForward V d a n).Rel (Like A) (fun _ _ => False) (s'.bvCopyForward V d a n) := by
  simp only [State.bvCopyForward, h.mapped]
  by_cases hc : a < V.start ∨ a ≥ d
  · rw [if_pos hc, if_pos hc]; rfl
  · rw [if_neg hc, if_neg hc]
    refine checkRange_rel h1 fun k1 k2 => ?_
    split_ifs
    · exact .ok <| h.moveBytes n d a fun i hi => hA _ (by omega) (by omega)
    · rfl

/-- Taking the same error on both sides. -/
theorem takeError (h : Like A s s') (e : Error) :
    s'.takeError e = { s.takeError e with mem := (s'.takeError e).mem } ∧
      ∀ p, A p → (s'.takeError e).mem.read p = (s.takeError e).mem.read p := by
  have hu : s'.unspecifiedOnFault = s.unspecifiedOnFault := by simp only [State.unspecifiedOnFault, h.st, h.cr, h.wr]
  simp only [State.takeError, hu]
  split
  · rename_i lo hi _
    refine ⟨?_, fun p hp => ?_⟩
    · simp only [State.latchError, State.discardOutput, h.cr, h.wr, h.table, h.draws, h.turns, h.readData]
    · simp only [State.latchError_mem, State.discardOutput_mem, h.phys, h.draws]
      by_cases hin : s.phys .output lo ≤ p ∧ p < s.phys .output hi
      · rw [Memory.read_discard_inside _ hin, Memory.read_discard_inside _ hin]
      · rw [Memory.read_discard_outside _ (by omega), Memory.read_discard_outside _ (by omega)]
        exact h.agree p hp
  · exact ⟨by simp only [State.latchError, h.cr, h.wr, h.table, h.draws, h.turns, h.readData], h.agree⟩

end Like

/-! ### The rules -/

/-- Two such states of a command whose views lie in `A`. -/
structure Twin (A : Nat → Prop) (s s' : State) : Prop where
  like : Like A s s'
  views : Views A s
  iend : s.wr.iend ≤ intMax
  olimit : s.wr.olimit ≤ intMax

namespace Twin

variable {A : Nat → Prop} {s s' : State}

/-- The same cursors moved on both sides. -/
theorem update (h : Twin A s s') {u u' : State} (em : u.mem = s.mem) (em' : u'.mem = s'.mem) (e : u' = { u with mem := u'.mem })
    (ec : u.cr = s.cr) (e1 : u.wr.istart = s.wr.istart) (e2 : u.wr.iend = s.wr.iend) (e3 : u.wr.ostart = s.wr.ostart)
    (e4 : u.wr.olimit = s.wr.olimit) : Twin A u u' :=
  ⟨⟨e, by rw [em]; exact h.like.wf, by rw [em']; exact h.like.wf', by rw [em, em']; exact h.like.agree⟩,
    ⟨fun a h1 h2 => by rw [State.phys_congr ec]; rw [e1] at h1; rw [e2] at h2; exact h.views.input a h1 h2,
      fun a h1 h2 => by rw [State.phys_congr ec]; rw [e3] at h1; rw [e4] at h2; exact h.views.output a h1 h2⟩,
    by rw [e2]; exact h.iend, by rw [e4]; exact h.olimit⟩

/-- A flow that changes memory alone keeps the views. -/
theorem of_like (h : Twin A s s') {t t' : State} (hl : Like A t t') (e : t.cr = s.cr) (ew : t.wr = s.wr) : Twin A t t' :=
  ⟨hl, ⟨fun a h1 h2 => by rw [State.phys_congr e]; rw [ew] at h1 h2; exact h.views.input a h1 h2,
    fun a h1 h2 => by rw [State.phys_congr e]; rw [ew] at h1 h2; exact h.views.output a h1 h2⟩,
    by rw [ew]; exact h.iend, by rw [ew]; exact h.olimit⟩

end Twin

/-- Two related flows, one of which keeps all but memory. -/
theorem Flow.Rel.same {A : Nat → Prop} {s s' : State} {f f' : Flow State} (h : Twin A s s')
    (hr : f.Rel (Like A) (fun _ _ => False) f') (hp : f.Post (SameButMemory s) fun _ => False) : f.Rel (Twin A) (Like A) f' := by
  match f, hr, hp with
  | .ok t, ⟨t', e, hl⟩, hp => exact ⟨t', e, h.of_like hl hp.cr hp.wr⟩
  | .error (.raised _ _), ⟨_, _, hl⟩, _ => exact hl.elim
  | .error (.fault _), hr, _ => exact hr
  | .error (.refused _), hr, _ => exact hr

namespace Twin

variable {A : Nat → Prop} {s s' : State}

theorem emitLiteral (h : Twin A s s') : (Machine.emitLiteral s).Rel (Twin A) (Like A) (Machine.emitLiteral s') := by
  have ew := h.like.wr
  have hoff : s'.opOffset = s.opOffset := by simp only [State.opOffset, ew]
  simp only [Machine.emitLiteral, ew, hoff, h.like.vin, h.like.vlim]
  by_cases h1 : s.wr.len > s.wr.iend - s.wr.ip
  · rw [if_pos h1, if_pos h1]; exact .raise h.like
  rw [if_neg h1, if_neg h1]
  by_cases h2 : s.wr.len > s.wr.olimit - s.wr.op
  · rw [if_pos h2, if_pos h2]; exact .raise h.like
  rw [if_neg h2, if_neg h2]
  refine (Flow.Rel.same h (h.like.bvCopyLiteral h.iend h.olimit h.views.input) (bvCopyLiteral_post s _ _ _ _ _)).bind
    fun t t' ht => ?_
  exact .ok (ht.update rfl rfl (by simp only [ht.like.cr, ht.like.wr, ht.like.table, ht.like.turns, ht.like.readData, ht.like.draws]) rfl rfl rfl rfl rfl)

theorem emitCopy (h : Twin A s s') : (Machine.emitCopy s).Rel (Twin A) (Like A) (Machine.emitCopy s') := by
  have ew := h.like.wr
  have hoff : s'.opOffset = s.opOffset := by simp only [State.opOffset, ew]
  simp only [Machine.emitCopy, ew, hoff, h.like.vlim]
  by_cases h0 : s.wr.off = 0
  · rw [if_pos h0, if_pos h0]; exact .raise h.like
  rw [if_neg h0, if_neg h0]
  by_cases h1 : s.wr.off > s.wr.op - s.wr.ostart
  · rw [if_pos h1, if_pos h1]; exact .raise h.like
  rw [if_neg h1, if_neg h1]
  by_cases h2 : s.wr.len > s.wr.olimit - s.wr.op
  · rw [if_pos h2, if_pos h2]; exact .raise h.like
  rw [if_neg h2, if_neg h2]
  refine (Flow.Rel.same h (h.like.bvCopyForward h.olimit h.views.output) (bvCopyForward_post s _ _ _ _)).bind
    fun t t' ht => ?_
  exact .ok (ht.update rfl rfl (by simp only [ht.like.cr, ht.like.wr, ht.like.table, ht.like.turns, ht.like.readData, ht.like.draws]) rfl rfl rfl rfl rfl)

theorem decoded (h : Twin A s s') (c : ClassName) (len off : Nat) : Twin A (s.decoded c len off) (s'.decoded c len off) := by
  exact h.update rfl rfl (by simp only [State.decoded, h.like.cr, h.like.wr, h.like.table, h.like.turns, h.like.readData, h.like.draws]) rfl rfl rfl rfl rfl

theorem reserve {k : Nat} {f f' : Flow State} (h : Twin A s s') (hf : f.Rel (Twin A) (Like A) f') :
    (Machine.reserve k s >>= fun _ => f).Rel (Twin A) (Like A) (Machine.reserve k s' >>= fun _ => f') := by
  simp only [Machine.reserve, h.like.wr]
  split_ifs
  · exact .raise h.like
  · exact hf

theorem emitBytes (bs : List Byte) (h : Twin A s s') : (Machine.emitBytes bs s).Rel (Twin A) (Like A) (Machine.emitBytes bs s') := by
  simp only [Machine.emitBytes, h.like.wr, h.like.vlim]
  refine (Flow.Rel.same h (h.like.bvWriteBytes _ _ _) (bvWriteBytes_post _ _ _ s)).bind fun t t' ht => ?_
  exact .ok (ht.update rfl rfl (by simp only [ht.like.st, ht.like.cr, ht.like.wr, ht.like.table, ht.like.turns, ht.like.readData, ht.like.draws]) rfl rfl rfl rfl rfl)

theorem literalPiece (F : FVT) (a L : Nat) (h : Twin A s s') :
    (Machine.literalPiece F a L s).Rel (Twin A) (Like A) (Machine.literalPiece F a L s') := by
  simp only [Machine.literalPiece]
  split
  · rfl
  · refine h.reserve ((h.emitBytes _).bind fun t t' ht => ?_)
    simp only [ht.like.vlim, ht.like.vin, ht.like.wr]
    refine (Flow.Rel.same ht (ht.like.bvCopyLiteral ht.iend ht.olimit ht.views.input) (bvCopyLiteral_post t _ _ _ _ _)).bind
      fun u u' hu => ?_
    exact .ok (hu.update rfl rfl (by simp only [hu.like.st, hu.like.cr, hu.like.wr, hu.like.table, hu.like.turns, hu.like.readData, hu.like.draws]) rfl rfl rfl rfl rfl)

theorem literalRun (F : FVT) (b fuel a : Nat) (h : Twin A s s') :
    (Machine.literalRun F b fuel a s).Rel (Twin A) (Like A) (Machine.literalRun F b fuel a s') := by
  induction fuel generalizing a s s' with
  | zero => exact .ok h
  | succ n ih =>
    simp only [Machine.literalRun]
    split_ifs
    · exact (h.literalPiece F _ _).bind fun t t' ht => ih _ ht
    · exact .ok h

theorem copyEmission (F : FVT) (len off : Nat) (h : Twin A s s') :
    (Machine.copyEmission F len off s).Rel (Twin A) (Like A) (Machine.copyEmission F len off s') := by
  simp only [Machine.copyEmission]
  split
  · rfl
  · exact h.reserve (h.emitBytes _)

theorem cHeader (F : FVT) (tsz : Nat → Nat) (h : Twin A s s') :
    (Machine.cHeader F tsz s).Rel (Twin A) (Like A) (Machine.cHeader F tsz s') := by
  have he : (Machine.emitHeader F s).Rel (Twin A) (Like A) (Machine.emitHeader F s') := by
    simp only [Machine.emitHeader, h.like.wr]
    split_ifs
    · exact h.reserve (h.emitBytes _)
    · exact .ok h
  refine he.bind fun t t' ht => ?_
  exact .ok (ht.update rfl rfl (by simp only [ht.like.cr, ht.like.wr, ht.like.turns, ht.like.readData, ht.like.draws]) rfl rfl rfl rfl rfl)

theorem cEmit (F : FVT) (h : Twin A s s') : (Machine.cEmit F s).Rel (Twin A) (Like A) (Machine.cEmit F s') := by
  simp only [Machine.cEmit, h.like.wr]
  refine (h.literalRun F _ _ _).bind fun t t' ht => ?_
  rw [ht.like.wr]
  refine (ht.copyEmission F _ _).bind fun u u' hu => ?_
  exact .ok (hu.update rfl rfl (by simp only [hu.like.cr, hu.like.wr, hu.like.table, hu.like.turns, hu.like.readData, hu.like.draws]) rfl rfl rfl rfl rfl)

theorem cTail (F : FVT) (h : Twin A s s') : (Machine.cTail F s).Rel (Like A) (Like A) (Machine.cTail F s') := by
  simp only [Machine.cTail, h.like.wr]
  refine (h.literalRun F _ _ _).bind fun t t' ht => ?_
  exact .ok ⟨by simp only [State.complete, ht.like.cr, ht.like.wr, ht.like.table, ht.like.turns, ht.like.readData, ht.like.draws],
    ht.like.wf, ht.like.wf', ht.like.agree⟩

end Twin

/-! ### The transitions -/

/-- Where one transition answers a next state, or refuses, so does the other, and the memories go on agreeing. -/
def Answers (A : Nat → Prop) (o o' : Host.Outcome State Fault Refusal) : Prop :=
  (∀ t, o = .next t → ∃ m', o' = .next { t with mem := m' } ∧ ∀ a, A a → m'.read a = t.mem.read a) ∧
  (∀ r, o = .refused r → o' = .refused r)

theorem Answers.next {A : Nat → Prop} {t t' : State} (h : Like A t t') : Answers A (.next t) (.next t') := by
  rw [h.eq]
  refine ⟨fun x hx => ?_, fun r hr => by simp at hr⟩
  simp only [Host.Outcome.next.injEq] at hx; subst hx
  exact ⟨_, rfl, h.agree⟩

theorem Answers.takeError {A : Nat → Prop} {t t' : State} (h : Like A t t') (e : Error) :
    Answers A (.next (t.takeError e)) (.next (t'.takeError e)) := by
  obtain ⟨h1, h2⟩ := h.takeError e
  rw [h1]
  refine ⟨fun x hx => ?_, fun r hr => by simp at hr⟩
  simp only [Host.Outcome.next.injEq] at hx; subst hx
  exact ⟨_, rfl, h2⟩

theorem Answers.finish {A : Nat → Prop} {f f' : Flow State} (h : f.Rel (Like A) (Like A) f') :
    Answers A (Machine.finish f) (Machine.finish f') := by
  match f, h with
  | .ok t, ⟨t', e, h1⟩ => subst e; exact .next h1
  | .error (.raised er t), ⟨t', e, h1⟩ => subst e; exact .takeError h1 er
  | .error (.fault _), h => subst h; exact ⟨fun x hx => by simp at hx, fun r hr => by simp at hr⟩
  | .error (.refused _), h => subst h; exact ⟨fun x hx => by simp at hx, fun r hr => hr⟩

theorem Flow.Rel.drop {A : Nat → Prop} {f f' : Flow State} (h : f.Rel (Twin A) (Like A) f') : f.Rel (Like A) (Like A) f' :=
  h.imp (fun _ _ h => h.like) fun _ _ h => h

/-- The same registers moved on both sides. -/
theorem Like.update {A : Nat → Prop} {s s' u u' : State} (h : Like A s s') (em : u.mem = s.mem) (em' : u'.mem = s'.mem)
    (e : u' = { u with mem := u'.mem }) : Like A u u' :=
  ⟨e, by rw [em]; exact h.wf, by rw [em']; exact h.wf', by rw [em, em']; exact h.agree⟩

/-- `ARG.view` before a flow. -/
theorem Like.argView {A : Nat → Prop} {s s' : State} {f f' : Flow State} {P : State → State → Prop} (h : Like A s s') (x : Space) (off len : Int) (hf : f.Rel P (Like A) f') :
    (Machine.argView s x off len >>= fun _ => f).Rel P (Like A) (Machine.argView s' x off len >>= fun _ => f') := by
  rw [argView_eq, argView_eq, h.cr]
  by_cases hv : s.cr.valid x = false
  · rw [if_pos hv, if_pos hv]; exact .raise h
  · rw [if_neg hv, if_neg hv]
    split
    · exact .raise h
    · split_ifs <;> first | exact hf | exact .raise h

/-- The choice of the table before a flow. -/
theorem Like.selectTable {A : Nat → Prop} {s s' : State} {f f' : FVT → Flow State} {P : State → State → Prop} (h : Like A s s') (hf : ∀ F, (f F).Rel P (Like A) (f' F)) :
    (Machine.selectTable s >>= f).Rel P (Like A) (Machine.selectTable s' >>= f') := by
  simp only [Machine.selectTable, h.cr]
  split
  · exact hf _
  · exact .raise h

/-- The premise of disjoint views before a flow. -/
theorem Like.viewsDisjoint {A : Nat → Prop} {s s' : State} {f f' : Flow State} {P : State → State → Prop} (h : Like A s s') (a b c d : Nat) (hf : f.Rel P (Like A) f') :
    (Machine.viewsDisjoint s a b c d >>= fun _ => f).Rel P (Like A) (Machine.viewsDisjoint s' a b c d >>= fun _ => f') := by
  simp only [Machine.viewsDisjoint, h.phys]
  split_ifs <;> first | exact hf | rfl

/-- A test before a flow. -/
theorem Like.raiseIf {A : Nat → Prop} {s s' : State} {f f' : Flow State} {P : State → State → Prop} {c : Prop} [Decidable c] (h : Like A s s') (e : Error) (hf : f.Rel P (Like A) f') :
    (if c then raise e s else f).Rel P (Like A) (if c then raise e s' else f') := by
  split_ifs <;> first | exact hf | exact .raise h

/-- `ARGCHECK` reads no byte. -/
theorem Like.stepArgcheck {A : Nat → Prop} {s s' : State} (hl : Like A s s') : Answers A (Machine.stepArgcheck s) (Machine.stepArgcheck s') := by
  have upd : ∀ u u' : State, u.mem = s.mem → u'.mem = s'.mem → u' = { u with mem := u'.mem } → Like A u u' := fun _ _ a b c => Like.update hl a b c
  simp only [Machine.stepArgcheck, hl.cr]
  cases hd : decodeCommand s.cr.cmd with
  | error e => exact Answers.finish (.raise hl)
  | ok i =>
    simp only [decodeCommand] at hd
    split at hd <;> simp only [Except.ok.injEq, reduceCtorEq] at hd <;> subst hd <;> apply Answers.finish
    · simp only [argMaxlen, hl.cr]
      refine Like.raiseIf hl _ (Like.raiseIf hl _ (.ok (upd _ _ rfl rfl ?_)))
      simp only [State.complete, hl.cr, hl.wr, hl.table, hl.turns, hl.readData, hl.draws]
    · simp only [argCompress, hl.cr]
      refine Like.selectTable hl fun _ => Like.argView hl _ _ _ (Like.argView hl _ _ _ (Like.raiseIf hl _ (Like.raiseIf hl _ (Like.viewsDisjoint hl _ _ _ _ (.ok (upd _ _ rfl rfl ?_))))))
      simp only [hl.wr, hl.table, hl.turns, hl.readData, hl.draws]
    · simp only [argGetulen, getulenEntry, hl.cr]
      refine Like.selectTable hl fun _ => Like.raiseIf hl _ (Like.argView hl _ _ _ (.ok (upd _ _ rfl rfl ?_)))
      simp only [hl.wr, hl.table, hl.turns, hl.readData, hl.draws]
    · simp only [argDecompress, decompressEntry, hl.cr]
      refine Like.selectTable hl fun _ => Like.argView hl _ _ _ (Like.argView hl _ _ _ (Like.raiseIf hl _ (Like.viewsDisjoint hl _ _ _ _ (.ok (upd _ _ rfl rfl ?_)))))
      simp only [hl.wr, hl.table, hl.turns, hl.readData, hl.draws]

/-- The bytes of the input view. -/
theorem Like.bytesFrom {A : Nat → Prop} {s s' : State} (hl : Like A s s') (h : ∀ a, s.wr.istart ≤ a → a < s.wr.iend → A (s.phys .input a)) {a : Nat} (ha : s.wr.istart ≤ a) :
    s'.bytesFrom s'.vin a = s.bytesFrom s.vin a := by
  apply List.ext_getElem
  · simp [State.vin, hl.wr]
  · intro k k1 k2
    rw [State.bytesFrom_getElem, State.bytesFrom_getElem, hl.phys, hl.vin]
    rw [State.bytesFrom_length] at k2
    have : s.vin.limit = s.wr.iend := rfl
    exact hl.agree _ (h _ (by omega) (by omega))

/-- `READ_HEADER` reads the input view alone. -/
theorem Like.stepReadHeader {A : Nat → Prop} {s s' : State} {F : FVT} (hl : Like A s s') (h : s.ReadyForHeader) (hF : tables[s.cr.format.toNat]? = some F)
    (hin : ∀ a, s.wr.istart ≤ a → a < s.wr.iend → A (s.phys .input a)) : Answers A (Machine.stepReadHeader s) (Machine.stepReadHeader s') := by
  have hh := (table_constants (table_mem hF)).1
  have hip := h.atStart.ge
  rw [stepReadHeader_eq hF hh hip h.input.mapped, stepReadHeader_eq (by rw [hl.cr]; exact hF) hh (by rw [hl.wr]; exact hip) (by rw [hl.phys, hl.wr]; exact h.input.mapped), hl.wr,
    Like.bytesFrom hl hin hip]
  cases hd : decodeHeader (s.bytesFrom s.vin s.wr.ip) with
  | error e => exact Answers.takeError hl _
  | ok i =>
    simp only [decodeHeader] at hd
    split at hd <;> simp only [Except.ok.injEq, reduceCtorEq] at hd
    subst hd
    apply Answers.finish
    simp only [readHeader]
    refine Like.raiseIf hl _ ?_
    simp only [acceptLength, hl.cr, hl.wr]
    split_ifs
    · exact .ok (Like.update hl rfl rfl (by simp only [State.complete, hl.table, hl.turns, hl.readData, hl.draws]))
    · exact .raise (Like.update hl rfl rfl (by simp only [hl.st, hl.table, hl.turns, hl.readData, hl.draws]))
    · exact .ok (Like.update hl rfl rfl (by simp only [hl.table, hl.turns, hl.readData, hl.draws]))

/-- `READ_TAG` and its operation read the two views alone. -/
theorem Like.stepReadTag {A : Nat → Prop} {s s' : State} {F : FVT} (hl : Like A s s') (h : s.Decoding) (hF : tables[s.cr.format.toNat]? = some F)
    (hin : ∀ a, s.wr.istart ≤ a → a < s.wr.iend → A (s.phys .input a)) (tw : Twin A s s') : Answers A (Machine.stepReadTag s) (Machine.stepReadTag s') := by
  have ewr := hl.wr
  by_cases h1 : s.wr.op = s.wr.olimit
  · by_cases h2 : s.wr.ip = s.wr.iend
    · rw [stepReadTag_done h1 h2, stepReadTag_done (by rw [ewr]; exact h1) (by rw [ewr]; exact h2), ewr]
      exact Answers.next (Like.update hl rfl rfl (by simp only [State.complete, hl.cr, hl.wr, hl.table, hl.turns, hl.readData, hl.draws]))
    · rw [stepReadTag_trailing h1 h2, stepReadTag_trailing (by rw [ewr]; exact h1) (by rw [ewr]; exact h2), ewr]
      exact Answers.takeError hl _
  · by_cases h2 : s.wr.ip = s.wr.iend
    · rw [stepReadTag_truncated h1 h2, stepReadTag_truncated (by rw [ewr]; exact h1) (by rw [ewr]; exact h2), ewr]
      exact Answers.takeError hl _
    · have hip := h.ipLow
      have hip2 := h.ipHigh
      have ft : ∀ t, Like A (s.fetchTag t) (s'.fetchTag t) := fun t =>
        Like.update hl rfl rfl (by simp only [State.fetchTag, hl.st, hl.cr, hl.wr, hl.table, hl.turns, hl.readData, hl.draws])
      rw [stepReadTag_eq hF h1 h2 hip h.input.mapped, stepReadTag_eq (by rw [hl.cr]; exact hF) (by rw [ewr]; exact h1) (by rw [ewr]; exact h2)
        (by rw [hl.wr]; exact hip) (by rw [hl.phys, hl.wr]; exact h.input.mapped), hl.wr,
        Like.bytesFrom hl hin hip]
      cases hd : decodeOperation F (s.bytesFrom s.vin s.wr.ip) with
      | error e =>
        have : s'.inByte s.wr.ip = s.inByte s.wr.ip := by
          rw [State.inByte, State.inByte, hl.phys]; exact hl.agree _ (hin _ hip (by omega))
        simp only [this]
        have : (s'.fetchTag (s.inByte s.wr.ip)).opOffset = (s.fetchTag (s.inByte s.wr.ip)).opOffset := by simp only [State.opOffset, State.fetchTag, ewr]
        rw [this]
        exact Answers.takeError (ft _) _
      | ok i =>
        simp only []
        rcases decodeOperation_operands (table_mem hF) hd with ⟨tag, rest, -, rfl, -⟩ | ⟨c, len, off, hop, hmem, hsize, hl1, hl2, ho⟩
        · show Answers A (finish (raise _ (s.fetchTag tag))) (finish (raise _ (s'.fetchTag tag)))
          apply Answers.finish
          have : (s'.fetchTag tag).opOffset = (s.fetchTag tag).opOffset := by simp only [State.opOffset, State.fetchTag, ewr]
          rw [this]
          exact .raise (ft _)
        · rw [exec_operation hop, exec_operation hop]
          apply Answers.finish
          apply Flow.Rel.drop
          cases c.row.kind
          · simp only [literalOp_eq hl2]; exact (tw.decoded c len 0).emitLiteral
          · simp only [copyOp_eq hl2 ho]; exact (tw.decoded c len off).emitCopy

/-- `C_SCAN` reads the input view alone. -/
theorem Like.cScan {A : Nat → Prop} {s s' : State} {F : FVT} {h : List Byte → Nat → Nat} (hl : Like A s s') (hs : s.Scanning) (hc : s.Compressing)
    (hin : ∀ a, s.wr.istart ≤ a → a < s.wr.iend → A (s.phys .input a)) : (Machine.cScan F h s).Rel (Like A) (Like A) (Machine.cScan F h s') := by
  have e1 := hs.anchorLow
  have e2 := hs.anchorHigh
  have hwin : Config.window = 4 := rfl
  have hrd : ∀ a, s.wr.istart ≤ a → a < s.wr.iend → s'.inByte a = s.inByte a := fun a h1 h2 => by
    rw [State.inByte, State.inByte, hl.phys]; exact hl.agree _ (hin _ h1 h2)
  by_cases h4 : 4 ≤ s.wr.iend - s.wr.ip
  · rw [cScan_window (by omega) h4 hc.input.mapped, cScan_window (by rw [hl.wr]; omega) (by rw [hl.wr]; exact h4) (by rw [hl.phys, hl.wr]; exact hc.input.mapped)]
    rw [hl.wr, hl.table, windowAt_congr hrd (by omega) (by omega)]
    rw [findMatch_congr (rd := s'.inByte) hrd (table_entry hs.table.entries) (by omega)]
    split
    · exact .ok (Like.update hl rfl rfl (by simp only [hl.st, hl.cr, hl.turns, hl.readData, hl.draws]))
    · exact .ok (Like.update hl rfl rfl (by simp only [hl.cr, hl.turns, hl.readData, hl.draws]))
  · simp only [Machine.cScan, hl.wr]
    rw [if_pos (by omega), if_pos (by omega)]
    exact .ok (Like.update hl rfl rfl (by simp only [hl.cr, hl.table, hl.turns, hl.readData, hl.draws]))

end Sys2Proof.Machine
end

