-- ==== Sys2Proof/Laws/Functions.lean ====
section
/-! SUPPORT. The functions `Decode` and `Encode` on byte lists: one pass of each. -/

namespace Sys2Proof.Machine

/-- The bytes before literal data of the shortest literal class. -/
theorem literal_size {F : FVT} (hF : F ∈ tables) {L : Nat} (h1 : 1 ≤ L) (h2 : L ≤ intMax) :
    ∃ n : ClassName, F.choose .literal L 0 = some n.row ∧ n.row ∈ F.classes ∧ n.row.kind = .literal ∧ n.carries L 0 ∧
      n.row.size ≤ 5 ∧ (L ≤ 60 → n.row.size = 1) := by
  obtain ⟨n, e, m, k, c⟩ := choose_literal_some hF h1 h2
  refine ⟨n, e, m, k, c, ?_, fun h => ?_⟩
  · cases n <;> first | decide | simp [ClassName.row] at k
  · rw [choose_literal_eq hF, represents_litI, if_pos (by simp; omega)] at e
    rw [← Option.some.inj e]; rfl

/-- The bytes of the shortest copy class. -/
theorem copy_size {F : FVT} (hF : F ∈ tables) {len off : Nat} (h1 : 4 ≤ len) (h2 : len ≤ F.maxLen .copy) (h3 : off ≤ 65535) :
    ∃ n : ClassName, F.choose .copy len off = some n.row ∧ n.row ∈ F.classes ∧ n.row.kind = .copy ∧ n.carries len off ∧
      n.row.size ≤ 7 ∧ (len ≤ 64 → n.row.size ≤ 3) := by
  obtain ⟨n, e, m, k, c⟩ := choose_copy_some hF h1 h2 h3
  refine ⟨n, e, m, k, c, ?_, fun h => ?_⟩
  · cases n <;> decide
  · have key : F.choose .copy len off = some ClassName.copy1.row ∨ F.choose .copy len off = some ClassName.copy2.row := by
      simp only [tables, List.mem_cons, List.not_mem_nil, or_false] at hF
      rcases hF with rfl | rfl
      · rw [choose_copy_fvt0, represents_copy1, represents_copy2]
        simp only [decide_eq_true_eq]
        by_cases hc : 4 ≤ len ∧ len ≤ 11 ∧ off ≤ 2047
        · rw [if_pos hc]; exact .inl rfl
        · rw [if_neg hc, if_pos ⟨by omega, h, h3⟩]; exact .inr rfl
      · rw [choose_copy_fvt1, represents_copy1, represents_copy2]
        simp only [decide_eq_true_eq]
        by_cases hc : 4 ≤ len ∧ len ≤ 11 ∧ off ≤ 2047
        · rw [if_pos hc]; exact .inl rfl
        · rw [if_neg hc, if_pos ⟨by omega, h, h3⟩]; exact .inr rfl
    rw [e] at key
    rcases key with key | key <;> rw [Option.some.inj key] <;> decide

/-- A literal run is one literal of the whole run: `litMax` is `INT_MAX` in both tables (R78). -/
theorem literalRunBytes_eq {F : FVT} (hF : F ∈ tables) {b : List Byte} {e a : Nat} (h : a ≤ e) (hb : e - a ≤ intMax) :
    literalRunBytes F b e (e - a) a =
      if a < e then (match F.choose .literal (e - a) 0 with | none => [] | some c => c.encode (e - a) 0) ++ (b.drop a).take (e - a)
      else [] := by
  by_cases hab : a < e
  · obtain ⟨k, hk⟩ : ∃ k, e - a = k + 1 := ⟨e - a - 1, by omega⟩
    rw [if_pos hab]
    have hr : ∀ j, literalRunBytes F b e j e = [] := by
      intro j; cases j with
      | zero => rfl
      | succ j => simp only [literalRunBytes]; rw [if_neg (by omega)]
    rw [hk]
    simp only [literalRunBytes]
    rw [if_pos hab, maxLen_literal hF, Nat.min_eq_left hb, ← hk, show a + (e - a) = e by omega, hr, List.append_nil]
    all_goals (cases F.choose .literal (e - a) 0 <;> rfl)
  · rw [if_neg hab, show e - a = 0 by omega]; rfl

/-! ### One pass of `Decode` -/

/-- One pass under the tables of this hardware, on the instruction decoded. -/
theorem decodeFrom_succ {F : FVT} (hF : F ∈ tables) (B : List Byte) (ulen fuel pos : Nat) (out : List Byte) :
    decodeFrom F B ulen (fuel + 1) pos out =
      if out.length = ulen then
        if pos = B.length then .ok out else .fault (.malformed .trailingInput pos)
      else if pos = B.length then .fault (.malformed .truncatedTag pos)
      else
        match decodeOperation F (B.drop pos) with
        | .error e => .fault (.malformed (operationReason e) pos)
        | .ok i =>
          match i.operands with
          | none => .fault (.malformed .invalidTag pos)
          | some (c, len, off) =>
            match runOperation B ulen pos (pos + c.row.size) out c.row.kind len off with
            | .error e => .fault e
            | .ok (pos', out') => decodeFrom F B ulen fuel pos' out' := by
  rw [decodeFrom, decodeClass_tables hF]
  cases decodeOperation F (B.drop pos) with
  | error e => rfl
  | ok i =>
    rcases h : i.operands with _ | ⟨c, len, off⟩
    · simp only [h, Option.map_none]
    · simp only [h, Option.map_some] <;> rfl

/-- A literal of the head of the bytes (R118). -/
theorem decodeFrom_literal {F : FVT} (hF : F ∈ tables) {n : ClassName} (hn : n.row ∈ F.classes) (hk : n.row.kind = .literal)
    {L : Nat} (hc : n.carries L 0) {B lit rest out : List Byte} {ulen pos fuel : Nat} (hL : lit.length = L)
    (hB : B.drop pos = n.row.encode L 0 ++ lit ++ rest) (hfit : out.length + L ≤ ulen) :
    decodeFrom F B ulen (fuel + 1) pos out = decodeFrom F B ulen fuel (pos + (n.row.encode L 0 ++ lit).length) (out ++ lit) := by
  obtain ⟨l1, l2, -⟩ := carries_le hc
  have hlen := congrArg List.length hB
  simp only [List.length_drop, List.length_append, encode_length, hL] at hlen
  have hs : 1 ≤ n.row.size := by simp only [TagClass.size]; omega
  rw [decodeFrom_succ hF]
  rw [if_neg (by omega), if_neg (by omega), hB, List.append_assoc,
    decodeOperation_encode hF hn hc l2 (Nat.zero_le intMax)]
  simp only [operands_toInstr n (fun _ => rfl : n.row.kind = .literal → (0 : Nat) = 0), hk, runOperation]
  rw [if_neg (by omega), if_neg (by omega)]
  simp only [List.length_append, encode_length, hL]
  rw [← List.drop_drop, hB, List.append_assoc, List.drop_left' (encode_length _ _ _), List.take_left' hL, Nat.add_assoc]

/-- A copy at the head of the bytes (R119). -/
theorem decodeFrom_copy {F : FVT} (hF : F ∈ tables) {n : ClassName} (hn : n.row ∈ F.classes) (hk : n.row.kind = .copy)
    {len off : Nat} (hc : n.carries len off) {B rest out : List Byte} {ulen pos fuel : Nat}
    (hB : B.drop pos = n.row.encode len off ++ rest) (h0 : off ≠ 0) (h1 : off ≤ out.length) (hfit : out.length + len ≤ ulen) :
    decodeFrom F B ulen (fuel + 1) pos out =
      decodeFrom F B ulen fuel (pos + (n.row.encode len off).length) (copyOut off len out) := by
  obtain ⟨l1, l2, l3⟩ := carries_le hc
  have hlen := congrArg List.length hB
  simp only [List.length_drop, List.length_append, encode_length] at hlen
  have hs : 1 ≤ n.row.size := by simp only [TagClass.size]; omega
  rw [decodeFrom_succ hF]
  rw [if_neg (by omega), if_neg (by omega), hB, decodeOperation_encode hF hn hc l2 l3]
  simp only [operands_toInstr n (fun h => absurd (hk.symm.trans h) (by decide) : n.row.kind = .literal → off = 0), hk, runOperation]
  rw [if_neg h0, if_neg (by omega), if_neg (by omega)]
  simp only [encode_length]

end Sys2Proof.Machine
end

