-- ==== Sys2Proof/Machine/OpenParameters.lean ====
section
/-! DEFINITION. The machine with the OPEN parameters of R4 as its arguments: `PADDR_BITS`, the tables and their number `NFMT`, `HASH`
and `TABLE_SIZE` in `Params`, `NENG` as the number of engines of a platform. `Sys2Proof.core` is one engine at the defaults. -/

namespace Sys2Proof.Machine

/-- The OPEN parameters of one engine (R4). `tables` is `FVT[0]` to `FVT[NFMT-1]`. -/
structure Params where
  paddrBits : Nat
  tables : List FVT
  hash : List Byte → Nat → Nat
  tableSize : Nat → Nat

/-- `NFMT` (R4). -/
def Params.nfmt (P : Params) : Nat := P.tables.length

/-- The defaults (R4). -/
def Params.defaults : Params :=
  { paddrBits := Config.paddrBits, tables := Sys2Proof.tables, hash := Machine.hash, tableSize := Machine.tableSize }

/-- What the spec asks of the parameters: `FVT[0]` and `FVT[1]` are fixed (R4), a table carries the proof that it is well-formed
(R77), `TABLE_SIZE` gives powers of two (R145) and `HASH` an index of the table (R146). A further table may
have any classes of the schema (R65, R66). R145 sets `TABLE_SIZE` no upper bound; that it gives at most `2^30`, the largest power of two in
`0 .. INT_MAX`, is the model's reading of R10 and R105, which hold the register `ts` to that range (DEDUCED, log 15). -/
structure Params.Legal (P : Params) : Prop where
  first : P.tables[0]? = some fvt0
  second : ∀ F, P.tables[1]? = some F → F = fvt1
  wellFormed : ∀ F ∈ P.tables, F.WellFormed
  powers : ∀ n, ∃ k, k ≤ 30 ∧ P.tableSize n = 2 ^ k
  indexes : ∀ w ts, 0 < ts → P.hash w ts < ts

/-- What an instruction does in the machine with parameters `P`. An operation of a class without a row in the opcode table is no
instruction of this type; `stepReadTagWith` runs it. -/
def execWith (P : Params) (i : Instr) (s : State) : Host.Outcome State Fault Refusal :=
  match i with
  | .hdr size value => execHdr size value s
  | .litI len => finish (literalOp .litI len s P.tables P.paddrBits)
  | .litT1 len => finish (literalOp .litT1 len s P.tables P.paddrBits)
  | .litT2 len => finish (literalOp .litT2 len s P.tables P.paddrBits)
  | .litT3 len => finish (literalOp .litT3 len s P.tables P.paddrBits)
  | .litT4 len => finish (literalOp .litT4 len s P.tables P.paddrBits)
  | .copy1 len off => finish (copyOp .copy1 len off s P.tables P.paddrBits)
  | .copy2 len off => finish (copyOp .copy2 len off s P.tables P.paddrBits)
  | .copy4 len off => finish (copyOp .copy4 len off s P.tables P.paddrBits)
  | .copyX len off => finish (copyOp .copyX len off s P.tables P.paddrBits)
  | .reservedFvt1 tag => execReservedFvt1 tag s
  | .maxlen => execMaxlen s
  | .compress => finish (argCompress s P.tables P.paddrBits)
  | .getulen => finish (argGetulen s P.tables P.paddrBits)
  | .decompress => finish (argDecompress s P.tables P.paddrBits)

/-- One step of the machine with parameters `P`: operations of the block are read under `P`'s tables, whatever their classes. -/
def stepWith (P : Params) (s : State) : Host.Outcome State Fault Refusal :=
  turnStep s P.tables P.paddrBits P.hash P.tableSize (execWith P) (stepReadTagWith P.tables P.paddrBits)

/-- The machine with legal parameters `P`. -/
def coreWith (P : Params) (_ : P.Legal) : Host.Core :=
  { State := State, Fault := Fault, Refusal := Refusal, step := stepWith P, reset := State.reset }

/-! ### Several engines (R207) -/

/-- A platform of `NENG` engines over one memory: a list of one-engine states that show the same memory. -/
abbrev Platform := List State

/-- `NENG = n` engines after reset (R37, R207). -/
def Platform.reset (n : Nat) : Platform := List.replicate n State.reset

/-- A command of the engine runs and has passed its argument checks. -/
def State.running (s : State) : Bool := s.busy && s.st != .argcheck

/-- Two ranges have an address in common. -/
def spansMeet (p q : Int × Int) : Bool := p.1 < p.2 && q.1 < q.2 && p.1 < q.2 && q.1 < p.2

/-- The running commands of two engines have views that are not disjoint; two input views may overlap (R207, U19). -/
def State.clashes (s t : State) : Bool :=
  s.running && t.running &&
    (spansMeet s.outputRange t.inputRange || spansMeet s.outputRange t.outputRange || spansMeet s.inputRange t.outputRange)

/-- The next turn of a schedule is a load or a store of the host that touches a view of the command of engine `s` (R57, U6). -/
def State.touchedBy (s : State) : List Turn → Bool
  | .host (.storeByte a _) :: _ => s.busy && (inSpan a s.inputRange || inSpan a s.outputRange)
  | .host (.loadByte a) :: _ => s.busy && inSpan a s.outputRange
  | _ => false

/-- One step of engine `k`, by its own schedule, over the memory that all engines share; the count of free values is shared too.
The premise of R207, disjoint views of commands that run at the same time, is a refusal (U19); so is a move of a host in a view of
another engine's command (U6). -/
def Platform.step (P : Params) (k : Nat) (es : Platform) : Host.Outcome Platform Fault Refusal :=
  match es[k]? with
  | none => .next es
  | some s =>
    if (es.eraseIdx k).any (·.touchedBy s.turns) then .refused .hostTouchesView
    else
      match stepWith P s with
      | .next t =>
        if (es.eraseIdx k).any (t.clashes ·) then .refused .viewsOverlap
        else .next ((es.set k t).map fun e => { e with mem := t.mem, draws := t.draws })
      | .fault f => .fault f
      | .refused r => .refused r

end Sys2Proof.Machine
end

