-- ==== Sys2Proof/Laws/OpenParameters.lean ====
section
/-! SUPPORT. The machine with parameters: at the defaults it is the machine, each parameter reaches the rule that reads it, and a
platform of one engine is the engine. -/

namespace Sys2Proof.Machine

theorem execWith_defaults (i : Instr) (s : State) : execWith Params.defaults i s = exec i s := by cases i <;> rfl

/-! ### `READ_TAG` under any tables is `READ_TAG` of this hardware under its own -/

theorem idxOf_row {F : FVT} (hF : F ∈ tables) {n : ClassName} (hn : n.row ∈ F.classes) :
    F.classes.idxOf n.row = ClassName.index n := by
  have key : ∀ F ∈ tables, ∀ n ∈ [ClassName.litI, .litT1, .litT2, .litT3, .litT4, .copy1, .copy2, .copy4, .copyX],
      n.row ∈ F.classes → F.classes.idxOf n.row = ClassName.index n := by decide
  exact key F hF n (by cases n <;> decide) hn

/-- The tag of a decoded operation is the tag its operands are encoded with. -/
theorem tagOf_decoded {F : FVT} (hF : F ∈ tables) {bs : List Byte} {n : ClassName} {len off : Nat}
    (h : decodeClass F bs = .ok (some (n.row, len, off))) : tagOf n.row len off = bs.headD 0 ∧ n.row ∈ F.classes ∧
      len ≤ intMax ∧ off ≤ intMax := by
  obtain ⟨t, rest, m, rfl, e, hc, hn, hl, ho, hl', ho'⟩ := decodeClass_inv hF h
  rw [← e] at hc hn hl ho
  obtain ⟨hm, ht⟩ := classify_mem hc
  have h1 : (rest.take n.row.nL).length = n.row.nL := by rw [List.length_take]; omega
  have h2 : ((rest.drop n.row.nL).take n.row.nO).length = n.row.nO := by rw [List.length_take, List.length_drop]; omega
  have he := (encode_assembled n ht h1 h2 (by rw [← hl]; exact hl') (by rw [← ho]; exact ho')).1
  rw [← hl, ← ho] at he
  exact ⟨by rw [tagOf, he]; rfl, hm, hl', ho'⟩

/-- A decoded operation of the tables of this hardware, as `exec` runs it. -/
theorem tableOperation_eq {F : FVT} (hF : F ∈ tables) {bs : List Byte} {n : ClassName} {len off : Nat}
    (h : decodeClass F bs = .ok (some (n.row, len, off))) (s : State) :
    finish (tableOperation F n.row (bs.headD 0) len off s) = exec (n.toInstr len off) s := by
  obtain ⟨ht, hm, hl, ho⟩ := tagOf_decoded hF h
  have hr : readOperation n.row (F.classes.idxOf n.row) (bs.headD 0) len off s = .ok (s.decoded n len off) := by
    rw [← readTag_ok hl ho s, readTag, classIndex_eq, ht, idxOf_row hF hm]
  rw [exec_operation (operands_toInstr n (decodeClass_offset hF h))]
  simp only [tableOperation, hr, Flow.ok_bind]
  cases hk : n.row.kind with
  | literal =>
    have h0 : off = 0 := decodeClass_offset hF h hk
    subst h0
    simp only [literalOp_eq hl]
  | copy => simp only [copyOp_eq hl ho]

theorem fetch_head {s : State} {V : View} {n a : Nat} {bs : List Byte} (h : s.fetch V (n + 1) a = .ok bs) :
    bs = [] ∨ bs.headD 0 = s.mem.read (s.phys V.space a) := by
  simp only [State.fetch] at h
  split at h
  · cases h; exact .inl rfl
  · cases hb : s.bvRead V a with
    | error e => simp only [hb] at h; cases h
    | ok b =>
      cases hr : s.fetch V n (a + 1) with
      | error e => simp only [hb, hr] at h; cases h
      | ok r =>
        simp only [hb, hr] at h
        cases h
        simp only [State.bvRead] at hb
        split_ifs at hb
        · cases hb
        · cases hb; exact .inr rfl
        · cases hb

theorem stepReadTagWith_tables : stepReadTagWith tables Config.paddrBits = stepReadTag := by
  funext s
  simp only [stepReadTagWith, stepReadTag]
  cases completion s with
  | some r => rfl
  | none =>
    simp only [currentTable]
    cases hF : tables[s.cr.format.toNat]? with
    | none => rfl
    | some F =>
      have hF' := table_mem hF
      simp only [fetchOperation]
      cases hf : s.fetch s.vin longestHead s.wr.ip with
      | error e => rfl
      | ok bs =>
        simp only [Flow.ok_bind]
        have hh := fetch_head hf
        match hd : decodeClass F bs with
        | .error e =>
          have : decodeOperation F bs = .error e := by simp only [decodeOperation, hd]
          simp only [this]
        | .ok none =>
          have ho : decodeOperation F bs = .ok (.reservedFvt1 (bs.headD 0)) := by simp only [decodeOperation, hd]
          have hb : bs.headD 0 = s.inByte s.wr.ip := hh.resolve_left (by rintro rfl; simp [decodeClass] at hd)
          simp only [ho, hb]; rfl
        | .ok (some (c, len, off)) =>
          obtain ⟨t, rest, n, e, rfl, -⟩ := decodeClass_inv hF' hd
          have ho : decodeOperation F bs = .ok (n.toInstr len off) := by simp only [decodeOperation, hd, row_instr]
          have hb : bs.headD 0 = s.inByte s.wr.ip := hh.resolve_left (by rw [e]; simp)
          simp only [ho]
          rw [← hb]
          exact tableOperation_eq hF' hd s

theorem stepWith_defaults : stepWith Params.defaults = step := by
  have h : execWith Params.defaults = exec := funext fun i => funext fun s => execWith_defaults i s
  have h' : stepReadTagWith Params.defaults.tables Params.defaults.paddrBits = stepReadTag := stepReadTagWith_tables
  funext s; simp only [stepWith, h, h']; rfl

theorem coreWith_defaults (h : Params.defaults.Legal) : coreWith Params.defaults h = Sys2Proof.core := by
  simp only [coreWith, stepWith_defaults]; rfl

/-- The default `HASH` gives an index of any table (R146). -/
theorem hash_lt (w : List Byte) {ts : Nat} (h : 0 < ts) : hash w ts < ts := by
  have hl : 2 ^ ts.log2 ≤ ts := Nat.log2_self_le (by omega)
  have hm : le w * 0x1E35A7BD % 2 ^ 32 < 2 ^ 32 := Nat.mod_lt _ (by decide)
  refine Nat.lt_of_lt_of_le ?_ hl
  rw [hash, Nat.div_lt_iff_lt_mul (by positivity), ← Nat.pow_add]
  exact Nat.lt_of_lt_of_le hm (Nat.pow_le_pow_right (by decide) (by omega))

theorem tableSizeFrom_pow (n : Nat) : ∀ k j, ∃ m, m ≤ j + k ∧ tableSizeFrom k (2 ^ j) n = 2 ^ m
  | 0, j => ⟨j, by omega, rfl⟩
  | k + 1, j => by
    simp only [tableSizeFrom]
    split
    · exact ⟨j, by omega, rfl⟩
    · rw [← Nat.pow_succ']
      obtain ⟨m, hm, e⟩ := tableSizeFrom_pow n k (j + 1)
      exact ⟨m, by omega, e⟩

/-- The defaults are legal once the two tables are well-formed (R77). -/
theorem Params.defaults_legal (h0 : fvt0.WellFormed) (h1 : fvt1.WellFormed) : Params.defaults.Legal where
  first := rfl
  second F h := (Option.some.inj h).symm
  wellFormed F h := by
    simp only [Params.defaults, Sys2Proof.tables, List.mem_cons, List.not_mem_nil, or_false] at h
    rcases h with rfl | rfl <;> assumption
  powers n :=
    have ⟨m, hm, e⟩ := tableSizeFrom_pow n 6 8
    ⟨m, by omega, e⟩
  indexes w _ h := hash_lt w h

/-! ### Where each parameter is read -/

theorem stepWith_engine {P : Params} {s : State} (h : s.turns = []) :
    stepWith P s = engineStep s P.tables P.paddrBits P.hash P.tableSize (execWith P)
      (stepReadTagWith P.tables P.paddrBits) := by
  simp only [stepWith, turnStep, h]

/-- `ARGCHECK` runs a command with the parameters. -/
theorem stepWith_argcheck {P : Params} {s : State} {i : Instr} (h : s.turns = []) (hs : s.st = .argcheck)
    (hi : decodeCommand s.cr.cmd = .ok i) : stepWith P s = execWith P i s := by
  rw [stepWith_engine h]; simp only [engineStep, hs, stepArgcheck, hi]

/-- `NFMT`: a format at or above it is `BadFormat` (R171). -/
theorem selectTable_badFormat {T : List FVT} {s : State} (h : T.length ≤ s.cr.format.toNat) :
    selectTable s T = raise (.invalidArgument .badFormat) s := by
  simp only [selectTable, List.getElem?_eq_none h]

/-- `PADDR_BITS`: a present buffer whose range is good and whose addresses do not exist is `ArithmeticOverflow` (R172). -/
theorem argView_unmapped {s : State} {x : Space} {off len : Int} {bits : Nat} (hv : s.cr.valid x = true)
    (hc : valCheck off len (s.cr.extent x) = none) (h : (s.cr.base x : Int) + s.cr.extent x > 2 ^ bits) :
    argView s x off len bits = raise (.invalidArgument (.val .arithmeticOverflow)) s := by
  unfold argView
  rw [hv, hc]
  simp only [Bool.true_eq_false, if_false, h, or_true, if_true]
  rfl

/-- A class of the selected table stands at the index `cls` says (R10, R11). -/
theorem classIndex_spec {T : List FVT} {s : State} {F : FVT} {c : ClassName} (hF : T[s.cr.format.toNat]? = some F)
    (hc : ∃ d ∈ F.classes, d.name = .row c) : ∃ d, F.classes[classIndex c s T]? = some d ∧ d.name = .row c := by
  cases h : F.indexOf c with
  | none =>
    obtain ⟨d, hd, e⟩ := hc
    have := List.findIdx?_eq_none_iff.mp h d hd
    simp [e] at this
  | some k =>
    obtain ⟨hk, e, -⟩ := List.findIdx?_eq_some_iff_getElem.mp h
    refine ⟨F.classes[k], ?_, by simpa using e⟩
    simp only [classIndex, hF, Option.bind_some, h, Option.getD_some, List.getElem?_eq_getElem hk]

/-- A legal `TABLE_SIZE` keeps the register `ts` in range (R10, R105). -/
theorem Params.Legal.tableSize_le {P : Params} (h : P.Legal) (n : Nat) : P.tableSize n ≤ intMax := by
  obtain ⟨k, hk, e⟩ := h.powers n
  rw [e]
  exact Nat.le_trans (Nat.pow_le_pow_right (by decide) hk) (by decide)

/-- `TABLE_SIZE`: `C_HEADER` takes it (R144). -/
theorem stepWith_cHeader {P : Params} {s : State} {F : FVT} (h : s.turns = []) (hs : s.st = .cHeader)
    (hF : P.tables[s.cr.format.toNat]? = some F) : stepWith P s = finish (cHeader F P.tableSize s P.paddrBits) := by
  rw [stepWith_engine h]; simp only [engineStep, hs, withTable, currentTable, hF]; rfl

/-- `HASH`: `C_SCAN` takes it (R149). -/
theorem stepWith_cScan {P : Params} {s : State} {F : FVT} (h : s.turns = []) (hs : s.st = .cScan)
    (hF : P.tables[s.cr.format.toNat]? = some F) : stepWith P s = finish (cScan F P.hash s P.paddrBits) := by
  rw [stepWith_engine h]; simp only [engineStep, hs, withTable, currentTable, hF]; rfl

/-! ### Platforms -/

/-- A platform of one engine is the engine (R207): there is nothing more to model. -/
theorem Platform.step_one (P : Params) (s : State) :
    Platform.step P 0 [s] = match stepWith P s with
      | .next t => .next [t]
      | .fault f => .fault f
      | .refused r => .refused r := by
  cases h : stepWith P s <;>
    simp only [Platform.step, h, List.getElem?_cons_zero, List.eraseIdx_cons_zero, List.any_nil, Bool.false_eq_true, if_false,
      List.set_cons_zero, List.map_cons, List.map_nil]

/-- After a step of engine `k` every engine shows that engine's memory, and each other engine keeps the rest of its state: nothing
is shared but memory (R207). -/
theorem Platform.step_next {P : Params} {k : Nat} {es es' : Platform} {s : State} (hk : es[k]? = some s)
    (h : Platform.step P k es = .next es') :
    ∃ t, stepWith P s = .next t ∧ es'[k]? = some t ∧
      ∀ j e, j ≠ k → es[j]? = some e → es'[j]? = some { e with mem := t.mem, draws := t.draws } := by
  simp only [Platform.step, hk] at h
  split at h
  · cases h
  · split at h
    · rename_i t ht
      split at h
      · cases h
      · cases h
        have hl : k < es.length := (List.getElem?_eq_some_iff.mp hk).1
        refine ⟨t, ht, ?_, fun j e hj he => ?_⟩
        · rw [List.getElem?_map, List.getElem?_set_self hl]; rfl
        · rw [List.getElem?_map, List.getElem?_set_ne (Ne.symm hj), he]; rfl
    · cases h
    · cases h

end Sys2Proof.Machine
end

