-- ==== Sys2Proof/Laws/PerInstr.lean ====
section
/-! SUPPORT. Statements made of each instruction: how many bytes its encoding takes, a literal's data apart (the size column of
the opcode table; R78, R80). -/

namespace Sys2Proof.Laws.EncodedSize

/-- The bytes of the instruction in the block, or of the command's value in `CMD`. -/
def headSize : Instr → Nat
  | .hdr size _ => size
  | .litI _ => 1
  | .litT1 _ => 2
  | .litT2 _ => 3
  | .litT3 _ => 4
  | .litT4 _ => 5
  | .copy1 _ _ => 2
  | .copy2 _ _ => 3
  | .copy4 _ _ => 5
  | .copyX _ _ => 7
  | .reservedFvt1 _ => 1
  | .maxlen => 4
  | .compress => 4
  | .getulen => 4
  | .decompress => 4

/-- A well-formed instruction's encoding takes `headSize` bytes. -/
def Statement (i : Instr) : Prop := i.wf = true → (encode i).bytes.length = headSize i

theorem encodeVarint_length (size value : Nat) : (encodeVarint size value).length = size := by
  induction size generalizing value with
  | zero => rfl
  | succ n ih =>
    cases n with
    | zero => rfl
    | succ n => simp only [encodeVarint, List.length_cons, ih]

theorem hdr (size value : Nat) : Statement (.hdr size value) := fun _ => encodeVarint_length size value
theorem litI (len : Nat) : Statement (.litI len) := fun _ => rfl
theorem litT1 (len : Nat) : Statement (.litT1 len) := fun _ => rfl
theorem litT2 (len : Nat) : Statement (.litT2 len) := fun _ => rfl
theorem litT3 (len : Nat) : Statement (.litT3 len) := fun _ => rfl
theorem litT4 (len : Nat) : Statement (.litT4 len) := fun _ => rfl
theorem copy1 (len off : Nat) : Statement (.copy1 len off) := fun _ => rfl
theorem copy2 (len off : Nat) : Statement (.copy2 len off) := fun _ => rfl
theorem copy4 (len off : Nat) : Statement (.copy4 len off) := fun _ => rfl
theorem copyX (len off : Nat) : Statement (.copyX len off) := fun _ => rfl
theorem reservedFvt1 (tag : Byte) : Statement (.reservedFvt1 tag) := fun _ => rfl
theorem maxlen : Statement .maxlen := fun _ => rfl
theorem compress : Statement .compress := fun _ => rfl
theorem getulen : Statement .getulen := fun _ => rfl
theorem decompress : Statement .decompress := fun _ => rfl

end Sys2Proof.Laws.EncodedSize
end

