-- ==== Sys2Proof/Tests/Slice0.lean ====
section
/-! SUPPORT. Tests. Expected values come from the spec: its examples and vectors V<n>, P<n> and S<n> (95_test_vectors.md) and hand
calculation from the rules cited. The last part shows, for each obligation with hypotheses, states and operands that meet them. -/

section

open Sys2Proof Sys2Proof.Machine

/-! ### WellFormed: each check refuses an ill-formed term -/

theorem test_wf_hdr : Instr.wf (.hdr 0 0) = false ∧ Instr.wf (.hdr 6 0) = false ∧ Instr.wf (.hdr 1 128) = false ∧
    Instr.wf (.hdr 5 2147483648) = false ∧ Instr.wf (.hdr 5 2147483647) = true := by decide
theorem test_wf_litI : Instr.wf (.litI 0) = false ∧ Instr.wf (.litI 61) = false ∧ Instr.wf (.litI 60) = true := by decide
theorem test_wf_litT1 : Instr.wf (.litT1 0) = false ∧ Instr.wf (.litT1 257) = false ∧ Instr.wf (.litT1 256) = true := by decide
theorem test_wf_litT2 : Instr.wf (.litT2 0) = false ∧ Instr.wf (.litT2 65537) = false ∧ Instr.wf (.litT2 65536) = true := by
  decide
theorem test_wf_litT3 : Instr.wf (.litT3 0) = false ∧ Instr.wf (.litT3 16777217) = false ∧ Instr.wf (.litT3 16777216) = true := by
  decide
theorem test_wf_litT4 : Instr.wf (.litT4 0) = false ∧ Instr.wf (.litT4 2147483648) = false ∧
    Instr.wf (.litT4 2147483647) = true := by decide
theorem test_wf_copy1 : Instr.wf (.copy1 3 1) = false ∧ Instr.wf (.copy1 12 1) = false ∧ Instr.wf (.copy1 4 2048) = false ∧
    Instr.wf (.copy1 11 2047) = true := by decide
theorem test_wf_copy2 : Instr.wf (.copy2 0 1) = false ∧ Instr.wf (.copy2 65 1) = false ∧ Instr.wf (.copy2 64 65536) = false ∧
    Instr.wf (.copy2 64 65535) = true := by decide
theorem test_wf_copy4 : Instr.wf (.copy4 0 1) = false ∧ Instr.wf (.copy4 65 1) = false ∧
    Instr.wf (.copy4 64 2147483648) = false ∧ Instr.wf (.copy4 64 2147483647) = true := by decide
theorem test_wf_copyX : Instr.wf (.copyX 0 1) = false ∧ Instr.wf (.copyX 2147483648 1) = false ∧
    Instr.wf (.copyX 4 65536) = false ∧ Instr.wf (.copyX 2147483647 65535) = true := by decide
theorem test_wf_reserved : Instr.wf (.reservedFvt1 0x03) = false ∧ Instr.wf (.reservedFvt1 0x06) = false ∧
    Instr.wf (.reservedFvt1 0xFF) = true := by decide

/-! ### Decoding: words written out from the spec's encodings (30_encoding.md R62, R73, R74, R76, R80) -/

/-- V13: `D2 B6 DB ED 06` is `MAX_BLOCK`; `80 00` is 0 in two bytes. -/
theorem test_decode_hdr : decode fvt0 (.header [0xD2, 0xB6, 0xDB, 0xED, 0x06]) = .ok (.hdr 5 1840700242) ∧
    decode fvt0 (.header [0x80, 0x00]) = .ok (.hdr 2 0) := by decide
/-- V13: the illegal and the missing headers. -/
theorem test_decode_hdr_rejects : decode fvt0 (.header [0x80, 0x80, 0x80, 0x80, 0x08]) = .error .invalidLength ∧
    decode fvt0 (.header [0x80, 0x80, 0x80, 0x80]) = .error .truncatedHeader ∧
    decode fvt0 (.header [0x80, 0x80, 0x80, 0x80, 0x87, 0x00]) = .error .invalidLength := by decide
/-- V20b: tag bits 7:2 = 59, bits 1:0 = 00. -/
theorem test_decode_litI : decode fvt0 (.operation [0b111011_00, 0x41]) = .ok (.litI 60) := by decide
/-- V21. -/
theorem test_decode_litT1 : decode fvt0 (.operation [0b111100_00, 0b00000000, 0x61]) = .ok (.litT1 1) := by decide
/-- V93: `F4 37 08` is 1 + 0x37 + 256 * 8 = 2104. -/
theorem test_decode_litT2 : decode fvt0 (.operation [0b111101_00, 0b00110111, 0b00001000]) = .ok (.litT2 2104) := by decide
/-- V23. -/
theorem test_decode_litT3 : decode fvt0 (.operation [0b111110_00, 0, 0, 0, 0x61]) = .ok (.litT3 1) := by decide
/-- V24. -/
theorem test_decode_litT4 : decode fvt0 (.operation [0b111111_00, 0, 0, 0, 0, 0x61]) = .ok (.litT4 1) := by decide
/-- V25b: length field 111, offset field 000; V25c: length field 000, offset field 111. -/
theorem test_decode_copy1 : decode fvt0 (.operation [0b000_111_01, 0x02]) = .ok (.copy1 11 2) ∧
    decode fvt0 (.operation [0b111_000_01, 0x00]) = .ok (.copy1 4 1792) := by decide
/-- V26b. -/
theorem test_decode_copy2 : decode fvt0 (.operation [0b111111_10, 0x01, 0x00]) = .ok (.copy2 64 1) := by decide
/-- P4: `1B 07 00 00 00`. -/
theorem test_decode_copy4 : decode fvt0 (.operation [0b000110_11, 0x07, 0, 0, 0]) = .ok (.copy4 7 7) := by decide
/-- P5: under FVT1 a `COPYX`, under FVT0 a `COPY4`. -/
theorem test_decode_copyX : decode fvt1 (.operation [0b000000_11, 0x28, 0x01, 0, 0, 0x03, 0]) = .ok (.copyX 297 3) ∧
    decode fvt0 (.operation [0b000000_11, 0x28, 0x01, 0, 0, 0x03, 0]) = .ok (.copy4 1 296) := by decide
/-- V31b, V31c. -/
theorem test_decode_reservedFvt1 : decode fvt1 (.operation [0b111111_11]) = .ok (.reservedFvt1 0xFF) ∧
    decode fvt1 (.operation [0b000011_11, 5, 0, 0, 0]) = .ok (.reservedFvt1 0x0F) := by decide
/-- R80. -/
theorem test_decode_commands : decode fvt1 (.command 0b0001) = .ok .maxlen ∧ decode fvt1 (.command 0b0010) = .ok .compress ∧
    decode fvt1 (.command 0b0011) = .ok .getulen ∧ decode fvt1 (.command 0b0100) = .ok .decompress ∧
    decode fvt1 (.command 5) = .error .badCommand ∧ decode fvt1 (.command 0xFFFFFFFF) = .error .badCommand := by decide
/-- V33, V33b, V43, V27c: what is met first in stream order is reported. -/
theorem test_decode_rejects : decode fvt1 (.operation [0x03, 0xFF, 0xFF, 0xFF, 0xFF]) = .error .lengthOverflow ∧
    decode fvt1 (.operation [0x03, 0xFF, 0xFF, 0xFF]) = .error .truncatedTrailer ∧
    decode fvt0 (.operation [0xF0]) = .error .truncatedTrailer ∧
    decode fvt0 (.operation [0x0F, 0xFF, 0xFF, 0xFF, 0xFF]) = .error .lengthOverflow ∧
    decode fvt0 (.operation []) = .error .truncatedTag := by decide
/-- P2, P4 and P5, encoded. -/
theorem test_encode : encode (.litI 11) = .operation [0x28] ∧ encode (.copy1 10 1) = .operation [0x19, 0x01] ∧
    encode (.copy2 4 2) = .operation [0x0E, 0x02, 0x00] ∧ encode (.litT1 1) = .operation [0xF0, 0x00] ∧
    encode (.copyX 297 3) = .operation [0x03, 0x28, 0x01, 0, 0, 0x03, 0] ∧ encode (.hdr 2 300) = .header [0xAC, 0x02] := by decide

/-! ### Functions of the spec on its vectors -/

/-- V10. -/
theorem test_valCheck : valCheck 0 13 13 = none ∧ valCheck 13 0 13 = none ∧ valCheck (-1) 0 13 = some .negativeValue ∧
    valCheck 14 20 13 = some .offsetOutOfRange ∧ valCheck 0 14 13 = some .lengthOutOfRange ∧
    valCheck 5 9 13 = some .rangeExceedsBuffer ∧ valCheck 1 2147483647 2147483647 = some .arithmeticOverflow := by decide
/-- V11 and V12. -/
theorem test_valAdd_valAccum : valAdd 2147483000 647 = some 2147483647 ∧ valAdd 2147483647 1 = none ∧
    valAccum 45 0x01 1 = some 301 ∧ valAccum 16777215 0x7F 3 = some 2147483647 ∧ valAccum 16777216 0x7F 3 = none := by decide
/-- V14. -/
theorem test_shortestVarint : shortestVarint 127 = [0x7F] ∧ shortestVarint 128 = [0x80, 0x01] ∧
    shortestVarint 268435456 = [0x80, 0x80, 0x80, 0x80, 0x01] ∧ shortestVarint 2147483647 = [0xFF, 0xFF, 0xFF, 0xFF, 0x07] := by
  decide
/-- V80. -/
theorem test_tableSize : tableSize 0 = 256 ∧ tableSize 256 = 256 ∧ tableSize 257 = 512 ∧ tableSize 513 = 1024 ∧
    tableSize 8193 = 16384 ∧ tableSize 100000 = 16384 := by decide
/-- V80. -/
theorem test_hash : hash [0x61, 0x61, 0x61, 0x61] 256 = 242 ∧ hash [0x68, 0x65, 0x6C, 0x6C] 16384 = 15405 ∧
    hash [0xFF, 0xFF, 0xFF, 0xFF] 256 = 225 := by decide
/-- V84b. -/
theorem test_encodeBlock : encodeBlock fvt0 hash tableSize [0x61, 0x61, 0x61, 0x61, 0x61] = [0x05, 0x00, 0x61, 0x01, 0x01] := by
  decide
/-- V25 and V49. -/
theorem test_decodeBlock : decodeBlock fvt0 [0x06, 0x04, 0x61, 0x62, 0x01, 0x02] 6 0 = .ok [0x61, 0x62, 0x61, 0x62, 0x61, 0x62] ∧
    decodeBlock fvt0 [0x01, 0x00, 0x61, 0x00, 0x62] 1 0 = .fault (.malformed .trailingInput 3) := by decide

/-! ### One step of each instruction -/

/-- A 64-byte input buffer at `0x1000` that holds `block`, of which `IN_LEN` bytes are the view, and a 64-byte output buffer at
`0x2000` that holds `out`; the command `cmd` has just started. -/
def testState (cmd format : Word) (block out : List Byte) : State :=
  let bytes (base : Nat) (bs : List Byte) (m : Memory) : Memory :=
    (bs.foldl (fun (p : Nat × Memory) b => (p.1 + 1, p.2.write p.1 b)) (base, m)).2
  { State.reset with
    st := .argcheck
    cr := { Control.reset with
      cmd := cmd, format := format, inCtl := 1, inBaseLo := 0x1000, inExtent := 64, inLen := BitVec.ofNat 32 block.length
      outCtl := 1, outBaseLo := 0x2000, outExtent := 64, outMax := 64 }
    mem := bytes 0x2000 out (bytes 0x1000 block { cells := [], discarded := [] }) }

/-- The same past `ARGCHECK`, with DECOMPRESS about to read its header. -/
def testHeader (cmd format : Word) (block : List Byte) : State :=
  { testState cmd format block [] with
    st := .readHeader, wr := { Working.reset with iend := block.length, oend := 64 } }

/-- The same past the header: `ip` at an operation, `out` written, `ulen` declared. -/
def testTag (format : Word) (block out : List Byte) (ip ulen : Nat) : State :=
  { testState 4 format block out with
    st := .readTag
    wr := { Working.reset with iend := block.length, oend := 64, ip := ip, op := out.length, ulen := ulen, olimit := ulen } }

/-- COMPRESS of `block` past `ARGCHECK`, in state `st`. -/
def testCompress (st : EngineState) (block out : List Byte) (anchor ip cand mlen : Nat) : State :=
  { testState 2 0 block out with
    st := st
    table := if st = .cHeader then [] else List.replicate 256 none
    wr := { Working.reset with
      iend := block.length, olimit := mcl block.length, op := out.length, anchor := anchor, ip := ip, cand := cand, mlen := mlen
      ts := if st = .cHeader then 0 else 256 } }

/-- Whether an outcome is a next state that passes `p`. -/
def isNext (o : Host.Outcome State Fault Refusal) (p : State → Bool) : Bool :=
  match o with
  | .next t => p t
  | .fault _ => false
  | .refused _ => false

/-- Whether a state has latched an error. -/
def Sys2Proof.Machine.State.latched (t : State) (kind reason offset : Nat) : Bool :=
  decide (t.st = .fault) && decide (t.cr.errKind.toNat = kind) && decide (t.cr.errReason.toNat = reason) &&
    decide (t.cr.errOffset.toNat = offset) && decide (t.cr.result = 0)

/-- The first `n` bytes of the output buffer. -/
def Sys2Proof.Machine.State.outBytes (t : State) (n : Nat) : List Byte := (List.range n).map t.outByte

/-- P1: `ulen = 11`, `ip = 1`, `olimit = 11`. -/
theorem test_step_hdr : isNext (step (testHeader 4 0 [0x0B, 0x00, 0x61])) (fun t =>
    decide (t.st = .readTag ∧ t.wr.ulen = 11 ∧ t.wr.ip = 1 ∧ t.wr.olimit = 11)) = true := by decide
/-- V3: GETULEN of `FF FF FF FF 08` faults `INVALID_LENGTH` at 0. -/
theorem test_step_hdr_invalid : isNext (step (testHeader 3 0 [0xFF, 0xFF, 0xFF, 0xFF, 0x08])) (·.latched 1 2 0) = true := by decide
/-- V25, first operation. -/
theorem test_step_litI : isNext (step (testTag 0 [0x06, 0x04, 0x61, 0x62] [] 1 6)) (fun t =>
    decide (t.outBytes 3 = [0x61, 0x62, 0] ∧ t.wr.ip = 4 ∧ t.wr.op = 2 ∧ t.st = .readTag)) = true := by decide
/-- V45b: the input test is first. -/
theorem test_step_litI_exceeds : isNext (step (testTag 0 [0x02, 0x10, 0x61, 0x62, 0x63] [] 1 2)) (·.latched 1 6 1) = true := by
  decide
/-- V21. -/
theorem test_step_litT1 : isNext (step (testTag 0 [0x01, 0xF0, 0x00, 0x61] [] 1 1)) (fun t =>
    decide (t.outBytes 1 = [0x61] ∧ t.wr.ip = 4 ∧ t.wr.op = 1)) = true := by decide
/-- V22. -/
theorem test_step_litT2 : isNext (step (testTag 0 [0x01, 0xF4, 0x00, 0x00, 0x61] [] 1 1)) (fun t =>
    decide (t.outBytes 1 = [0x61] ∧ t.wr.ip = 5 ∧ t.wr.op = 1)) = true := by decide
/-- V23. -/
theorem test_step_litT3 : isNext (step (testTag 0 [0x01, 0xF8, 0x00, 0x00, 0x00, 0x61] [] 1 1)) (fun t =>
    decide (t.outBytes 1 = [0x61] ∧ t.wr.ip = 6 ∧ t.wr.op = 1)) = true := by decide
/-- V24. -/
theorem test_step_litT4 : isNext (step (testTag 0 [0x01, 0xFC, 0x00, 0x00, 0x00, 0x00, 0x61] [] 1 1)) (fun t =>
    decide (t.outBytes 1 = [0x61] ∧ t.wr.ip = 7 ∧ t.wr.op = 1)) = true := by decide
/-- V24c: `LENGTH_OVERFLOW` at the tag. -/
theorem test_step_litT4_overflow : isNext (step (testTag 0 [0x01, 0xFC, 0xFF, 0xFF, 0xFF, 0x7F] [] 1 1)) (·.latched 1 5 1) = true := by
  decide
/-- P2, second operation: eleven `a`. -/
theorem test_step_copy1 : isNext (step (testTag 0 [0x0B, 0x00, 0x61, 0x19, 0x01] [0x61] 3 11)) (fun t =>
    decide (t.outBytes 12 = List.replicate 11 0x61 ++ [0] ∧ t.wr.ip = 5 ∧ t.wr.op = 11)) = true := by decide
/-- V25c. -/
theorem test_step_copy1_beyond : isNext (step (testTag 0 [0x05, 0x00, 0x61, 0xE1, 0x00] [0x61] 3 5)) (·.latched 1 9 3) = true := by
  decide
/-- V26. -/
theorem test_step_copy2 : isNext (step (testTag 0 [0x06, 0x04, 0x61, 0x62, 0x0E, 0x02, 0x00] [0x61, 0x62] 4 6)) (fun t =>
    decide (t.outBytes 6 = [0x61, 0x62, 0x61, 0x62, 0x61, 0x62] ∧ t.wr.ip = 7 ∧ t.wr.op = 6)) = true := by decide
/-- V27. -/
theorem test_step_copy4 : isNext (step (testTag 0 [0x06, 0x04, 0x61, 0x62, 0x0F, 0x02, 0, 0, 0] [0x61, 0x62] 4 6)) (fun t =>
    decide (t.outBytes 6 = [0x61, 0x62, 0x61, 0x62, 0x61, 0x62] ∧ t.wr.ip = 9 ∧ t.wr.op = 6)) = true := by decide
/-- V5. -/
theorem test_step_copy4_zero : isNext (step (testTag 0 [0x05, 0x00, 0x61, 0x0F, 0, 0, 0, 0] [0x61] 3 5)) (·.latched 1 8 3) = true := by
  decide
/-- V30. -/
theorem test_step_copyX : isNext (step (testTag 1 [0x0B, 0x00, 0x61, 0x03, 0x09, 0, 0, 0, 0x01, 0] [0x61] 3 11)) (fun t =>
    decide (t.outBytes 11 = List.replicate 11 0x61 ∧ t.wr.ip = 10 ∧ t.wr.op = 11)) = true := by decide
/-- V32. -/
theorem test_step_copyX_overrun : isNext (step (testTag 1 [0x0A, 0x00, 0x61, 0x03, 0xFE, 0xFF, 0xFF, 0x7F, 0x01, 0] [0x61] 3 10))
    (·.latched 1 7 3) = true := by decide
/-- V31. -/
theorem test_step_reservedFvt1 : isNext (step (testTag 1 [0x0B, 0x00, 0x61, 0x07, 0x09] [0x61] 3 11)) (·.latched 1 11 3) = true := by
  decide
/-- V42 and V49: the completion test. -/
theorem test_step_completion : isNext (step (testTag 0 [0x05, 0x00, 0x61] [0x61] 3 5)) (·.latched 1 3 3) = true ∧
    isNext (step (testTag 0 [0x01, 0x00, 0x61, 0x00, 0x62] [0x61] 3 1)) (·.latched 1 10 3) = true ∧
    isNext (step (testTag 0 [0x01, 0x00, 0x61] [0x61] 3 1)) (fun t => decide (t.status = 0xE2 ∧ t.cr.result = 1)) = true := by
  decide
/-- V70. -/
theorem test_step_maxlen : isNext (step { testState 1 7 [] [] with cr := { (testState 1 7 [] []).cr with arg := 11 } }) (fun t =>
    decide (t.status = 0xE2 ∧ t.cr.result = 44)) = true := by decide
theorem test_step_maxlen_negative : isNext (step { testState 1 0 [] [] with cr := { (testState 1 0 [] []).cr with arg := 0xFFFFFFFF } })
    (·.latched 2 1 0) = true := by decide
/-- V54: `IN_LEN = 11` with `OUT_MAX = 64`, then 43. -/
theorem test_step_compress : isNext (step (testState 2 0 (List.replicate 11 0x61) [])) (fun t =>
    decide (t.st = .cHeader ∧ t.wr.istart = 0 ∧ t.wr.iend = 11 ∧ t.wr.op = 0 ∧ t.wr.olimit = 44)) = true := by decide
theorem test_step_compress_small :
    let s := testState 2 0 (List.replicate 11 0x61) []
    isNext (step { s with cr := { s.cr with outMax := 43 } }) (fun t => t.latched 3 1 0 && decide (t.mem = s.mem)) = true := by decide
/-- S3: GETULEN's view runs to `IN_EXTENT`. -/
theorem test_step_getulen : isNext (step (testState 3 0 [0xAC, 0x02] [])) (fun t =>
    decide (t.st = .readHeader ∧ t.wr.istart = 0 ∧ t.wr.ip = 0 ∧ t.wr.iend = 64)) = true := by decide
/-- V65: presence before `VAL.check`. -/
theorem test_step_getulen_absent :
    let s := testState 3 0 [0xAC, 0x02] []
    isNext (step { s with cr := { s.cr with inCtl := 0, inOff := 0xFFFFFFFF } }) (·.latched 2 6 0) = true := by decide
/-- P6's views: `IN_OFF = 4`, `IN_LEN = 8`. -/
theorem test_step_decompress :
    let s := testState 4 0 [0xAA, 0xAA, 0xAA, 0xAA, 0x08] []
    isNext (step { s with cr := { s.cr with inOff := 4, inLen := 8 } }) (fun t =>
      decide (t.st = .readHeader ∧ t.wr.istart = 4 ∧ t.wr.iend = 12 ∧ t.wr.ip = 4 ∧ t.wr.op = 0 ∧ t.wr.oend = 64)) = true := by decide
/-- V59: `IN_EXTENT = 13`, `IN_OFF = 5`, `IN_LEN = 9`. -/
theorem test_step_decompress_range :
    let s := testState 4 0 [] []
    isNext (step { s with cr := { s.cr with inExtent := 13, inOff := 5, inLen := 9 } }) (·.latched 2 4 0) = true := by decide
/-- V62 and V63. -/
theorem test_step_badCommand : isNext (step (testState 5 7 [] [])) (·.latched 2 7 0) = true ∧
    isNext (step (testState 4 2 [] [])) (·.latched 2 8 0) = true := by decide

/-! ### The compressor's transitions -/

/-- V83: `C_HEADER` of eleven `a`. -/
theorem test_step_cHeader : isNext (step (testCompress .cHeader (List.replicate 11 0x61) [] 0 0 0 0)) (fun t =>
    decide (t.outBytes 1 = [0x0B] ∧ t.st = .cScan ∧ t.wr.op = 1 ∧ t.wr.ts = 256 ∧ t.table[242]? = some none)) = true := by decide
/-- V83: at position 1 the entry is found and the match is 10 long. -/
theorem test_step_cScan :
    let s := testCompress .cScan (List.replicate 11 0x61) [0x0B] 0 1 0 0
    isNext (step { s with table := s.table.set 242 (some 0) }) (fun t =>
      decide (t.st = .cEmit ∧ t.wr.ip = 1 ∧ t.wr.cand = 0 ∧ t.wr.mlen = 10)) = true := by decide
/-- V92b: backward extension under FVT1. -/
theorem test_backward : findMatch fvt1 (fun a => [0x61, 0x62, 0x63, 0x64, 0x61, 0x62, 0x63, 0x64, 0x65, 0x66, 0x67, 0x68, 0x58, 0x64,
    0x65, 0x66, 0x67, 0x68].getD a 0) 0 18 8 14 (some 8) = some (13, 7, 5) := by decide
/-- V83: the literal and the copy. -/
theorem test_step_cEmit : isNext (step (testCompress .cEmit (List.replicate 11 0x61) [0x0B] 0 1 0 10)) (fun t =>
    decide (t.outBytes 6 = [0x0B, 0x00, 0x61, 0x19, 0x01, 0] ∧ t.st = .cScan ∧ t.wr.ip = 11 ∧ t.wr.anchor = 11)) = true := by decide
/-- V81c: the tail of "abc". -/
theorem test_step_cTail : isNext (step (testCompress .cTail [0x61, 0x62, 0x63] [0x03] 0 0 0 0)) (fun t =>
    decide (t.outBytes 5 = [0x03, 0x08, 0x61, 0x62, 0x63] ∧ t.status = 0xE2 ∧ t.cr.result = 5)) = true := by decide

/-! ### The views and the host -/

/-- V16: period 3. -/
theorem test_copyForward :
    (match (testState 4 0 [] [0x61, 0x62, 0x63]).bvCopyForward { space := .output, start := 0, limit := 16 } 3 0 9 with
      | .ok t => t.outBytes 13
      | .error _ => []) = [0x61, 0x62, 0x63, 0x61, 0x62, 0x63, 0x61, 0x62, 0x63, 0x61, 0x62, 0x63, 0] := by decide
/-- V16: `s = d`, and a destination past the limit. -/
theorem test_copyForward_fails :
    (testState 4 0 [] []).bvCopyForward { space := .output, start := 0, limit := 16 } 3 3 1 =
      .error (.fault (.viewFailure .offsetOutOfRange)) ∧
    (testState 4 0 [] []).bvCopyForward { space := .output, start := 0, limit := 16 } 3 0 14 =
      .error (.fault (.viewFailure .rangeExceedsBuffer)) := ⟨rfl, rfl⟩
/-- V15: a read at the limit. -/
theorem test_bvRead : (testState 4 0 [0x0B, 0x28, 0x68] []).bvRead { space := .input, start := 1, limit := 3 } 1 = .ok 40 ∧
    (testState 4 0 [0x0B, 0x28, 0x68] []).bvRead { space := .input, start := 1, limit := 3 } 3 =
      .error (.fault (.viewFailure .offsetOutOfRange)) := ⟨rfl, rfl⟩
/-- R23: the reserved bits of `IN_CTL` read 0; R33: a write while `BUSY = 1` is ignored. -/
theorem test_host_writes : (State.reset.writeReg .inCtl 0xFFFFFFFF).readReg .inCtl = 3 ∧
    ((testState 4 0 [] []).writeReg .outMax 100).readReg .outMax = 64 ∧
    (State.reset.writeReg .result 5).readReg .result = 0 := by decide
/-- S4: after a reset all the descriptors are absent; memory of the input is unchanged. -/
theorem test_reset : isNext (hostMove .reset (testTag 0 [0x0B, 0x00, 0x61] [] 1 11)) (fun t =>
    decide (t.status = 0 ∧ t.cr = Control.reset ∧ t.inByte 0x1000 = 0x0B ∧ t.inByte 0x1002 = 0x61)) = true := by decide

/-! ### The OPEN parameters (R4) -/

/-- With `PADDR_BITS = 13` the output buffer's base `0x2000` does not exist: `ArithmeticOverflow` (R172). -/
theorem test_open_paddrBits :
    isNext (stepWith { Params.defaults with paddrBits := 13 } (testState 4 0 [0x00] [])) (·.latched 2 5 0) = true := by decide
/-- With `NFMT = 1` format 1 is `BadFormat` (R171). -/
theorem test_open_nfmt :
    isNext (stepWith { Params.defaults with tables := [fvt0] } (testState 4 1 [0x00] [])) (·.latched 2 8 0) = true := by decide
/-- Under a table without `COPY1` and `COPY4` the class `COPY2` has index 5, and under FVT0 index 6 (R10, R11). -/
theorem test_open_cls :
    let six : FVT := { fvt0 with classes := [ClassName.litI, .litT1, .litT2, .litT3, .litT4, .copy2].map ClassName.row }
    let block : List Byte := [0x02, 0x00, 0x61, 0x02, 0x01, 0x00]
    isNext (stepWith { Params.defaults with tables := [fvt0, fvt1, six] } (testTag 2 block [0x61] 3 2)) (·.wr.cls == 5) = true ∧
    isNext (stepWith { Params.defaults with tables := [fvt0, fvt1, six] } (testTag 0 block [0x61] 3 2)) (·.wr.cls == 6) = true := by
  decide
/-- A table of its own tag layout (R65, R66): `1LLLLLLL` is a literal of `L + 1` bytes, `0LLLHHHH` with a trailer a copy of `L + 3`
bytes at offset `256 H` plus the trailer. -/
def ownTable : FVT :=
  { hasHeader := false, minMatch := 4, maxOffset := 4095, backwardExtend := false,
    classes := [
      { name := .text "RUN", mask := 0x80, pattern := 0x80, kind := .literal, lenInline := some (6, 0), lenInlineMax := none,
        lenBias := 1, nL := 0, offInline := none, offShift := 0, nO := 0 },
      { name := .text "MATCH", mask := 0x80, pattern := 0x00, kind := .copy, lenInline := some (6, 4), lenInlineMax := none,
        lenBias := 3, nL := 0, offInline := some (3, 0), offShift := 8, nO := 1 }] }
theorem test_open_layout :
    let P := { Params.defaults with tables := [fvt0, fvt1, ownTable] }
    let block : List Byte := [0x82, 0x61, 0x62, 0x63, 0x10, 0x03]
    isNext (stepWith P (testTag 2 block [] 0 7)) (fun t => t.outBytes 3 == [0x61, 0x62, 0x63] && t.wr.ip == 4) = true ∧
    isNext (stepWith P (testTag 2 block [0x61, 0x62, 0x63] 4 7))
      (fun t => t.outBytes 7 == [0x61, 0x62, 0x63, 0x61, 0x62, 0x63, 0x61] && t.wr.cls == 1 && t.wr.tag == 0x10 && t.wr.off == 3) = true ∧
    decodeBlock ownTable block 64 7 = .ok [0x61, 0x62, 0x63, 0x61, 0x62, 0x63, 0x61] := by decide
/-- Two engines: the second's command runs over the output view of the first's, which R207 rules out; with the first idle it
runs. -/
theorem test_open_neng :
    Platform.step Params.defaults 1 [testTag 0 [0x01, 0x00, 0x61] [] 1 1, testState 4 0 [0x00] []] matches .refused .viewsOverlap ∧
    Platform.step Params.defaults 1 [State.reset, testState 4 0 [0x00] []] matches .next _ := by decide

/-! ### Words of the opcode table -/

theorem test_tableWords : decodeTableWord 8 0xEC = some (.litI 60) ∧ decodeTableWord 8 0xF0 = some (.litT1 1) ∧
    decodeTableWord 8 0x1D = some (.copy1 11 0) ∧ decodeTableWord 8 0x03 = some (.copy4 1 0) ∧
    decodeTableWord 8 0x83 = some (.reservedFvt1 0x83) ∧ decodeTableWord 56 0x03 = some (.copyX 1 0) ∧
    decodeTableWord 32 4 = some .decompress ∧ decodeTableWord 0 0 = some (.hdr 1 0) ∧ decodeTableWord 32 9 = none := by decide
/-- The next step after reset runs the word's instruction: `LIT_I` of 60 zero bytes writes them and moves both cursors. -/
theorem test_withFetchWord : isNext (step (State.reset.withFetchWord 8 0xEC)) (fun t =>
    decide (t.wr.opc = 1 ∧ t.wr.ip = 62 ∧ t.wr.op = 60 ∧ t.st = .readTag)) = true := by decide
theorem test_withFetchWord_command : isNext (step (State.reset.withFetchWord 32 1)) (fun t =>
    decide (t.status = 0xE2 ∧ t.cr.result = 32)) = true := by decide

/-! ### States and operands that meet the hypotheses of the obligations -/

theorem test_witness_DecodeOfEncode : (fvt1 ∈ tables ∧ Instr.wf (.copyX 2147483647 65535) = true ∧
      fvt1.has (.copyX 2147483647 65535) = true ∧
      encode (.copyX 2147483647 65535) = .operation [0x03, 0xFE, 0xFF, 0xFF, 0x7F, 0xFF, 0xFF]) ∧
    (fvt0 ∈ tables ∧ Instr.wf (.hdr 5 2147483647) = true ∧ fvt0.has (.hdr 5 2147483647) = true ∧
      encode (.hdr 5 2147483647) = .header [0xFF, 0xFF, 0xFF, 0xFF, 0x07]) := by decide
theorem test_witness_EncodeOfDecode : fvt1 ∈ tables ∧
    decode fvt1 (.operation [0x03, 0xFE, 0xFF, 0xFF, 0x7F, 0xFF, 0xFF, 0x99]) = .ok (.copyX 2147483647 65535) ∧
    decode fvt1 (.header [0x80, 0x00, 0x99]) = .ok (.hdr 2 0) ∧ decode fvt1 (.command 4) = .ok .decompress := by decide
theorem test_witness_Fvt0Classes : (4 ≤ 64 ∧ 64 ≤ 64 ∧ 1 ≤ 65535 ∧ 65535 ≤ 65535) ∧
    (bits 0xEC 1 0 = 0 ∧ bits 0xEC 7 2 = 59) ∧ (bits 0xF0 1 0 = 0 ∧ bits 0xF0 7 2 = 60) ∧ (bits 0xF4 1 0 = 0 ∧ bits 0xF4 7 2 = 61) ∧
    (bits 0xF8 1 0 = 0 ∧ bits 0xF8 7 2 = 62) ∧ (bits 0xFC 1 0 = 0 ∧ bits 0xFC 7 2 = 63) ∧ bits 0xFD 1 0 = 1 ∧ bits 0xFE 1 0 = 2 ∧
    bits 0xFF 1 0 = 3 := by decide
theorem test_witness_Fvt1Classes : bits 0xFE 1 0 ≠ 3 ∧ bits 0x03 1 0 = 3 ∧ (bits 0x07 1 0 = 3 ∧ (0x07 : Byte) ≠ 0x03) := by decide
theorem test_witness_TrailersAssemble :
    (1 ≤ intMax ∧ intMax < 1 + le (List.take 4 [0xFF, 0xFF, 0xFF, 0x7F])) ∧
    (2147483647 ≤ intMax ∧ 2147483647 + le (List.take 2 [0]) ≤ intMax ∧ [(0 : Byte)].length < 2) ∧
    (1 + le (List.take 4 [0xFE, 0xFF, 0xFF, 0x7F]) ≤ intMax ∧ 4 ≤ [(0xFE : Byte), 0xFF, 0xFF, 0x7F].length) := by decide
theorem test_witness_VarintLegality : readVarint [0xFF, 0xFF, 0xFF, 0xFF, 0x07] = .ok (2147483647, 5) ∧
    readVarint [] = .error .truncatedHeader ∧ readVarint [0x80, 0x80, 0x80, 0x80, 0x08] = .error .invalidLength := by decide
theorem test_witness_ShortestVarint : 0 ≤ intMax ∧ 2147483647 ≤ intMax ∧ readVarint [0x80, 0x00] = .ok (0, 2) := by decide
/-- Each clause at its bounds: 1 and 2147483647; 4, 11 and 2047; 12 and 64; 65536; 65. -/
theorem test_witness_ShortestClass : fvt0 ∈ tables ∧ fvt1 ∈ tables ∧ (1 ≤ 1 ∧ 2147483647 ≤ intMax) ∧
    (4 ≤ 4 ∧ 11 ≤ 11 ∧ 2047 ≤ 2047) ∧ (¬ (4 ≤ 12 ∧ 12 ≤ 11 ∧ 0 ≤ 2047) ∧ 12 ≤ 64 ∧ 0 ≤ 65535) ∧
    (¬ (4 ≤ 11 ∧ 11 ≤ 11 ∧ 2048 ≤ 2047) ∧ 11 ≤ 64 ∧ 2048 ≤ 65535) ∧ (64 ≤ 64 ∧ 65535 < 65536 ∧ 65536 ≤ intMax) ∧
    (64 < 65 ∧ 65 ≤ intMax ∧ 65535 ≤ 65535) := by decide
theorem test_witness_ValidatorCheck : (13 : Int) ≤ intMax ∧ valCheck 13 0 13 = none ∧ valCheck 0 0 (-1) = some .negativeValue ∧
    valCheck 14 0 13 = some .offsetOutOfRange ∧ valCheck 13 14 13 = some .lengthOutOfRange ∧
    valCheck 2147483647 2147483647 2147483647 = some .arithmeticOverflow ∧ valCheck 1 13 13 = some .rangeExceedsBuffer := by decide

/-- DECOMPRESS of V25 at its first operation. -/
abbrev decoding : State := testTag 0 [0x06, 0x04, 0x61, 0x62, 0x01, 0x02] [] 1 6

theorem test_witness_SingleByteAccess : decoding.mem.wf ∧
    decoding.phys decoding.vin.space decoding.vin.limit ≤ 2 ^ Config.paddrBits ∧ decoding.vin.limit ≤ 6 ∧
    decoding.vin.start ≤ 5 ∧ 5 < decoding.vin.limit ∧ 0 < ({ space := .input, start := 1, limit := 6 } : View).start := by decide
theorem test_witness_CopyLiteral :
    let d := decoding
    d.mem.wf ∧ d.vin.limit ≤ intMax ∧ d.vlim.limit ≤ intMax ∧ d.phys .input d.vin.limit ≤ 2 ^ Config.paddrBits ∧
    d.phys .output d.vlim.limit ≤ 2 ^ Config.paddrBits ∧
    valCheck (((1 : Nat) : Int) - d.vin.start) (6 : Nat) ((d.vin.limit : Int) - d.vin.start) = some .rangeExceedsBuffer ∧
    (valCheck (((0 : Nat) : Int) - d.vin.start) (6 : Nat) ((d.vin.limit : Int) - d.vin.start) = none ∧
      valCheck (((1 : Nat) : Int) - d.vlim.start) (6 : Nat) ((d.vlim.limit : Int) - d.vlim.start) = some .rangeExceedsBuffer) ∧
    (d.vin.start ≤ 0 ∧ 0 + 6 ≤ d.vin.limit ∧ d.vlim.start ≤ 0 ∧ 0 + 6 ≤ d.vlim.limit ∧
      ∀ i, i < 6 → ∀ j, j < 6 → d.phys .input (0 + i) ≠ d.phys .output (0 + j)) := by decide
theorem test_witness_CopyForward :
    let d := decoding
    d.mem.wf ∧ d.vlim.limit ≤ intMax ∧ d.phys .output d.vlim.limit ≤ 2 ^ Config.paddrBits ∧
    (3 < ({ space := .output, start := 4, limit := 6 } : View).start ∨ 2 ≤ 2) ∧
    (d.vlim.start ≤ 0 ∧ 0 < 3 ∧
      valCheck (((3 : Nat) : Int) - d.vlim.start) (4 : Nat) ((d.vlim.limit : Int) - d.vlim.start) = some .rangeExceedsBuffer) ∧
    (0 < 3 ∧ 3 + 3 ≤ d.vlim.limit) := by decide
theorem test_witness_MemoryLaws :
    let m : Memory := { cells := [(5, 1)], discarded := [{ lo := 7, hi := 9, stamp := 0 }] }
    m.wf ∧ (∀ r ∈ m.discarded, r.stamp ≠ 1) ∧ (4 ≠ 5) ∧ (3 < 4 ∨ 9 ≤ 3) ∧ (4 ≤ 8 ∧ 8 < 9) := by decide
theorem test_witness_StatusWord : (State.reset.readReg .status).getLsbD 0 = false ∧ decoding.st ≠ .idle := by decide

/-- While a command runs, the registers of the result are 0. -/
theorem decoding_latch : decoding.LatchOk := ⟨by decide, by decide, by decide, by decide⟩

theorem test_witness_BusyRegisters : decoding.busy = true ∧ decoding.LatchOk := ⟨rfl, decoding_latch⟩
theorem test_witness_AcceptedWrite : State.reset.busy = false ∧ CReg.inCtl ≠ .cmd ∧ CReg.outCtl ≠ .inCtl := by decide
theorem test_witness_CommandStart : decoding.busy = true ∧ State.reset.busy = false ∧
    CReg.inCtl ∉ [CReg.cmd, .status, .result, .errKind, .errReason, .errOffset] ∧
    decodeCommand 4 = .ok .decompress ∧ (0 : Word) ∉ [(1 : Word), 2, 3, 4] ∧ (5 : Word) ∉ [(1 : Word), 2, 3, 4] := by decide
theorem test_witness_RaiseChanges : CReg.cmd ∉ [CReg.status, .result, .errKind, .errReason, .errOffset] ∧
    ¬ decoding.mayWrite 0x1FFF ∧ ¬ decoding.mayWrite 0x2040 :=
  ⟨by decide, fun h => absurd h.1 (by decide), fun h => absurd h.2 (by decide)⟩
theorem test_witness_Latching : State.reset.busy = false ∧ HostMove.storeByte 5 1 ≠ .reset ∧
    (∀ v, HostMove.storeByte 5 1 ≠ .writeReg .cmd v) ∧ isNext (hostMove (.storeByte 5 1) State.reset) (fun _ => true) = true :=
  ⟨rfl, by decide, fun _ => by simp, by decide⟩
theorem test_witness_ResetEvent : ¬ (decoding.outputRange.1 ≤ ((0x2040 : Nat) : Int) ∧ ((0x2040 : Nat) : Int) < decoding.outputRange.2) ∧
    State.reset.busy = false ∧ decoding.busy = true ∧ (testState 4 0 [] []).busy = true ∧
    decoding.outputRange = ((0x2000 : Int), (0x2040 : Int)) ∧
    (testState 4 0 [] []).outputRange = ((0x2000 : Int), (0x2040 : Int)) := by decide
theorem test_witness_ResetState : (2 : Word) ∈ [(2 : Word), 3, 4] := by decide
theorem test_witness_HostMemoryMoves : decoding.mem.wf ∧ 0x2000 < 2 ^ Config.paddrBits ∧ State.reset.busy = false ∧
    (inSpan 0x1006 decoding.inputRange = false ∧ inSpan 0x1006 decoding.outputRange = false) ∧
    (decoding.busy = true ∧ inSpan 0x2000 decoding.outputRange = true ∧ inSpan 0x203F decoding.outputRange = true) ∧
    inSpan 0x1005 decoding.inputRange = true := by decide

/-- Descriptors of 13 and 64 bytes (V56 to V64), a command just started. -/
abbrev entering (cmd : Word) : State :=
  let s := testState cmd 0 [] []
  { s with cr := { s.cr with inExtent := 13, inLen := 13 } }

theorem test_witness_ArgumentView :
    let s := entering 4
    (13 : Int) ≤ intMax ∧ { s.cr with inCtl := 0 }.valid .input = false ∧ s.cr.valid .input = true ∧ s.cr.extent .input = 13 ∧
    ((-1 : Int) < 0) ∧ (13 : Int) < 14 ∧ ((13 : Int) ≤ 13 ∧ (13 : Int) < 14) ∧
    ({ s.cr with inExtent := 0x7FFFFFFF }.extent .input = 2147483647 ∧ (intMax : Int) < 2147483647 + 1) ∧
    ((13 : Int) ≤ 13 ∧ (13 : Int) + 1 ≤ intMax ∧ (13 : Int) < 13 + 1) ∧
    (2 : Int) ^ Config.paddrBits <
      ({ s.cr with inBaseHi := 0xFFFFFFFF, inBaseLo := 0xFFFFFFF8 }.base .input : Int) + s.cr.extent .input := by decide
theorem test_witness_MaxlenResult : (0 ≤ sext 0 ∧ sext 0 ≤ 1840700242) ∧ (0 ≤ sext 1840700242 ∧ sext 1840700242 ≤ 1840700242) ∧
    sext 0xFFFFFFFF < 0 ∧ 1840700242 < sext 1840700243 := by decide
theorem test_witness_BoundFormula : (0 : Nat) < 1 ∧ mcl 1840700242 ≤ intMax ∧ 1840700242 ≤ maxBlock := by decide

theorem entering_views {cmd : Word} (h : cmd ∈ [(2 : Word), 3, 4]) :
    (entering cmd).ViewOk .input (sext (entering cmd).cr.inOff) (sext (entering cmd).cr.inLen) ∧
    (entering cmd).ViewOk .output (sext (entering cmd).cr.outOff) (sext (entering cmd).cr.outMax) ∧
    (entering cmd).ViewOk .input (sext (entering cmd).cr.inOff) 0 := by
  simp only [List.mem_cons, List.not_mem_nil, or_false] at h
  rcases h with rfl | rfl | rfl <;>
    exact ⟨⟨by decide, by decide, by decide, by decide, by decide⟩, ⟨by decide, by decide, by decide, by decide, by decide⟩,
      ⟨by decide, by decide, by decide, by decide, by decide⟩⟩
theorem apart_bytes (s : State) (h1 : s.cr.base .input = 0x1000) (h2 : s.cr.base .output = 0x2000) (i n o m : Nat)
    (hi : i + n ≤ 64) : s.Disjoint i n o m := by
  intro a b _ _ _ _
  simp only [State.phys, h1, h2]
  omega

theorem test_witness_CompressEntry :
    let s := entering 2
    s.cr.format.toNat < 2 ∧ s.ViewOk .input (sext s.cr.inOff) (sext s.cr.inLen) ∧
    s.ViewOk .output (sext s.cr.outOff) (sext s.cr.outMax) ∧ sext s.cr.inLen ≤ 1840700242 ∧
    (mcl (sext s.cr.inLen).toNat : Int) ≤ sext s.cr.outMax ∧
    s.Disjoint (sext s.cr.inOff).toNat (sext s.cr.inLen).toNat (sext s.cr.outOff).toNat (sext s.cr.outMax).toNat :=
  ⟨by decide, (entering_views (cmd := 2) (by decide)).1, (entering_views (cmd := 2) (by decide)).2.1, by decide, by decide, apart_bytes _ rfl rfl _ _ _ _ (by decide)⟩
theorem test_witness_GetulenEntry :
    let s := entering 3
    (s.cr.format.toNat < 2 ∧ s.ViewOk .input (sext s.cr.inOff) 0) ∧ 2 ≤ (BitVec.toNat (2 : Word)) ∧
    { fvt0 with hasHeader := false }.hasHeader = false ∧
    argView { s with cr := { s.cr with inCtl := 0 } } .input (sext s.cr.inOff) 0 =
      .error (.raised (.invalidArgument .absentBuffer) { s with cr := { s.cr with inCtl := 0 } }) :=
  ⟨⟨by decide, (entering_views (cmd := 3) (by decide)).2.2⟩, by decide, rfl, rfl⟩
theorem test_witness_DecompressEntry :
    let s := entering 4
    s.cr.format.toNat < 2 ∧ s.ViewOk .input (sext s.cr.inOff) (sext s.cr.inLen) ∧
    s.ViewOk .output (sext s.cr.outOff) (sext s.cr.outMax) ∧
    s.Disjoint (sext s.cr.inOff).toNat (sext s.cr.inLen).toNat (sext s.cr.outOff).toNat (sext s.cr.outMax).toNat :=
  ⟨by decide, (entering_views (cmd := 4) (by decide)).1, (entering_views (cmd := 4) (by decide)).2.1, apart_bytes _ rfl rfl _ _ _ _ (by decide)⟩

/-- Two views that share a byte: both buffers at `0x1000`. -/
abbrev overlapping (cmd : Word) : State := { entering cmd with cr := { (entering cmd).cr with outBaseLo := 0x1000 } }

theorem overlapping_views (cmd : Word) : ¬ (overlapping cmd).Disjoint 0 13 0 64 :=
  fun h => h 0 0 (by decide) (by decide) (by decide) (by decide) rfl
/-- The six clauses: a bad format; a bad input view; a bad output view; an input too long; an output too small; an overlap. -/
theorem test_witness_CompressEntryStops :
    let s := entering 2
    let long : State := { s with cr := { s.cr with inExtent := 0x7FFFFFFF, inLen := 1840700243 } }
    2 ≤ BitVec.toNat (2 : Word) ∧ s.cr.format.toNat < 2 ∧
    argView { s with cr := { s.cr with inCtl := 0 } } .input (sext s.cr.inOff) (sext s.cr.inLen) =
      .error (.raised (.invalidArgument .absentBuffer) { s with cr := { s.cr with inCtl := 0 } }) ∧
    (argView s .input (sext s.cr.inOff) (sext s.cr.inLen) = .ok () ∧
      argView s .output (sext s.cr.outOff) (sext 65) = .error (.raised (.invalidArgument (.val .lengthOutOfRange)) s)) ∧
    (argView long .input (sext long.cr.inOff) (sext long.cr.inLen) = .ok () ∧
      argView long .output (sext long.cr.outOff) (sext long.cr.outMax) = .ok () ∧ 1840700242 < sext long.cr.inLen) ∧
    (sext s.cr.inLen ≤ 1840700242 ∧ sext 46 < mcl (sext s.cr.inLen).toNat) ∧
    (argView (overlapping 2) .input (sext s.cr.inOff) (sext s.cr.inLen) = .ok () ∧
      argView (overlapping 2) .output (sext s.cr.outOff) (sext s.cr.outMax) = .ok () ∧
      (mcl (sext s.cr.inLen).toNat : Int) ≤ sext s.cr.outMax ∧ ¬ (overlapping 2).Disjoint 0 13 0 64) :=
  ⟨by decide, by decide, rfl, ⟨rfl, rfl⟩, ⟨rfl, rfl, by decide⟩, ⟨by decide, by decide⟩,
    ⟨rfl, rfl, by decide, overlapping_views 2⟩⟩
theorem test_witness_DecompressEntryStops :
    let s := entering 4
    2 ≤ BitVec.toNat (2 : Word) ∧ s.cr.format.toNat < 2 ∧
    argView { s with cr := { s.cr with inCtl := 0 } } .input (sext s.cr.inOff) (sext s.cr.inLen) =
      .error (.raised (.invalidArgument .absentBuffer) { s with cr := { s.cr with inCtl := 0 } }) ∧
    (argView s .input (sext s.cr.inOff) (sext s.cr.inLen) = .ok () ∧
      argView s .output (sext s.cr.outOff) (sext 65) = .error (.raised (.invalidArgument (.val .lengthOutOfRange)) s)) ∧
    ({ fvt0 with hasHeader := false }.hasHeader = false ∧ argView s .output (sext s.cr.outOff) (sext s.cr.outMax) = .ok () ∧
      sext 0xFFFFFFFF < 0) ∧
    (argView (overlapping 4) .input (sext s.cr.inOff) (sext s.cr.inLen) = .ok () ∧
      argView (overlapping 4) .output (sext s.cr.outOff) (sext s.cr.outMax) = .ok () ∧ ¬ (overlapping 4).Disjoint 0 13 0 64) :=
  ⟨by decide, by decide, rfl, ⟨rfl, rfl⟩, ⟨rfl, rfl, by decide⟩, ⟨rfl, rfl, overlapping_views 4⟩⟩

theorem test_witness_HeaderResult : (Instr.hdr 5 2147483647).wf = true ∧ (testHeader 3 0 []).cr.cmd = 3 ∧
    ((testHeader 4 0 []).cr.cmd ≠ 3 ∧ 64 ≤ (testHeader 4 0 []).wr.oend - (testHeader 4 0 []).wr.ostart) ∧
    (testHeader 4 0 []).wr.oend - (testHeader 4 0 []).wr.ostart < 65 := by decide
theorem test_witness_ReadHeaderRule :
    let s := testHeader 4 0 [0x80, 0x01]
    (s.cr.format.toNat < 2 ∧ s.wr.istart ≤ s.wr.ip ∧ s.phys .input s.wr.iend ≤ 2 ^ Config.paddrBits) ∧
    readVarint (s.bytesFrom s.vin s.wr.ip) = .ok (128, 2) ∧
    readVarint ((testHeader 4 0 [0x80]).bytesFrom (testHeader 4 0 [0x80]).vin 0) = .error .truncatedHeader ∧
    readVarint ((testHeader 4 0 [0x80, 0x80, 0x80, 0x80, 0x80]).bytesFrom (testHeader 4 0 [0x80, 0x80, 0x80, 0x80, 0x80]).vin 0) =
      .error .invalidLength ∧ 0 ≤ sext s.cr.ulen := by decide
theorem test_witness_CompletionTest :
    let s := testTag 0 [0x01, 0x00, 0x61] [0x61] 3 1
    let t := testTag 0 [0x01, 0x00, 0x61, 0x00] [0x61] 3 1
    let u := testTag 0 [0x05, 0x00, 0x61] [0x61] 3 5
    (s.wr.op = s.wr.olimit ∧ s.wr.ip = s.wr.iend) ∧ (t.wr.op = t.wr.olimit ∧ t.wr.ip ≠ t.wr.iend) ∧
    (u.wr.op ≠ u.wr.olimit ∧ u.wr.ip = u.wr.iend) := by decide

/-- The instructions of the list of `LiteralOperations`; the three clauses: too little input, too little output, both enough. -/
theorem test_witness_LiteralOperations :
    let s := decoding
    ((Instr.litI 60).wf = true ∧ s.wr.iend - (s.wr.ip + 1) < 60) ∧
    ((Instr.litI 4).wf = true ∧ 4 ≤ s.wr.iend - (s.wr.ip + 1) ∧
      (testTag 0 [0x03, 0x0C, 0x61, 0x62, 0x63, 0x64] [] 1 3).wr.olimit - s.wr.op < 4) ∧
    (Instr.litT4 1).wf = true ∧
    ((Instr.litI 4).wf = true ∧ 4 ≤ s.wr.iend - (s.wr.ip + 1) ∧ 4 ≤ s.wr.olimit - s.wr.op ∧ s.mem.wf ∧ s.wr.istart ≤ s.wr.ip ∧
      s.wr.iend ≤ intMax ∧ s.wr.ostart ≤ s.wr.op ∧ s.wr.olimit ≤ intMax ∧ s.phys .input s.wr.iend ≤ 2 ^ Config.paddrBits ∧
      s.phys .output s.wr.olimit ≤ 2 ^ Config.paddrBits ∧ s.Disjoint (s.wr.ip + 1) 4 s.wr.op 4) :=
  ⟨by decide, by decide, by decide, by decide, by decide, by decide, by decide, by decide, by decide, by decide, by decide,
    by decide, by decide, apart_bytes _ rfl rfl _ _ _ _ (by decide)⟩
theorem test_witness_CopyOperations :
    let s := testTag 0 [0x06, 0x04, 0x61, 0x62, 0x01, 0x02] [0x61, 0x62] 4 6
    (Instr.copy1 4 0).wf = true ∧ ((Instr.copy2 4 3).wf = true ∧ s.wr.op - s.wr.ostart < 3) ∧
    ((Instr.copy4 5 2).wf = true ∧ 2 ≤ s.wr.op - s.wr.ostart ∧ s.wr.olimit - s.wr.op < 5) ∧
    ((Instr.copyX 4 2).wf = true ∧ 2 ≤ s.wr.op - s.wr.ostart ∧ 4 ≤ s.wr.olimit - s.wr.op ∧ s.mem.wf ∧ s.wr.olimit ≤ intMax ∧
      s.phys .output s.wr.olimit ≤ 2 ^ Config.paddrBits) := by decide
theorem test_witness_ReservedTagFaults : (Instr.reservedFvt1 0x07).wf = true ∧ (Instr.reservedFvt1 0xFF).wf = true := by decide
theorem test_witness_UndecodableOperationFaults :
    let s := testTag 0 [0x01, 0xF0] [] 1 1
    let t := testTag 0 [0x01, 0xFC, 0xFF, 0xFF, 0xFF, 0x7F] [] 1 1
    (tables[s.cr.format.toNat]? = some fvt0 ∧ s.wr.istart ≤ s.wr.ip ∧ s.wr.ip < s.wr.iend ∧ s.wr.op ≠ s.wr.olimit ∧
      s.phys .input s.wr.iend ≤ 2 ^ Config.paddrBits) ∧
    decodeOperation fvt0 (s.bytesFrom s.vin s.wr.ip) = .error .truncatedTrailer ∧
    decodeOperation fvt0 (t.bytesFrom t.vin t.wr.ip) = .error .lengthOverflow := by decide
theorem test_witness_StepRunsDecoded :
    let s := testState 4 0 [] []
    let h := testHeader 4 0 [0x06]
    let o := decoding
    (s.turns = [] ∧ s.st = .argcheck ∧ decodeCommand s.cr.cmd = .ok .decompress) ∧
    (h.turns = [] ∧ tables[h.cr.format.toNat]? = some fvt0 ∧ h.wr.istart ≤ h.wr.ip ∧
      h.phys .input h.wr.iend ≤ 2 ^ Config.paddrBits ∧ h.st = .readHeader ∧ fvt0.hasHeader = true ∧
      decode fvt0 (.header (h.bytesFrom h.vin h.wr.ip)) = .ok (.hdr 1 6)) ∧
    ({ o with turns := [.engine] }.turns.head? = some .engine ∧ tables[o.cr.format.toNat]? = some fvt0 ∧ o.wr.istart ≤ o.wr.ip ∧
      o.phys .input o.wr.iend ≤ 2 ^ Config.paddrBits ∧ o.st = .readTag ∧ o.wr.op ≠ o.wr.olimit ∧ o.wr.ip ≠ o.wr.iend ∧
      decode fvt0 (.operation (o.bytesFrom o.vin o.wr.ip)) = .ok (.litI 2)) := by decide
theorem test_witness_StepRunsHostMove :
    { State.reset with turns := [.host .reset, .engine] }.turns = .host .reset :: [.engine] := rfl

/-- A state of each kind in which a transition answers a next state. -/
theorem test_witness_Transitions :
    (∀ st ∈ [EngineState.idle, .done, .fault, .argcheck], isNext (engineStep { testState 4 0 [] [] with st := st }) fun _ => true) ∧
    isNext (engineStep (testHeader 4 0 [0x06])) (fun _ => true) = true ∧ isNext (engineStep decoding) (fun _ => true) = true ∧
    (∀ st ∈ [EngineState.emitLiteral, .emitCopy], isNext (engineStep { decoding with st := st }) fun _ => true) ∧
    (∀ st ∈ [EngineState.cHeader, .cScan, .cTail],
      isNext (engineStep (testCompress st [0x61, 0x62, 0x63] [] 0 0 0 0)) fun _ => true) ∧
    isNext (engineStep (testCompress .cEmit (List.replicate 11 0x61) [] 0 1 0 10)) (fun _ => true) = true := by decide
theorem test_witness_EngineKeepsArguments : isNext (engineStep decoding) (fun _ => true) = true ∧
    CReg.ulen ∉ [CReg.status, .result, .errKind, .errReason, .errOffset] := by decide

theorem decoding_ok : decoding.Decoding where
  command := rfl
  table := by decide
  input := ⟨by decide, by decide, by decide, by decide, by decide⟩
  output := ⟨by decide, by decide, by decide, by decide, by decide⟩
  apart := apart_bytes decoding rfl rfl 0 6 0 64 (by decide)
  ipLow := by decide
  ipHigh := by decide
  opLow := by decide
  opHigh := by decide
  declared := by decide
  capacity := by decide

theorem decoding_inv : decoding.Inv where
  memory := by decide
  stamps := by decide
  reserved := by decide
  latch := decoding_latch
  registers := by constructor <;> decide
  phase := decoding_ok
  turns := fun _ h => absurd h (by simp [testTag, testState, State.reset])

/-- DECOMPRESS of V25 about to read its header. -/
abbrev beginning : State := testHeader 4 0 [0x06, 0x04, 0x61, 0x62, 0x01, 0x02]

theorem beginning_inv : beginning.Inv where
  memory := by decide
  stamps := by decide
  reserved := by decide
  latch := ⟨by decide, by decide, by decide, by decide⟩
  registers := by constructor <;> decide
  phase := ⟨by decide, ⟨by decide, by decide, by decide, by decide, by decide⟩, by decide,
    .inr ⟨rfl, ⟨by decide, by decide, by decide, by decide, by decide⟩, rfl, apart_bytes beginning rfl rfl 0 6 0 64 (by decide)⟩⟩
  turns := fun _ h => absurd h (by simp [testHeader, testState, State.reset])

/-- COMPRESS of eleven `a` (V83) in one of its states. -/
theorem compressing_ok {st : EngineState} {out : List Byte} {anchor ip cand mlen : Nat} (h : out.length ≤ 44) :
    (testCompress st (List.replicate 11 0x61) out anchor ip cand mlen).Compressing where
  command := rfl
  table := by show 0 < 2; decide
  input := ⟨by show 0 ≤ 11; decide, by show (11 : Int) ≤ sext 64; decide,
    by show (BitVec.toNat ((0 : Word) ++ (0x1000 : Word))) + 11 ≤ 2 ^ Config.paddrBits; decide, rfl, rfl⟩
  output := ⟨by show 0 ≤ 44; decide, by show (44 : Int) ≤ sext 64; decide,
    by show (BitVec.toNat ((0 : Word) ++ (0x2000 : Word))) + 44 ≤ 2 ^ Config.paddrBits; decide, rfl,
    by show (44 : Int) ≤ sext 0 + sext 64; decide⟩
  apart := apart_bytes _ (by show BitVec.toNat ((0 : Word) ++ (0x1000 : Word)) = 0x1000; decide)
    (by show BitVec.toNat ((0 : Word) ++ (0x2000 : Word)) = 0x2000; decide) 0 11 0 44 (by decide)
  bound := by show mcl 11 = 0 + mcl (11 - 0); decide
  opLow := Nat.zero_le _
  opHigh := h

theorem header_inv : (testCompress .cHeader (List.replicate 11 0x61) [] 0 0 0 0).Inv where
  memory := by decide
  stamps := by decide
  reserved := by decide
  latch := ⟨by decide, by decide, by decide, by decide⟩
  registers := by constructor <;> decide
  phase := ⟨compressing_ok (by decide), rfl⟩
  turns := fun _ h => absurd h (by simp [testCompress, testState, State.reset])

theorem no_positions (lo p : Nat) : ∀ q, some q ∈ List.replicate 256 (none : Option Nat) → lo ≤ q ∧ q < p :=
  fun q h => absurd (List.eq_of_mem_replicate h) (by simp)

theorem scanning_ok : (testCompress .cScan (List.replicate 11 0x61) [0x0B] 0 0 0 0).Scanning :=
  ⟨by decide, by decide, by decide, ⟨List.length_replicate, by decide, no_positions _ _⟩⟩

theorem matched_ok : (testCompress .cEmit (List.replicate 11 0x61) [0x0B] 0 1 0 10).Matched fvt0 :=
  ⟨by decide, by decide, by decide, by decide, by decide, by decide, by decide, by decide, by decide,
    ⟨List.length_replicate, by decide, no_positions _ _⟩⟩

theorem test_witness_CompressHeader :
    let s := testCompress .cHeader (List.replicate 11 0x61) [] 0 0 0 0
    fvt0.hasHeader = true ∧ s.mem.wf ∧ s.wr.ostart ≤ s.wr.op ∧
    s.wr.op + (shortestVarint (s.wr.iend - s.wr.istart)).length ≤ s.wr.olimit ∧
    s.phys .output s.wr.olimit ≤ 2 ^ Config.paddrBits := by decide
/-- The three clauses: three bytes left; no candidate; position 0 qualifies at position 1. -/
theorem test_witness_CompressScan :
    let s := testCompress .cScan (List.replicate 11 0x61) [0x0B] 0 1 0 0
    let t := { s with table := s.table.set 242 (some 0) }
    let near : State := { s with wr := { s.wr with ip := 8 } }
    fvt0 ∈ tables ∧ s.wr.istart ≤ s.wr.anchor ∧ s.wr.anchor ≤ s.wr.ip ∧ s.wr.ip ≤ s.wr.iend ∧
    s.phys .input s.wr.iend ≤ 2 ^ Config.paddrBits ∧ (∀ q, some q ∈ s.table → s.wr.istart ≤ q ∧ q < s.wr.ip) ∧
    near.wr.iend - near.wr.ip < 4 ∧ 4 ≤ s.wr.iend - s.wr.ip ∧
    (s.table[hash (windowAt s.inByte s.wr.ip) s.wr.ts]?).getD none = none ∧
    (∀ q, some q ∈ t.table → t.wr.istart ≤ q ∧ q < t.wr.ip) ∧
    (t.table[hash (windowAt t.inByte t.wr.ip) t.wr.ts]?).getD none = some 0 ∧ t.wr.ip - 0 ≤ fvt0.maxOffset ∧
    windowAt t.inByte 0 = windowAt t.inByte t.wr.ip :=
  ⟨by decide, by decide, by decide, by decide, by decide, no_positions _ _, by decide, by decide, by decide,
    fun q h => by
      rcases List.mem_or_eq_of_mem_set h with h | h
      · exact no_positions _ _ q h
      · simp only [Option.some.injEq] at h; subst h; exact ⟨Nat.le_refl 0, by decide⟩,
    by decide, by decide, by decide⟩
/-- The two clauses: room for the four bytes, and none. -/
theorem test_witness_CompressEmit :
    let s := testCompress .cEmit (List.replicate 11 0x61) [0x0B] 0 1 0 10
    let u : State := { s with wr := { s.wr with op := 44 } }
    let bytes := literalRunBytes fvt0 (s.bytesFrom s.vin s.wr.istart) (s.wr.ip - s.wr.istart) (s.wr.ip - s.wr.anchor)
        (s.wr.anchor - s.wr.istart) ++ copyBytes fvt0 s.wr.mlen (s.wr.ip - s.wr.cand)
    fvt0 ∈ tables ∧ s.mem.wf ∧ s.Compressing ∧ s.Matched fvt0 ∧ s.wr.op + bytes.length ≤ s.wr.olimit ∧
    u.Compressing ∧ u.Matched fvt0 ∧ u.wr.olimit < u.wr.op + bytes.length :=
  have c : (testCompress .cEmit (List.replicate 11 0x61) [0x0B] 0 1 0 10).Compressing := compressing_ok (by decide)
  ⟨by decide, by decide, c, matched_ok, by decide,
    ⟨c.command, c.table, ⟨c.input.ordered, c.input.inside, c.input.mapped, c.input.start, c.input.limit⟩,
      ⟨c.output.ordered, c.output.inside, c.output.mapped, c.output.start, c.output.limit⟩, c.apart, c.bound, by decide, by decide⟩,
    ⟨by decide, by decide, by decide, by decide, by decide, by decide, by decide, by decide, by decide,
      ⟨List.length_replicate, by decide, no_positions _ _⟩⟩, by decide⟩
theorem test_witness_CompressTail :
    let s := testCompress .cScan (List.replicate 11 0x61) [0x0B] 0 0 0 0
    let u : State := { s with wr := { s.wr with op := 44 } }
    let bytes := literalRunBytes fvt0 (s.bytesFrom s.vin s.wr.istart) (s.wr.iend - s.wr.istart) (s.wr.iend - s.wr.anchor)
        (s.wr.anchor - s.wr.istart)
    fvt0 ∈ tables ∧ s.mem.wf ∧ s.Compressing ∧ s.Scanning ∧ s.wr.op + bytes.length ≤ s.wr.olimit ∧
    u.Compressing ∧ u.Scanning ∧ u.wr.olimit < u.wr.op + bytes.length :=
  have c : (testCompress .cScan (List.replicate 11 0x61) [0x0B] 0 0 0 0).Compressing := compressing_ok (by decide)
  ⟨by decide, by decide, c, scanning_ok, by decide,
    ⟨c.command, c.table, ⟨c.input.ordered, c.input.inside, c.input.mapped, c.input.start, c.input.limit⟩,
      ⟨c.output.ordered, c.output.inside, c.output.mapped, c.output.start, c.output.limit⟩, c.apart, c.bound, by decide, by decide⟩,
    ⟨by decide, by decide, by decide, ⟨List.length_replicate, by decide, no_positions _ _⟩⟩, by decide⟩
/-- V55: two bytes left, three needed. -/
theorem test_witness_EmissionOverrun :
    let s := testCompress .cEmit (List.replicate 11 0x61) (List.replicate 42 0) 0 1 0 10
    (s.wr.olimit - s.wr.op < 3 ∧ 2 ≤ s.wr.olimit - s.wr.op) ∧
    (fvt0.choose .copy 64 1 = some ClassName.copy2.row ∧ s.wr.olimit - s.wr.op < ClassName.copy2.row.size) ∧
    (fvt0.choose .literal 2 0 = some ClassName.litI.row ∧ s.wr.olimit - s.wr.op < ClassName.litI.row.size + 2) ∧
    (fvt0.hasHeader = true ∧ (testCompress .cHeader [0] (List.replicate 33 0) 0 0 0 0).wr.olimit - 33 <
      (shortestVarint (1 - 0)).length) := by decide
theorem test_witness_TableAndHash : 16384 ≤ 16384 ∧ 256 < tableSize 257 ∧ tableSize 257 / 2 < 257 := by decide

theorem test_witness_StepKeepsInvariant : decoding.Inv ∧ isNext (step decoding) (fun _ => true) = true :=
  ⟨decoding_inv, by decide⟩
theorem test_witness_NoModelFault : decoding.Inv ∧ beginning.Inv := ⟨decoding_inv, beginning_inv⟩
theorem test_witness_WritesConfined : decoding.Inv ∧ isNext (engineStep decoding) (fun _ => true) = true ∧
    ¬ decoding.mayWrite 0x2040 ∧ decoding.busy = true ∧ decoding.st ≠ .argcheck ∧ decoding.wr.istart ≤ 5 ∧ 5 < decoding.wr.iend :=
  ⟨decoding_inv, by decide, fun h => absurd h.2 (by decide), rfl, by decide, by decide, by decide⟩
theorem test_witness_DecompressWritesBelowLimit : decoding.Inv ∧ decoding.st = .readTag ∧
    isNext (engineStep decoding) (fun t => decide (t.st ≠ .fault)) = true ∧
    ¬ (decoding.phys .output decoding.wr.op ≤ 0x2006 ∧ 0x2006 < decoding.phys .output decoding.wr.olimit) :=
  ⟨decoding_inv, rfl, by decide, by decide⟩
/-- The other memory differs in a byte below the input buffer and in one past the output view. -/
theorem test_witness_ReadsConfined :
    let m := (decoding.mem.write 0xFFF 1).write 0x2040 1
    decoding.Inv ∧ m.wf ∧ m ≠ decoding.mem ∧
    (∀ a, decoding.wr.istart ≤ a → a < decoding.wr.iend →
      m.read (decoding.phys .input a) = decoding.mem.read (decoding.phys .input a)) ∧
    (∀ a, decoding.mayWrite a → m.read a = decoding.mem.read a) ∧ isNext (engineStep decoding) (fun _ => true) = true := by
  have w := decoding_inv.memory
  have r : ∀ a, a ≠ 0xFFF → a ≠ 0x2040 →
      ((decoding.mem.write 0xFFF 1).write 0x2040 1).read a = decoding.mem.read a := by
    intro a h1 h2
    rw [Memory.read_write (Memory.wf_write w _ _), if_neg h2, Memory.read_write w, if_neg h1]
  refine ⟨decoding_inv, by decide, by decide, fun a _ h => ?_, fun a h => ?_, by decide⟩
  · have h' : a < 6 := h
    have e : decoding.phys .input a = 0x1000 + a := rfl
    rw [e]
    exact r _ (by omega) (by omega)
  · obtain ⟨h1, h2⟩ := h
    have e1 : decoding.phys .output decoding.wr.ostart = 0x2000 := rfl
    have e2 : decoding.phys .output decoding.wr.oend = 0x2040 := rfl
    exact r _ (by omega) (by omega)
theorem test_witness_DecompressTerminates : decoding.Inv ∧ decoding.st = .readTag ∧ decoding.turns = [] :=
  ⟨decoding_inv, rfl, rfl⟩
theorem test_witness_CompressTerminates :
    let s := testCompress .cHeader (List.replicate 11 0x61) [] 0 0 0 0
    s.Inv ∧ s.st = .cHeader ∧ s.turns = [] := ⟨header_inv, rfl, rfl⟩
theorem test_witness_DecompressIsDecode : beginning.Inv ∧ beginning.st = .readHeader ∧ beginning.cr.cmd = 4 ∧ beginning.turns = [] ∧
    tables[beginning.cr.format.toNat]? = some fvt0 := ⟨beginning_inv, rfl, rfl, rfl, rfl⟩
theorem test_witness_CompressIsEncode :
    let s := testCompress .cHeader (List.replicate 11 0x61) [] 0 0 0 0
    s.Inv ∧ s.st = .cHeader ∧ s.turns = [] ∧ tables[s.cr.format.toNat]? = some fvt0 := ⟨header_inv, rfl, rfl, rfl⟩
theorem test_witness_EncodeWithinBound : fvt1 ∈ tables ∧ [(0x61 : Byte), 0x61, 0x61, 0x61, 0x61].length ≤ maxBlock := by decide
theorem test_witness_RoundTrip : fvt1 ∈ tables ∧ [(0x61 : Byte), 0x61, 0x61, 0x61, 0x61].length ≤ maxBlock ∧
    [(0x61 : Byte), 0x61, 0x61, 0x61, 0x61].length ≤ 5 := by decide

end
end

section
/-! The statements of the family "scope": the laws of physical memory and the host's turn. -/

namespace Sys2Proof.Machine

/-- Settles O14, from the laws of a read after a write and after a discard, and of the canonical form (Laws/Memory). -/
theorem memoryLaws : Obligations.MemoryLaws := by
  unfold Obligations.MemoryLaws
  intro m a p lo hi d b hm
  refine ⟨?wfWrite, ?readWritten, ?readOther, ?wfDiscard, ?readOutside, ?readInside⟩
  case wfWrite => exact Memory.wf_write hm a b
  case readWritten => exact Memory.read_write_same hm a b
  case readOther => exact Memory.read_write_other hm b
  case wfDiscard => exact Memory.wf_discard hm lo hi d
  case readOutside => exact Memory.read_discard_outside m
  case readInside => exact fun hlo hhi => Memory.read_discard_inside m ⟨hlo, hhi⟩

/-- Settles O40: the schedule begins with the host's move, so of the branches of a turn it is the host's that runs (log 8). -/
theorem stepRunsHostMove : Obligations.StepRunsHostMove := by
  unfold Obligations.StepRunsHostMove
  intro s m rest hturns
  simp only [step, turnStep, hturns]

end Sys2Proof.Machine
end

section
/-! The statements of the family "10_state": the invariant of every step, where each transition leads and what it leaves alone, and
the control registers. -/

namespace Sys2Proof.Machine

/-! ### When the engine is busy -/

/-- `BUSY` as R16 states it. -/
theorem EngineState.busy_iff {st : EngineState} : st.busy = true ↔ st ≠ .idle ∧ st ≠ .done ∧ st ≠ .fault := by
  cases st <;> decide

/-- `BUSY` is a function of `ST` (R16). -/
theorem State.busy_of_st {s : State} {st : EngineState} (h : s.st = st) : s.busy = st.busy := by rw [State.busy, h]

/-- In `IDLE`, `DONE` and `FAULT` the engine waits for a write to `CMD` (R18, R209). -/
theorem engineStep_waiting {s : State} (hb : s.busy = false) : engineStep s = .next s := by
  cases hst : s.st
  case idle | done | fault => simp only [engineStep, hst]
  all_goals exact absurd ((State.busy_of_st hst).symm.trans hb) (by decide)

/-- While the engine waits the invariant asks nothing of the working registers. -/
theorem State.PhaseOk.of_waiting {s : State} (hb : s.busy = false) : s.PhaseOk := by
  cases hst : s.st
  case idle | done | fault => simp only [State.PhaseOk, hst]
  all_goals exact absurd ((State.busy_of_st hst).symm.trans hb) (by decide)

/-! ### What the invariant asks in each state of the engine -/

section

variable {s : State}

theorem State.phaseOk_readHeader (h : s.st = .readHeader) : s.PhaseOk ↔ s.ReadyForHeader := by simp only [State.PhaseOk, h]
theorem State.phaseOk_readTag (h : s.st = .readTag) : s.PhaseOk ↔ s.Decoding := by simp only [State.PhaseOk, h]
theorem State.phaseOk_emitLiteral (h : s.st = .emitLiteral) : s.PhaseOk ↔ s.Decoding ∧ s.Decoded := by
  simp only [State.PhaseOk, h]
theorem State.phaseOk_emitCopy (h : s.st = .emitCopy) : s.PhaseOk ↔ s.Decoding ∧ s.Decoded := by simp only [State.PhaseOk, h]
theorem State.phaseOk_cHeader (h : s.st = .cHeader) : s.PhaseOk ↔ s.Compressing ∧ s.wr.op = s.wr.ostart := by
  simp only [State.PhaseOk, h]
theorem State.phaseOk_cScan (h : s.st = .cScan) : s.PhaseOk ↔ s.Compressing ∧ s.Scanning := by simp only [State.PhaseOk, h]
theorem State.phaseOk_cEmit (h : s.st = .cEmit) :
    s.PhaseOk ↔ s.Compressing ∧ ∀ F, tables[s.cr.format.toNat]? = some F → s.Matched F := by simp only [State.PhaseOk, h]
theorem State.phaseOk_cTail (h : s.st = .cTail) : s.PhaseOk ↔ s.Compressing ∧ s.Scanning := by simp only [State.PhaseOk, h]

end

/-! ### What a transition has done when it moves on, ends or raises an error -/

/-- `t` is `s` after part of a transition: of the fields the invariant speaks of in every state, only memory and the working
registers differ, and they are as it asks. -/
structure Worked (s t : State) : Prop where
  memory : t.mem.wf
  stamps : ∀ r ∈ t.mem.discarded, ∃ q ∈ s.mem.discarded, r.stamp = q.stamp
  cr : t.cr = s.cr
  draws : t.draws = s.draws
  turns : t.turns = s.turns
  registers : t.wr.Bounded

/-- A transition that leaves memory alone. -/
theorem Worked.of_registers {s t : State} (h : s.Inv) (em : t.mem = s.mem) (ec : t.cr = s.cr) (ed : t.draws = s.draws)
    (et : t.turns = s.turns) (hw : t.wr.Bounded) : Worked s t :=
  ⟨em ▸ h.memory, fun r hr => ⟨r, em ▸ hr, rfl⟩, ec, ed, et, hw⟩

namespace Worked

variable {s t : State}

theorem stamps_lt (w : Worked s t) (h : s.Inv) : ∀ r ∈ t.mem.discarded, r.stamp < t.draws :=
  stamps_of h.stamps w.stamps w.draws.ge

theorem reserved (w : Worked s t) (h : s.Inv) : t.cr.inCtl &&& ~~~3 = 0 ∧ t.cr.outCtl &&& ~~~3 = 0 := by
  rw [w.cr]; exact h.reserved

theorem turns_inRange (w : Worked s t) (h : s.Inv) : ∀ m ∈ t.turns, m.inRange := by
  rw [w.turns]; exact h.turns

/-- The transition moves on to a state whose phase is in order. -/
theorem inv (w : Worked s t) (h : s.Inv) (hb : s.busy = true) (ht : t.st ≠ .fault) (hp : t.PhaseOk) : t.Inv :=
  have ⟨_, h1, h2⟩ := EngineState.busy_iff.1 hb
  ⟨w.memory, w.stamps_lt h, w.reserved h, h.latch.busy h1 h2 w.cr ht, w.registers, hp, w.turns_inRange h⟩

/-- The transition ends the command. -/
theorem complete_inv (w : Worked s t) (h : s.Inv) (hb : s.busy = true) {v : Nat} (hv : v ≤ intMax) : (t.complete v).Inv := by
  obtain ⟨-, hdone, hfault⟩ := EngineState.busy_iff.1 hb
  have latch : ({ t with st := s.st } : State).LatchOk := h.latch.busy hdone hfault w.cr hfault
  have ended : ({ t with st := s.st } : State).complete v = t.complete v := rfl
  refine ⟨w.memory, w.stamps_lt h, w.reserved h, ?_, w.registers, .of_waiting rfl, w.turns_inRange h⟩
  rw [← ended]
  exact latch.complete hfault hv

/-- The transition raises an error. -/
theorem takeError_inv (w : Worked s t) (h : s.Inv) (e : Error) : (t.takeError e).Inv :=
  State.takeError_inv w.memory (w.stamps_lt h) (w.reserved h) w.registers (w.turns_inRange h) e

end Worked

/-! ### `ARGCHECK` -/

/-- A view that `ARG.view` accepts and the engine takes over is an input view (R172, R90). -/
theorem State.ViewOk.inputOk {s u : State} {len : Int} (v : s.ViewOk .input (sext s.cr.inOff) len) (ec : u.cr = s.cr)
    (hstart : u.wr.istart = (sext s.cr.inOff).toNat) (hordered : u.wr.istart ≤ u.wr.iend)
    (hinside : (u.wr.iend : Int) ≤ sext s.cr.inExtent)
    (hlimit : (u.wr.iend : Int) = if s.cr.cmd = 3 then sext s.cr.inExtent else sext s.cr.inOff + sext s.cr.inLen) :
    u.InputOk := by
  obtain ⟨hoff, -, -, hmapped⟩ := v.nat
  refine ⟨hordered, ec ▸ hinside, ?_, by rw [ec, hstart]; exact hoff, ec ▸ hlimit⟩
  rw [State.phys_congr ec]
  exact hmapped _ hinside

/-- Offsets inside a view that `ARG.view` accepts are an output view (R172, R90). -/
theorem State.ViewOk.outputOk {s u : State} {lim : Nat} (v : s.ViewOk .output (sext s.cr.outOff) (sext s.cr.outMax))
    (ec : u.cr = s.cr) (hstart : u.wr.ostart = (sext s.cr.outOff).toNat) (hordered : u.wr.ostart ≤ lim)
    (hlimit : (lim : Int) ≤ sext s.cr.outOff + sext s.cr.outMax) : u.OutputOk lim := by
  obtain ⟨hoff, -, -, hmapped⟩ := v.nat
  have hinside : (lim : Int) ≤ sext s.cr.outExtent := hlimit.trans v.inside
  refine ⟨hordered, ec ▸ hinside, ?_, by rw [ec, hstart]; exact hoff, ec ▸ hlimit⟩
  rw [State.phys_congr ec]
  exact hmapped _ hinside

/-- COMPRESS enters its first state with the invariants of R12. -/
theorem compressEntered_compressing {s : State} (hc : s.cr.cmd = 2) (h : argCompress s = .ok s.compressEntered) :
    s.compressEntered.Compressing := by
  rcases argCompress_cases s with ⟨-, hformat, vi, vo, -, hmax, hdisjoint⟩ | ⟨e, he⟩ | he
  · obtain ⟨hio, hil, hinside, -⟩ := vi.nat
    obtain ⟨hoo, hol, -, -⟩ := vo.nat
    have hcmd : s.cr.cmd ≠ 3 := by rw [hc]; decide
    refine ⟨hc, hformat, ?input, ?output, ?apart, ?bound, Nat.le_refl _, Nat.le_add_right _ _⟩
    case input =>
      refine vi.inputOk rfl rfl (Nat.le_add_right _ _) hinside ?_
      rw [if_neg hcmd]; push_cast; rw [hio, hil]
    case output =>
      refine vo.outputOk rfl rfl (Nat.le_add_right _ _) ?_
      push_cast; rw [hoo]; omega
    case apart =>
      intro a b h1 h2 h3 h4
      exact hdisjoint a b h1 h2 h3 (show b < _ + (sext s.cr.outMax).toNat by simp only at h4; omega)
    case bound => simp only [Nat.add_sub_cancel_left]
  · rw [he] at h; cases h
  · rw [he] at h; cases h

/-- DECOMPRESS enters `READ_HEADER` with two views in order. -/
theorem decompressEntered_ready {s : State} (hc : s.cr.cmd = 4) (h : argDecompress s = .ok s.decompressEntered) :
    s.decompressEntered.ReadyForHeader := by
  rcases argDecompress_cases s with ⟨-, hformat, vi, vo, hdisjoint⟩ | ⟨e, he⟩ | he
  · obtain ⟨hio, hil, hinside, -⟩ := vi.nat
    obtain ⟨hoo, hol, -, -⟩ := vo.nat
    have hcmd : s.cr.cmd ≠ 3 := by rw [hc]; decide
    refine ⟨hformat, ?input, rfl, .inr ⟨hc, ?output, rfl, hdisjoint⟩⟩
    case input =>
      refine vi.inputOk rfl rfl (Nat.le_add_right _ _) hinside ?_
      rw [if_neg hcmd]; push_cast; rw [hio, hil]
    case output =>
      refine vo.outputOk rfl rfl (Nat.le_add_right _ _) ?_
      push_cast; rw [hoo, hol]
  · rw [he] at h; cases h
  · rw [he] at h; cases h

/-- GETULEN enters `READ_HEADER` with its input view in order. -/
theorem getulenEntered_ready {s : State} (hc : s.cr.cmd = 3) (h : argGetulen s = .ok s.getulenEntered) :
    s.getulenEntered.ReadyForHeader := by
  rcases argGetulen_cases s with ⟨-, hformat, vi⟩ | ⟨e, he⟩
  · obtain ⟨-, -, hinside, -⟩ := vi.nat
    have hle : ((sext s.cr.inOff).toNat : Int) ≤ sext s.cr.inExtent := hinside
    have hext : ((sext s.cr.inExtent).toNat : Int) = sext s.cr.inExtent := by omega
    refine ⟨hformat, vi.inputOk rfl rfl ?ordered hext.le (by rw [if_pos hc]; exact hext), rfl, .inl hc⟩
    case ordered =>
      show (sext s.cr.inOff).toNat ≤ (sext s.cr.inExtent).toNat
      omega
  · rw [he] at h; cases h

/-- `ARGCHECK` keeps the invariant. -/
theorem stepArgcheck_inv {s t : State} (h : s.Inv) (hst : s.st = .argcheck) (ht : stepArgcheck s = .next t) : t.Inv := by
  have hb : s.busy = true := State.busy_of_st hst
  rcases stepArgcheck_cases s with ⟨-, h0, hmax, e⟩ | ⟨hc, ha, e⟩ | ⟨hc, ha, e⟩ | ⟨hc, ha, e⟩ | ⟨err, e⟩ | e <;>
    rw [e] at ht <;> cases ht
  · exact h.complete (by rw [hst]; decide) (mcl_le.2 (by simp only [maxBlock]; omega))
  · have hp := compressEntered_compressing hc ha
    refine (Worked.of_registers (t := s.compressEntered) h rfl rfl rfl rfl ?_).inv h hb nofun
      ((State.phaseOk_cHeader rfl).2 ⟨hp, rfl⟩)
    have hi := hp.input.iend_le
    have ho := hp.output.lim_le
    exact { h.registers with
      istart := hp.input.ordered.trans hi, iend := hi, ostart := hp.output.ordered.trans ho, op := hp.opHigh.trans ho
      olimit := ho }
  · have hp := getulenEntered_ready hc ha
    refine (Worked.of_registers (t := s.getulenEntered) h rfl rfl rfl rfl ?_).inv h hb nofun
      ((State.phaseOk_readHeader rfl).2 hp)
    have hi := hp.input.iend_le
    have hs := hp.input.ordered.trans hi
    exact { h.registers with istart := hs, iend := hi, ip := hs }
  · have hp := decompressEntered_ready hc ha
    refine (Worked.of_registers (t := s.decompressEntered) h rfl rfl rfl rfl ?_).inv h hb nofun
      ((State.phaseOk_readHeader rfl).2 hp)
    have hi := hp.input.iend_le
    have hs := hp.input.ordered.trans hi
    rcases hp.command with h3 | ⟨-, hout, -, -⟩
    · exact absurd (hc.symm.trans h3) (by decide)
    · have ho := hout.lim_le
      have hos := hout.ordered.trans ho
      exact { h.registers with istart := hs, iend := hi, ip := hs, ostart := hos, oend := ho, op := hos }
  · exact h.takeError err

/-! ### DEC -/

/-- `READ_HEADER` keeps the invariant. -/
theorem stepReadHeader_inv {s t : State} (h : s.Inv) (hst : s.st = .readHeader) (ht : stepReadHeader s = .next t) : t.Inv := by
  have hb : s.busy = true := State.busy_of_st hst
  have hr : s.ReadyForHeader := (State.phaseOk_readHeader hst).1 h.phase
  obtain ⟨F, hF⟩ := table_some hr.table
  have run := stepReadHeader_run hr hF
  split at run
  · rw [run] at ht; cases ht
    exact h.takeError _
  · rename_i value size _
    obtain ⟨-, hip, hvalue, run⟩ := run
    have hi := hr.input.iend_le
    have regs : ({ s.wr with ulen := value, ip := s.wr.ip + size } : Working).Bounded :=
      { h.registers with ulen := hvalue, ip := hip.trans hi }
    have worked := Worked.of_registers (t := { s with wr := { s.wr with ulen := value, ip := s.wr.ip + size } })
      h rfl rfl rfl rfl regs
    rw [run] at ht
    split_ifs at ht with h3 hcap <;> cases ht
    · exact worked.complete_inv h hb hvalue
    · exact worked.takeError_inv h _
    · obtain ⟨hc, hout, hop, hap⟩ := hr.command.resolve_left h3
      have hord := hout.ordered
      have ho := hout.lim_le
      refine Worked.inv (.of_registers h rfl rfl rfl rfl ?regs) h hb ?notFault ?phase
      case regs => exact { regs with olimit := show s.wr.ostart + value ≤ intMax by omega }
      case notFault => nofun
      case phase =>
        exact (State.phaseOk_readTag rfl).2 {
          command := hc
          table := hr.table
          input := hr.input.congr rfl rfl rfl
          output := hout.congr rfl rfl
          apart := hap.congr rfl rfl rfl rfl
          ipLow := hr.atStart.ge.trans (Nat.le_add_right _ _)
          ipHigh := hip
          opLow := hop.ge
          opHigh := hop.le.trans (Nat.le_add_right _ _)
          declared := rfl
          capacity := show s.wr.ostart + value ≤ s.wr.oend by omega }

/-- `READ_TAG` past the completion test raises an error or runs an operation. -/
theorem stepReadTag_outcome {s : State} (hst : s.st = .readTag) (hd : s.Decoding) (hw : s.mem.wf)
    (hop : s.wr.op ≠ s.wr.olimit) (hip : s.wr.ip ≠ s.wr.iend) :
    (∃ u e, RaisedFrom s u ∧ stepReadTag s = .next (u.takeError e)) ∨
    ∃ t pos out, RanFrom s t pos out ∧ stepReadTag s = .next t := by
  obtain ⟨F, hF⟩ := table_some hd.table
  have run := stepReadTag_run hst hd hw hF hop hip
  split at run
  · obtain ⟨u, hu, e⟩ := run
    exact .inl ⟨u, _, hu, e⟩
  · split at run
    · obtain ⟨u, hu, e⟩ := run
      exact .inl ⟨u, _, hu, e⟩
    · split at run
      · obtain ⟨u, hu, e⟩ := run
        exact .inl ⟨u, _, hu, e⟩
      · obtain ⟨t, e, ht, -⟩ := run
        exact .inr ⟨t, _, _, ht, e⟩

/-- `READ_TAG` keeps the invariant. -/
theorem stepReadTag_inv {s t : State} (h : s.Inv) (hst : s.st = .readTag) (ht : stepReadTag s = .next t) : t.Inv := by
  have hd : s.Decoding := (State.phaseOk_readTag hst).1 h.phase
  have hdone : s.st ≠ .done := by rw [hst]; decide
  have hfault : s.st ≠ .fault := by rw [hst]; decide
  by_cases hop : s.wr.op = s.wr.olimit <;> by_cases hip : s.wr.ip = s.wr.iend
  · rw [stepReadTag_done hop hip] at ht; cases ht
    exact h.complete hfault h.registers.ulen
  · rw [stepReadTag_trailing hop hip] at ht; cases ht
    exact h.takeError _
  · rw [stepReadTag_truncated hop hip] at ht; cases ht
    exact h.takeError _
  · rcases stepReadTag_outcome hst hd h.memory hop hip with ⟨u, e, hu, hs⟩ | ⟨u, pos, out, hu, hs⟩ <;>
      rw [hs] at ht <;> cases ht
    · exact hu.inv h e
    · exact hu.inv h hd hdone hfault

/-- An `EMIT_*` state keeps the invariant. -/
theorem emit_inv {s t : State} (h : s.Inv) (hd : s.Decoding) (hb : s.busy = true) {f : Flow State}
    {r : Except Error (Nat × List Byte)}
    (run : match r with
      | .ok (pos, out) => ∃ t, f = .ok t ∧ RanFrom s t pos out
      | .error e => f = .error (.raised e s))
    (ht : finish f = .next t) : t.Inv := by
  obtain ⟨-, hdone, hfault⟩ := EngineState.busy_iff.1 hb
  match r, run with
  | .ok (pos, out), ⟨u, hf, hu⟩ =>
    rw [hf] at ht; cases ht
    exact hu.inv h hd hdone hfault
  | .error e, hf =>
    rw [hf] at ht; cases ht
    exact h.takeError e

/-! ### CMP -/

/-- A running command's transition of CMP runs under its table. -/
theorem withTable_eq {f : FVT → State → Flow State} {s : State} {F : FVT} (hF : tables[s.cr.format.toNat]? = some F) :
    withTable f s = finish (f F s) := by
  simp only [withTable, currentTable_ok hF, Flow.ok_bind]

/-- An emission that fits. -/
theorem Emitted.worked {s t : State} {bs : List Byte} (he : Emitted s t bs) (h : s.Inv) (hc : s.Compressing)
    (hfit : s.wr.op + bs.length ≤ s.wr.olimit) : Worked s t := by
  have ho := hc.output.lim_le
  refine ⟨he.memory, he.stamps, he.cr, he.draws, he.turns, ?_⟩
  rw [he.wr]
  exact { h.registers with op := hfit.trans ho }

/-- A transition goes on over the working registers and the table. -/
theorem Worked.registers_trans {s t u : State} (w : Worked s t) (em : u.mem = t.mem) (ec : u.cr = t.cr) (ed : u.draws = t.draws)
    (et : u.turns = t.turns) (hw : u.wr.Bounded) : Worked s u :=
  ⟨em ▸ w.memory, em ▸ w.stamps, ec.trans w.cr, ed.trans w.draws, et.trans w.turns, hw⟩

theorem shortestVarintFrom_length_le (fuel n : Nat) : (shortestVarintFrom fuel n).length ≤ fuel := by
  induction fuel generalizing n with
  | zero => exact Nat.le_refl 0
  | succ fuel ih =>
    simp only [shortestVarintFrom]
    split
    · exact Nat.succ_le_succ (ih _)
    · exact Nat.succ_le_succ (Nat.zero_le fuel)

/-- A shortest varint has at most `VARINT_MAX_BYTES` bytes (R64). -/
theorem shortestVarint_length_le (n : Nat) : (shortestVarint n).length ≤ 5 := shortestVarintFrom_length_le _ n

theorem tableSize_le (n : Nat) : tableSize n ≤ intMax := by
  obtain ⟨m, hm, e⟩ := tableSizeFrom_pow n 6 8
  have : tableSize n = 2 ^ m := e
  rw [this]
  exact (Nat.pow_le_pow_right (by decide) hm).trans (by decide)

/-- `C_HEADER` keeps the invariant: the bound of R141 has room for the header. -/
theorem cHeader_inv {s t : State} {F : FVT} (h : s.Inv) (hst : s.st = .cHeader) (hF : F ∈ tables)
    (ht : finish (cHeader F tableSize s) = .next t) : t.Inv := by
  have hb : s.busy = true := State.busy_of_st hst
  obtain ⟨hc, hop⟩ := (State.phaseOk_cHeader hst).1 h.phase
  have hfit : s.wr.op + (shortestVarint (s.wr.iend - s.wr.istart)).length ≤ s.wr.olimit := by
    have hlen := shortestVarint_length_le (s.wr.iend - s.wr.istart)
    have hbound := hc.bound
    simp only [mcl] at hbound
    omega
  obtain ⟨u, e, he⟩ := emitHeader_ok (table_constants hF).1 h.memory hc.opLow hfit hc.output.mapped
  have hu := he.compressing hc hfit
  have worked := he.worked h hc hfit
  simp only [cHeader, e, Flow.ok_bind, finish_ok, Host.Outcome.next.injEq] at ht
  subst ht
  refine Worked.inv (worked.registers_trans rfl rfl rfl rfl ?regs) h hb ?notFault ?phase
  case regs =>
    exact { worked.registers with
      ts := tableSize_le _, ip := worked.registers.istart, anchor := worked.registers.istart }
  case notFault => nofun
  case phase =>
    refine (State.phaseOk_cScan rfl).2 ⟨hu.congr rfl rfl rfl rfl rfl hu.opLow hu.opHigh, ?_⟩
    exact {
      anchorLow := Nat.le_refl _
      anchorHigh := Nat.le_refl _
      ipHigh := hu.input.ordered
      table := {
        size := List.length_replicate
        choice := rfl
        entries := fun q hq => absurd (List.eq_of_mem_replicate hq) nofun } }

/-- Entering the position `ip` in the table. -/
theorem State.TableBelow.set {s t : State} (h : s.TableBelow s.wr.ip) (hip : s.wr.istart ≤ s.wr.ip) {slot r : Nat}
    (hr : s.wr.ip < r) (et : t.table = s.table.set slot (some s.wr.ip)) (ets : t.wr.ts = s.wr.ts)
    (e1 : t.wr.istart = s.wr.istart) (e2 : t.wr.iend = s.wr.iend) : t.TableBelow r := by
  refine ⟨?_, by rw [ets, e1, e2]; exact h.choice, ?_⟩
  · rw [et, List.length_set, ets]; exact h.size
  · rw [et, e1]; exact table_set_below h.entries hip hr

/-- `C_SCAN` keeps the invariant. -/
theorem cScan_inv {s t : State} {F : FVT} (h : s.Inv) (hst : s.st = .cScan) (hF : tables[s.cr.format.toNat]? = some F)
    (ht : finish (cScan F hash s) = .next t) : t.Inv := by
  have hb : s.busy = true := State.busy_of_st hst
  obtain ⟨hc, hscan⟩ := (State.phaseOk_cScan hst).1 h.phase
  have hi := hc.input.iend_le
  have hip := hscan.anchorLow.trans hscan.anchorHigh
  by_cases hwin : s.wr.iend - s.wr.ip < 4
  · have e : cScan F hash s = .ok { s with st := .cTail } := by simp only [cScan, Config.window]; rw [if_pos hwin]
    rw [e] at ht; cases ht
    refine Worked.inv (.of_registers h rfl rfl rfl rfl h.registers) h hb ?notFault ?phase
    case notFault => nofun
    case phase => exact (State.phaseOk_cTail rfl).2 ⟨hc.congr rfl rfl rfl rfl rfl hc.opLow hc.opHigh, hscan.congr rfl rfl⟩
  · rw [cScan_window hip (by omega) hc.input.mapped] at ht
    rcases findMatch_cases (table_mem hF) s.inByte (table_entry hscan.table.entries) hscan.anchorHigh
        (show s.wr.ip + 4 ≤ s.wr.iend by omega) with
      e | ⟨p, cand, mlen, e, m1, m2, m3, m4, m5, m6, m7, m8, m9, m10⟩ <;>
      rw [e] at ht <;> cases ht
    · refine Worked.inv (.of_registers h rfl rfl rfl rfl ?regs) h hb ?notFault ?phase
      case regs => exact { h.registers with ip := show s.wr.ip + 1 ≤ intMax by omega }
      case notFault => simp only [hst]; nofun
      case phase =>
        refine (State.phaseOk_cScan (by exact hst)).2 ⟨hc.congr rfl rfl rfl rfl rfl hc.opLow hc.opHigh, ?_⟩
        exact {
          anchorLow := hscan.anchorLow
          anchorHigh := hscan.anchorHigh.trans (Nat.le_succ _)
          ipHigh := show s.wr.ip + 1 ≤ s.wr.iend by omega
          table := hscan.table.set hip (Nat.lt_succ_self _) rfl rfl rfl rfl }
    · refine Worked.inv (.of_registers h rfl rfl rfl rfl ?regs) h hb ?notFault ?phase
      case regs =>
        exact { h.registers with
          ip := show p ≤ intMax by omega, cand := show cand ≤ intMax by omega, mlen := show mlen ≤ intMax by omega }
      case notFault => nofun
      case phase =>
        refine (State.phaseOk_cEmit rfl).2 ⟨hc.congr rfl rfl rfl rfl rfl hc.opLow hc.opHigh, fun G hG => ?_⟩
        obtain rfl : F = G := Option.some.inj (hF.symm.trans hG)
        exact {
          anchorLow := hscan.anchorLow
          anchorHigh := m1
          candLow := m3
          candHigh := m4
          near := m5
          lenLow := by rw [(table_constants (table_mem hF)).2.1]; exact m6
          lenHigh := m7
          inside := m9
          equal := m10
          table := hscan.table.set hip (show s.wr.ip < p + mlen by omega) rfl rfl rfl rfl }

/-- `C_EMIT` keeps the invariant. -/
theorem cEmit_inv {s t : State} {F : FVT} (h : s.Inv) (hst : s.st = .cEmit) (hF : tables[s.cr.format.toNat]? = some F)
    (ht : finish (cEmit F s) = .next t) : t.Inv := by
  have hb : s.busy = true := State.busy_of_st hst
  obtain ⟨hc, hm⟩ := (State.phaseOk_cEmit hst).1 h.phase
  have hm := hm F hF
  obtain ⟨fits, overruns⟩ := cEmit_ok (table_mem hF) h.memory hc hm
  rcases Nat.lt_or_ge s.wr.olimit _ with hover | hfit
  · obtain ⟨u, bs, e, he, hl⟩ := overruns hover
    rw [e] at ht; cases ht
    exact he.takeError_inv h hc hl _
  · obtain ⟨u, he, e⟩ := fits hfit
    have hu := he.compressing hc hfit
    have worked := he.worked h hc hfit
    have ew := he.wr
    have eip : u.wr.ip + u.wr.mlen = s.wr.ip + s.wr.mlen := by rw [ew]
    have hnext : u.wr.ip + u.wr.mlen ≤ u.wr.iend := by rw [ew]; exact hm.inside
    have hstart : u.wr.istart ≤ u.wr.ip + u.wr.mlen := by
      have h1 := hm.anchorLow.trans hm.anchorHigh
      rw [ew]; exact h1.trans (Nat.le_add_right _ _)
    have hmax := hnext.trans hu.input.iend_le
    have htable : u.TableBelow (s.wr.ip + s.wr.mlen) := by
      refine ⟨?_, ?_, ?_⟩ <;> simp only [he.table, ew]
      · exact hm.table.size
      · exact hm.table.choice
      · exact hm.table.entries
    rw [e] at ht; cases ht
    refine Worked.inv (worked.registers_trans rfl rfl rfl rfl ?regs) h hb ?notFault ?phase
    case regs => exact { worked.registers with ip := hmax, anchor := hmax }
    case notFault => nofun
    case phase =>
      refine (State.phaseOk_cScan rfl).2 ⟨hu.congr rfl rfl rfl rfl rfl hu.opLow hu.opHigh, ?_⟩
      exact {
        anchorLow := hstart
        anchorHigh := Nat.le_refl _
        ipHigh := hnext
        table := ⟨htable.size, htable.choice, fun q hq => eip ▸ htable.entries q hq⟩ }

/-- `C_TAIL` keeps the invariant. -/
theorem cTail_inv {s t : State} {F : FVT} (h : s.Inv) (hst : s.st = .cTail) (hF : F ∈ tables)
    (ht : finish (cTail F s) = .next t) : t.Inv := by
  have hb : s.busy = true := State.busy_of_st hst
  obtain ⟨hc, hscan⟩ := (State.phaseOk_cTail hst).1 h.phase
  obtain ⟨fits, overruns⟩ := cTail_ok hF h.memory hc hscan.anchorLow
  rcases Nat.lt_or_ge s.wr.olimit _ with hover | hfit
  · obtain ⟨u, bs, e, he, hl⟩ := overruns hover
    rw [e] at ht; cases ht
    exact he.takeError_inv h hc hl _
  · obtain ⟨u, he, e⟩ := fits hfit
    have worked := he.worked h hc hfit
    rw [e] at ht; cases ht
    exact worked.complete_inv h hb ((Nat.sub_le _ _).trans worked.registers.op)

/-! ### The engine -/

/-- Every transition of the engine keeps the invariant. -/
theorem engineStep_inv {s t : State} (h : s.Inv) (ht : engineStep s = .next t) : t.Inv := by
  have waiting : s.busy = false → t.Inv := fun hb => by
    rw [engineStep_waiting hb] at ht; cases ht
    exact h
  have phase := h.phase
  cases hst : s.st
  case idle | done | fault => exact waiting (State.busy_of_st hst)
  case argcheck => exact stepArgcheck_inv h hst (engineStep_argcheck hst ▸ ht)
  case readHeader => exact stepReadHeader_inv h hst (engineStep_readHeader hst ▸ ht)
  case readTag => exact stepReadTag_inv h hst (engineStep_readTag hst ▸ ht)
  case emitLiteral =>
    obtain ⟨hd, hdd⟩ := (State.phaseOk_emitLiteral hst).1 phase
    simp only [engineStep, hst] at ht
    exact emit_inv h hd (State.busy_of_st hst) (emitLiteral_run hd hdd h.memory) ht
  case emitCopy =>
    obtain ⟨hd, hdd⟩ := (State.phaseOk_emitCopy hst).1 phase
    simp only [engineStep, hst] at ht
    exact emit_inv h hd (State.busy_of_st hst) (emitCopy_run hd hdd h.memory) ht
  case cHeader =>
    obtain ⟨F, hF⟩ := table_some ((State.phaseOk_cHeader hst).1 phase).1.table
    simp only [engineStep, hst, withTable_eq hF] at ht
    exact cHeader_inv h hst (table_mem hF) ht
  case cScan =>
    obtain ⟨F, hF⟩ := table_some ((State.phaseOk_cScan hst).1 phase).1.table
    simp only [engineStep, hst, withTable_eq hF] at ht
    exact cScan_inv h hst hF ht
  case cEmit =>
    obtain ⟨F, hF⟩ := table_some ((State.phaseOk_cEmit hst).1 phase).1.table
    simp only [engineStep, hst, withTable_eq hF] at ht
    exact cEmit_inv h hst hF ht
  case cTail =>
    obtain ⟨F, hF⟩ := table_some ((State.phaseOk_cTail hst).1 phase).1.table
    simp only [engineStep, hst, withTable_eq hF] at ht
    exact cTail_inv h hst (table_mem hF) ht

/-! ### An accepted write (R19, R20, R23) -/

theorem State.writeReg_busy {s : State} (hb : s.busy = true) (r : CReg) (v : Word) : s.writeReg r v = s := by
  simp only [State.writeReg, hb, if_true]

theorem State.writeReg_waiting {s : State} (hb : s.busy = false) (r : CReg) (v : Word) : s.writeReg r v = s.acceptWrite v r := by
  simp only [State.writeReg, hb, Bool.false_eq_true, if_false]

/-- A write to a register other than `CMD` changes control registers alone. -/
theorem State.acceptWrite_eq (s : State) (v : Word) {r : CReg} (hr : r ≠ .cmd) :
    s.acceptWrite v r = { s with cr := (s.acceptWrite v r).cr } := by
  cases r
  case cmd => exact absurd rfl hr
  all_goals rfl

/-- What a register reads after a write to a register other than `CMD`. -/
theorem State.readReg_acceptWrite (s : State) (v : Word) {r : CReg} (hr : r ≠ .cmd) (q : CReg) :
    (s.acceptWrite v r).readReg q =
      if q = r ∧ r ∉ [CReg.status, .result, .errKind, .errReason, .errOffset] then
        if r = .inCtl ∨ r = .outCtl then ctlBits v else v
      else s.readReg q := by
  cases r
  case cmd => exact absurd rfl hr
  all_goals cases q <;> rfl

/-- No write to a register other than `CMD` changes what an RO register reads. -/
theorem State.readReg_acceptWrite_readOnly (s : State) (v : Word) {r q : CReg} (hr : r ≠ .cmd)
    (hq : q ∈ [CReg.status, .result, .errKind, .errReason, .errOffset]) : (s.acceptWrite v r).readReg q = s.readReg q := by
  rw [State.readReg_acceptWrite s v hr, if_neg]
  rintro ⟨rfl, h⟩
  exact h hq

/-- An accepted write keeps the reserved bits of a descriptor's control register 0 (R23). -/
theorem State.acceptWrite_reserved {s : State} (h : s.cr.inCtl &&& ~~~3 = 0 ∧ s.cr.outCtl &&& ~~~3 = 0) (v : Word) {r : CReg}
    (hr : r ≠ .cmd) :
    (s.acceptWrite v r).cr.inCtl &&& ~~~3 = 0 ∧ (s.acceptWrite v r).cr.outCtl &&& ~~~3 = 0 := by
  cases r
  case cmd => exact absurd rfl hr
  case inCtl => exact ⟨ctlBits_reserved v, h.2⟩
  case outCtl => exact ⟨h.1, ctlBits_reserved v⟩
  all_goals exact h

/-! ### The host's moves -/

/-- The latches rest on `ST` and on what the result and error registers hold. -/
theorem State.LatchOk.congr {s t : State} (h : s.LatchOk) (es : t.st = s.st) (er : t.cr.result = s.cr.result)
    (ek : t.cr.errKind = s.cr.errKind) (ea : t.cr.errReason = s.cr.errReason) (eo : t.cr.errOffset = s.cr.errOffset) :
    t.LatchOk :=
  ⟨by rw [es, er]; exact h.result, by rw [er]; exact h.resultHigh, by rw [es, ek]; exact h.kind,
    by rw [es, ea, eo]; exact h.reason⟩

/-- Outside `FAULT` the registers of a cleared latch are in order. -/
theorem State.LatchOk.of_cleared {s : State} (hs : s.st ≠ .fault) (er : s.cr.result = 0) (ek : s.cr.errKind = 0)
    (ea : s.cr.errReason = 0) (eo : s.cr.errOffset = 0) : s.LatchOk :=
  ⟨fun _ => er, by rw [er]; exact Nat.zero_le _, ⟨fun hk => absurd ek hk, fun hf => absurd hf hs⟩, fun _ => ⟨ea, eo⟩⟩

/-- The invariant holds at reset (R37). -/
theorem State.reset_inv : State.reset.Inv where
  memory := Memory.wf_reset
  stamps := nofun
  reserved := by decide
  latch := .of_cleared nofun rfl rfl rfl rfl
  registers := Working.reset_bounded
  phase := trivial
  turns := nofun

/-- The invariant goes over to a state that differs in memory, outside the input view of a running command, and in the model's own
fields. -/
theorem State.Inv.congr {s t : State} (h : s.Inv) (es : t.st = s.st) (ec : t.cr = s.cr) (ew : t.wr = s.wr)
    (et : t.table = s.table) (hw : t.mem.wf) (hs : ∀ r ∈ t.mem.discarded, r.stamp < t.draws)
    (hb : s.busy = true → s.st ≠ .argcheck → ∀ a, s.wr.istart ≤ a → a < s.wr.iend → t.inByte a = s.inByte a)
    (ht : ∀ m ∈ t.turns, m.inRange) : t.Inv :=
  ⟨hw, hs, ec ▸ h.reserved, h.latch.congr es (ec ▸ rfl) (ec ▸ rfl) (ec ▸ rfl) (ec ▸ rfl), ew ▸ h.registers,
    h.phase.congr es ec ew et hb, ht⟩

/-- A discard under the next draw keeps memory canonical and its stamps below the draws (R121, R162, R221). -/
theorem Memory.discard_nextDraw {m : Memory} {d : Nat} (hw : m.wf) (hs : ∀ r ∈ m.discarded, r.stamp < d) (lo hi : Nat) :
    (m.discard lo hi d).wf ∧ ∀ r ∈ (m.discard lo hi d).discarded, r.stamp < d + 1 := by
  refine ⟨Memory.wf_discard hw lo hi d fun r hr => (hs r hr).ne, fun r hr => ?_⟩
  rcases Memory.stamps_discard hr with e | ⟨q, hq, e⟩
  · omega
  · have := hs q hq
    omega

/-- The start of a command keeps the invariant (R20, R170). -/
theorem State.Inv.start {s : State} (h : s.Inv) (v : Word) : (s.start v).Inv where
  memory := h.memory
  stamps r hr := (h.stamps r hr).trans (Nat.lt_succ_self _)
  reserved := h.reserved
  latch := .of_cleared nofun rfl rfl rfl rfl
  registers := Working.free_bounded _
  phase := trivial
  turns := h.turns

/-- A write of a control register keeps the invariant. -/
theorem State.Inv.writeReg {s : State} (h : s.Inv) (r : CReg) (v : Word) : (s.writeReg r v).Inv := by
  cases hb : s.busy
  case true => rw [State.writeReg_busy hb]; exact h
  case false =>
    rw [State.writeReg_waiting hb]
    by_cases hr : r = .cmd
    · subst hr
      exact h.start v
    · have e := State.acceptWrite_eq s v hr
      have latched {q : CReg} := State.readReg_acceptWrite_readOnly (q := q) s v hr
      have latch : (s.acceptWrite v r).LatchOk := h.latch.congr (by rw [e]) (latched (q := .result) (by decide))
        (latched (q := .errKind) (by decide)) (latched (q := .errReason) (by decide)) (latched (q := .errOffset) (by decide))
      have reserved := State.acceptWrite_reserved h.reserved v hr
      rw [e] at latch reserved ⊢
      exact ⟨h.memory, h.stamps, reserved, latch, h.registers, .of_waiting hb, h.turns⟩

/-- The reset event brings the invariant about (R220 to R223). -/
theorem State.Inv.resetEvent {s : State} (h : s.Inv) : s.resetEvent.Inv := by
  have hmem : s.memAfterReset.wf ∧ ∀ r ∈ s.memAfterReset.discarded, r.stamp < s.draws + 1 := by
    simp only [State.memAfterReset]
    split
    · exact Memory.discard_nextDraw h.memory h.stamps _ _
    · exact ⟨h.memory, fun r hr => (h.stamps r hr).trans (Nat.lt_succ_self _)⟩
  exact State.reset_inv.congr rfl rfl rfl rfl hmem.1 hmem.2 nofun h.turns

/-- The host's store outside the views of a running command keeps the invariant (R57). -/
theorem State.Inv.storeByte {s : State} (h : s.Inv) {a : Nat} (b : Byte)
    (hv : ¬ (s.busy && (inSpan a s.inputRange || inSpan a s.outputRange)) = true) :
    ({ s with mem := s.mem.write a b } : State).Inv := by
  refine h.congr rfl rfl rfl rfl (Memory.wf_write h.memory a b) ?stamps ?bytes h.turns
  case stamps =>
    intro r hr
    obtain ⟨q, hq, e⟩ := Memory.stamps_write hr
    exact e ▸ h.stamps q hq
  case bytes =>
    intro hb harg x hlo hhi
    refine Memory.read_write_other h.memory b fun (e : s.phys .input x = a) => hv ?_
    rw [hb, ← e, h.phase.inputRange hb harg hlo hhi]
    rfl

/-- A move of the host keeps the invariant. -/
theorem hostMove_inv {s t : State} {m : HostMove} (h : s.Inv) (ht : hostMove m s = .next t) : t.Inv := by
  cases m with
  | writeReg r v => cases ht; exact h.writeReg r v
  | readReg r =>
    cases ht
    exact h.congr rfl rfl rfl rfl h.memory (fun q hq => (h.stamps q hq).trans (Nat.lt_succ_self _)) (fun _ _ _ _ _ => rfl) h.turns
  | storeByte a b =>
    simp only [hostMove] at ht
    split_ifs at ht with ha hv
    cases ht
    exact h.storeByte b hv
  | loadByte a =>
    simp only [hostMove] at ht
    split_ifs at ht
    cases ht
    exact h.congr rfl rfl rfl rfl h.memory h.stamps (fun _ _ _ _ _ => rfl) h.turns
  | reset => cases ht; exact h.resetEvent

/-! ### The step -/

/-- Taking turns off the schedule keeps the invariant. -/
theorem State.Inv.withTurns {s : State} (h : s.Inv) {rest : List Turn} (hr : ∀ m ∈ rest, m ∈ s.turns) :
    ({ s with turns := rest } : State).Inv :=
  h.congr rfl rfl rfl rfl h.memory h.stamps (fun _ _ _ _ _ => rfl) fun m hm => h.turns m (hr m hm)

/-- Settles O50: a step is a transition of the engine or a move of the host, and each keeps the invariant. -/
theorem stepKeepsInvariant : Obligations.StepKeepsInvariant := by
  unfold Obligations.StepKeepsInvariant
  intro s t h ht
  rcases step_cases s with ⟨-, e⟩ | ⟨rest, hturns, e⟩ | ⟨m, rest, hturns, e⟩ <;> rw [e] at ht
  · exact engineStep_inv h ht
  · exact engineStep_inv (h.withTurns fun m hm => hturns ▸ List.mem_cons_of_mem _ hm) ht
  · exact hostMove_inv (h.withTurns fun m hm => hturns ▸ List.mem_cons_of_mem _ hm) ht

/-- Settles O49: memory is empty and every register 0 after reset. -/
theorem invariantAtReset : Obligations.InvariantAtReset := by
  unfold Obligations.InvariantAtReset
  exact State.reset_inv

/-! ### Where each transition leads (R18, R111) and what it leaves alone (R32, R170) -/

/-- The states a transition leads to, the engine's own faults among them; from `IDLE`, `DONE` and `FAULT` it does not move (R18,
R111; an operation runs from `READ_TAG` through its `EMIT_*` state in one step, log 5). -/
def EngineState.successors : EngineState → List EngineState
  | .idle => [.idle]
  | .done => [.done]
  | .fault => [.fault]
  | .argcheck => [.done, .readHeader, .cHeader, .fault]
  | .readHeader => [.readTag, .done, .fault]
  | .readTag => [.readTag, .done, .fault]
  | .emitLiteral => [.readTag, .fault]
  | .emitCopy => [.readTag, .fault]
  | .cHeader => [.cScan, .fault]
  | .cScan => [.cScan, .cEmit, .cTail]
  | .cEmit => [.cScan, .fault]
  | .cTail => [.done, .fault]

/-- What a flow that keeps the arguments answers: its own end, or an error taken. -/
theorem Kept.of_finish {s t : State} {f : Flow State} {l : EngineState} (hf : f.Post (fun t => Kept s t ∧ t.st = l) (Kept s))
    (ht : finish f = .next t) : Kept s t ∧ t.st ∈ [l, .fault] := by
  rcases finish_post hf ht with ⟨hk, hl⟩ | ⟨e, u, hk, rfl⟩
  · exact ⟨hk, by simp [hl]⟩
  · exact ⟨hk.takeError e, by simp⟩

/-- The same under the running command's table. -/
theorem Kept.of_withTable {s t : State} {f : FVT → State → Flow State} {l : EngineState}
    (hf : ∀ F, (f F s).Post (fun t => Kept s t ∧ t.st = l) (Kept s)) (ht : withTable f s = .next t) :
    Kept s t ∧ t.st ∈ [l, .fault] := by
  rcases withTable_post hf ht with ⟨hk, hl⟩ | ⟨e, u, hk, rfl⟩
  · exact ⟨hk, by simp [hl]⟩
  · exact ⟨hk.takeError e, by simp⟩

theorem stepArgcheck_kept {s t : State} (ht : stepArgcheck s = .next t) : Kept s t ∧ t.st ∈ EngineState.argcheck.successors := by
  rcases stepArgcheck_cases s with ⟨-, -, -, e⟩ | ⟨-, -, e⟩ | ⟨-, -, e⟩ | ⟨-, -, e⟩ | ⟨err, e⟩ | e <;> rw [e] at ht <;> cases ht
  · exact ⟨⟨rfl, rfl⟩, by simp [EngineState.successors]⟩
  · exact ⟨⟨rfl, rfl⟩, by simp [EngineState.successors]⟩
  · exact ⟨⟨rfl, rfl⟩, by simp [EngineState.successors]⟩
  · exact ⟨⟨rfl, rfl⟩, by simp [EngineState.successors]⟩
  · exact ⟨(Kept.refl s).takeError err, by simp [EngineState.successors]⟩

/-- `C_SCAN` raises no error. -/
theorem withTable_cScan_kept {s t : State} (hst : s.st = .cScan) (ht : withTable (fun F u => cScan F hash u) s = .next t) :
    Kept s t ∧ t.st ∈ EngineState.cScan.successors := by
  have post := (currentTable_post s).bind fun F _ => cScan_post F hash s
  rcases finish_post post ht with ⟨hk, hl⟩ | ⟨e, u, hu, -⟩
  · rw [hst] at hl
    exact ⟨hk, by simpa [EngineState.successors] using hl⟩
  · exact hu.elim

/-- Every transition keeps the argument registers and the schedule, and leads where R18 and R111 say. -/
theorem engineStep_kept {s t : State} (ht : engineStep s = .next t) : Kept s t ∧ t.st ∈ s.st.successors := by
  have waiting : s.busy = false → Kept s t ∧ t.st = s.st := fun hb => by
    rw [engineStep_waiting hb] at ht; cases ht
    exact ⟨.refl s, rfl⟩
  cases hst : s.st
  case idle | done | fault =>
    obtain ⟨hk, hl⟩ := waiting (State.busy_of_st hst)
    exact ⟨hk, by rw [hl, hst]; exact List.mem_singleton_self _⟩
  case argcheck => exact stepArgcheck_kept (engineStep_argcheck hst ▸ ht)
  case readHeader =>
    obtain ⟨hk, hl⟩ := stepReadHeader_kept (engineStep_readHeader hst ▸ ht)
    exact ⟨hk, by simpa [EngineState.successors] using hl⟩
  case readTag =>
    obtain ⟨hk, hl⟩ := stepReadTag_kept (engineStep_readTag hst ▸ ht)
    exact ⟨hk, by simpa [EngineState.successors] using hl⟩
  all_goals simp only [engineStep, hst] at ht
  case emitLiteral => exact Kept.of_finish (emitLiteral_post s) ht
  case emitCopy => exact Kept.of_finish (emitCopy_post s) ht
  case cHeader => exact Kept.of_withTable (fun F => cHeader_post F tableSize s) ht
  case cScan => exact withTable_cScan_kept hst ht
  case cEmit => exact Kept.of_withTable (fun F => cEmit_post F s) ht
  case cTail => exact Kept.of_withTable (fun F => cTail_post F s) ht

/-- Settles O41: the engine waits in `IDLE`, `DONE` and `FAULT`, and elsewhere the statement is the list of successors. -/
theorem transitions : Obligations.Transitions := by
  unfold Obligations.Transitions
  intro s t ht
  have waiting : s.busy = false → t = s := fun hb => by
    rw [engineStep_waiting hb] at ht; cases ht; rfl
  have leads := (engineStep_kept ht).2
  cases hst : s.st
  case idle | done | fault => exact waiting (State.busy_of_st hst)
  all_goals simp only [hst, EngineState.successors, List.mem_cons, List.not_mem_nil, or_false] at leads ⊢
  all_goals exact leads

/-- Settles O42: every transition keeps the argument registers and the schedule. -/
theorem engineKeepsArguments : Obligations.EngineKeepsArguments := by
  unfold Obligations.EngineKeepsArguments
  intro s t ht
  have kept := (engineStep_kept ht).1
  exact ⟨fun _ hr => kept.readReg hr, kept.turns⟩

/-! ### `STATUS` -/

/-- The fields of the word of `STATUS` (R21), over every state of the engine and every free choice. -/
theorem EngineState.statusWord_fields (st : EngineState) (d : Fin 9) :
    (st.statusWord d).getLsbD 0 = st.busy ∧ (st.statusWord d).getLsbD 1 = (st == .done) ∧
    (st.statusWord d).getLsbD 2 = (st == .fault) ∧ (st.statusWord d).getLsbD 3 = false ∧
    (st.statusWord d).toNat / 16 = st.field d := by
  revert d
  cases st <;> decide

/-- While `BUSY = 1` the field `STATE` shows one of the nine busy codes (R18, R21). -/
theorem EngineState.field_busy {st : EngineState} (hb : st.busy = true) (d : Fin 9) : 1 ≤ st.field d ∧ st.field d ≤ 9 := by
  simp only [EngineState.field, hb, if_true]
  omega

/-- While `BUSY = 0` the field `STATE` shows the code of `ST` (R18, R21). -/
theorem EngineState.field_waiting {st : EngineState} (hb : st.busy = false) (d : Fin 9) :
    st.field d = if st = .idle then 0 else if st = .done then 14 else 15 := by
  simp only [EngineState.field, hb, Bool.false_eq_true, if_false]
  cases st
  case idle | done | fault => rfl
  all_goals cases hb

/-- Settles O15, from the fields of the word and what `STATE` shows while `BUSY` is 0 and while it is 1. -/
theorem statusWord : Obligations.StatusWord := by
  unfold Obligations.StatusWord
  intro s
  obtain ⟨hbusy, hdone, herr, hzero, hstate⟩ := s.st.statusWord_fields (Config.freeBusyState s.draws)
  simp only [State.readReg, State.status, hbusy, hdone, herr, hzero, hstate]
  exact ⟨EngineState.busy_iff, beq_iff_eq, beq_iff_eq, trivial, fun hb => EngineState.field_waiting hb _,
    fun hb => EngineState.field_busy hb _⟩

/-- Settles O16, from R16 and R21 for `STATUS` and from the latches for the result registers. -/
theorem busyRegisters : Obligations.BusyRegisters := by
  unfold Obligations.BusyRegisters
  intro s r v hb latch
  obtain ⟨-, hdone, hfault⟩ := EngineState.busy_iff.1 hb
  obtain ⟨hbusy, -, -, -, hstate⟩ := s.st.statusWord_fields (Config.freeBusyState s.draws)
  obtain ⟨hlow, hhigh⟩ := EngineState.field_busy hb (Config.freeBusyState s.draws)
  obtain ⟨hreason, hoffset⟩ := latch.reason hfault
  have hkind : s.cr.errKind = 0 := by
    by_contra hk
    exact hfault (latch.kind.1 hk)
  simp only [State.readReg, State.status, hbusy, hstate, State.writeReg_busy hb]
  exact ⟨trivial, hb, hlow, hhigh, latch.result hdone, hkind, hreason, hoffset, by simp⟩

/-! ### Writes -/

/-- Settles O17, from what each register reads after an accepted write. -/
theorem acceptedWrite : Obligations.AcceptedWrite := by
  unfold Obligations.AcceptedWrite
  intro s r v hb hr
  rw [State.writeReg_waiting hb]
  refine ⟨?stored, ?others, ?frame⟩
  case stored =>
    rw [State.readReg_acceptWrite s v hr]
    by_cases hro : r ∈ [CReg.status, .result, .errKind, .errReason, .errOffset]
    · rw [if_neg fun h => h.2 hro, if_pos (by simpa using hro)]
    · have hro' : ¬ (r = .status ∨ r = .result ∨ r = .errKind ∨ r = .errReason ∨ r = .errOffset) := by simpa using hro
      rw [if_pos ⟨rfl, hro⟩, if_neg hro', ctlBits]
  case others =>
    intro q hq
    rw [State.readReg_acceptWrite s v hr, if_neg fun h => hq h.1]
  case frame => rw [State.acceptWrite_eq s v hr]

/-- A write to `CMD` leaves the registers it does not name (R20). -/
theorem State.readReg_start (s : State) (v : Word) {q : CReg}
    (hq : q ∉ [CReg.cmd, .status, .result, .errKind, .errReason, .errOffset]) : (s.start v).readReg q = s.readReg q := by
  cases q
  case cmd | status | result | errKind | errReason | errOffset => exact absurd (by decide) hq
  all_goals rfl

/-- A value that is no command code (R80). -/
theorem decodeCommand_bad {v : Word} (hv : v ∉ [(1 : Word), 2, 3, 4]) : decodeCommand v = .error .badCommand := by
  unfold decodeCommand
  split
  case h_5 => rfl
  all_goals
    rename_i h
    have e : v = BitVec.ofNat 32 v.toNat := by simp
    rw [h] at e
    subst e
    exact absurd (by decide) hv

/-- After a write to `CMD` the engine is in `ARGCHECK` (R171). -/
theorem engineStep_start (s : State) (v : Word) : engineStep (s.start v) =
    match decodeCommand v with
    | .ok i => exec i (s.start v)
    | .error _ => .next ((s.start v).takeError (.invalidArgument .badCommand)) := by
  rw [engineStep_argcheck (State.start_st s v), stepArgcheck, State.start_cr]
  rfl

/-- Settles O18: an accepted write to `CMD` is the start of a command, and `ARGCHECK` decodes its code. -/
theorem commandStart : Obligations.CommandStart := by
  unfold Obligations.CommandStart
  refine ⟨rfl, rfl, rfl, rfl, fun s v => ⟨fun hb => State.writeReg_busy hb _ _, fun hb => ?_⟩⟩
  have e : s.writeReg .cmd v = s.start v := State.writeReg_waiting hb _ _
  rw [e]
  refine ⟨rfl, rfl, rfl, rfl, rfl, rfl, fun q hq => State.readReg_start s v hq, rfl, ?code, ?noCode⟩
  case code =>
    intro i hi
    rw [engineStep_start, hi]
  case noCode =>
    intro hv
    rw [engineStep_start, decodeCommand_bad hv]

/-- Settles O20: a write to a register other than `CMD` keeps what the RO registers read, and no other move but a reset
touches a control register. -/
theorem latching : Obligations.Latching := by
  unfold Obligations.Latching
  refine ⟨?moves, fun s hb => engineStep_waiting hb, fun s r => ⟨_, rfl, rfl, rfl, rfl, rfl, rfl, rfl⟩⟩
  case moves =>
    intro s t m hb hcmd hreset ht
    cases m with
    | writeReg r v =>
      have hr : r ≠ .cmd := fun h => hcmd v (h ▸ rfl)
      have latched {q : CReg} := State.readReg_acceptWrite_readOnly (q := q) s v hr
      cases ht
      rw [State.writeReg_waiting hb]
      exact ⟨by rw [State.acceptWrite_eq s v hr], latched (by decide), latched (by decide), latched (by decide),
        latched (by decide)⟩
    | readReg r => cases ht; exact ⟨rfl, rfl, rfl, rfl, rfl⟩
    | storeByte a b =>
      simp only [hostMove] at ht
      split_ifs at ht
      cases ht; exact ⟨rfl, rfl, rfl, rfl, rfl⟩
    | loadByte a =>
      simp only [hostMove] at ht
      split_ifs at ht
      cases ht; exact ⟨rfl, rfl, rfl, rfl, rfl⟩
    | reset => exact absurd rfl hreset

/-! ### Reset -/

/-- `ARG.view` on a buffer that is not there (R172). -/
theorem argView_absent {s : State} {x : Space} (hv : s.cr.valid x = false) (off len : Int) :
    argView s x off len = .error (.raised (.invalidArgument .absentBuffer) s) := by
  rw [argView_eq, if_pos hv]

/-- A command that reads a block faults `AbsentBuffer` when nothing but `FORMAT`, 0, has been set up. -/
theorem exec_absent {s : State} (hf : s.cr.format = 0) (hv : s.cr.valid .input = false) {i : Instr}
    (hi : i ∈ [Instr.compress, .getulen, .decompress]) :
    exec i s = .next (s.takeError (.invalidArgument .absentBuffer)) := by
  have htable : selectTable s = .ok fvt0 := by simp only [selectTable, hf]; rfl
  have habsent := argView_absent hv (sext s.cr.inOff)
  simp only [List.mem_cons, List.not_mem_nil, or_false] at hi
  rcases hi with rfl | rfl | rfl
  · simp only [exec, execCompress, argCompress, htable, Flow.ok_bind, habsent, Flow.error_bind, finish_raised]
  · have hheader : ¬ fvt0.hasHeader = false := by decide
    simp only [exec, execGetulen, argGetulen, getulenEntry, htable, Flow.ok_bind]
    rw [if_neg hheader, habsent]
    rfl
  · simp only [exec, execDecompress, argDecompress, decompressEntry, htable, Flow.ok_bind, habsent, Flow.error_bind,
      finish_raised]

/-- An error raised in `ARGCHECK` leaves memory alone (R196). -/
theorem State.takeError_mem_argcheck {s : State} (hst : s.st = .argcheck) (e : Error) : (s.takeError e).mem = s.mem := by
  simp only [State.takeError, State.unspecifiedOnFault, hst, State.latchError_mem]

theorem EngineState.statusWord_idle (d : Fin 9) : EngineState.idle.statusWord d = 0 := rfl

/-- Settles O22: a command started from reset finds no input buffer (R37, R172). -/
theorem resetState : Obligations.ResetState := by
  unfold Obligations.ResetState
  refine ⟨rfl, ?registers, fun v hv => ?commands⟩
  case registers =>
    intro r
    cases r
    case status => exact EngineState.statusWord_idle _
    all_goals rfl
  case commands =>
    have hcode : ∃ i ∈ [Instr.compress, .getulen, .decompress], decodeCommand v = .ok i := by
      simp only [List.mem_cons, List.not_mem_nil, or_false] at hv
      rcases hv with rfl | rfl | rfl
      · exact ⟨.compress, by decide, rfl⟩
      · exact ⟨.getulen, by decide, rfl⟩
      · exact ⟨.decompress, by decide, rfl⟩
    obtain ⟨i, hi, hcode⟩ := hcode
    have hstart : State.reset.writeReg .cmd v = State.reset.start v := State.writeReg_waiting rfl _ _
    have hvalid : Control.reset.valid .input = false := by decide
    refine ⟨(State.reset.start v).takeError (.invalidArgument .absentBuffer), ?_, State.takeError_st _ _, ?_, ?_,
      State.takeError_mem_argcheck rfl _⟩
    · rw [hstart, engineStep_start, hcode]
      exact exec_absent rfl hvalid hi
    · simp only [State.readReg, State.takeError_cr]; rfl
    · simp only [State.readReg, State.takeError_cr]; rfl

/-! ### The decoded instruction -/

/-- Settles O39, from what each state of the engine fetches and runs (Laws/Engine), on the state with the turn taken off. -/
theorem stepRunsDecoded : Obligations.StepRunsDecoded := by
  unfold Obligations.StepRunsDecoded
  intro s i hturn s'
  have hstep : step s = engineStep s' := step_engine hturn
  refine ⟨fun hst hi => ?argcheck, fun F hF hip hm => ⟨fun hst hh hi => ?header, fun hst hop hend hi => ?tag⟩⟩
  case argcheck =>
    have hi' : decodeCommand s'.cr.cmd = .ok i := hi
    rw [hstep, engineStep_argcheck (s := s') hst, stepArgcheck, hi']
  case header =>
    have hi' : decodeHeader (s'.bytesFrom s'.vin s'.wr.ip) = .ok i := hi
    rw [hstep, engineStep_readHeader (s := s') hst, stepReadHeader_eq (s := s') hF hh hip hm, hi']
  case tag =>
    have hi' : decodeOperation F (s'.bytesFrom s'.vin s'.wr.ip) = .ok i := hi
    rw [hstep, engineStep_readTag (s := s') hst, stepReadTag_eq (s := s') hF hop hend hip hm, hi']

end Sys2Proof.Machine
end

section
/-! The statements of the family "20_memory": where the engine writes and reads (R56, R58), that no fault of the model stops a step,
and the host's loads and stores (R57). -/

namespace Sys2Proof.Machine

/-! ### The addresses the engine may write (R58) -/

/-- The states of DEC past the header and those of CMP: the command has an output view up to `olimit` (R11, R12). -/
def EngineState.pastHeader : EngineState → Bool
  | .readTag | .emitLiteral | .emitCopy | .cHeader | .cScan | .cEmit | .cTail => true
  | .idle | .argcheck | .readHeader | .done | .fault => false

theorem EngineState.readHeader_or_pastHeader {st : EngineState} (hb : st.busy = true) (ha : st ≠ .argcheck) :
    st = .readHeader ∨ st.pastHeader = true := by
  revert hb ha
  cases st <;> decide

theorem State.mayWrite_none {s : State} (hu : s.unspecifiedOnFault = none) (p : Nat) : ¬ s.mayWrite p := by
  simp only [State.mayWrite, hu, not_false_eq_true]

theorem State.mayWrite_some {s : State} {lo hi : Nat} (hu : s.unspecifiedOnFault = some (lo, hi)) {p : Nat} :
    s.mayWrite p ↔ s.phys .output lo ≤ p ∧ p < s.phys .output hi := by
  simp only [State.mayWrite, hu]

theorem State.mayWrite_congr {s u : State} (ec : u.cr = s.cr) (eu : u.unspecifiedOnFault = s.unspecifiedOnFault) (p : Nat) :
    u.mayWrite p ↔ s.mayWrite p := by
  simp only [State.mayWrite, eu, State.phys_congr ec]

/-- About to read a header, GETULEN may write no byte and DECOMPRESS its output view, which has no byte of the input view. -/
theorem State.ReadyForHeader.writable {s : State} (h : s.ReadyForHeader) (hst : s.st = .readHeader) :
    s.unspecifiedOnFault = none ∨ ∃ lim, s.unspecifiedOnFault = some (s.wr.ostart, lim) ∧ s.Apart lim := by
  simp only [State.unspecifiedOnFault, hst]
  rcases h.command with hc | ⟨hc, -, -, hap⟩
  · exact .inl (if_neg (by rw [hc]; decide))
  · exact .inr ⟨s.wr.oend, if_pos hc, hap⟩

/-- Past the header a command may write a range of the output that begins at `ostart`, holds the offsets up to `olimit` and has no
byte of the input view. -/
theorem State.PhaseOk.writable {s : State} (h : s.PhaseOk) (hp : s.st.pastHeader = true) :
    ∃ lim, s.unspecifiedOnFault = some (s.wr.ostart, lim) ∧ s.Apart lim ∧ s.wr.olimit ≤ lim := by
  have decoding (hd : s.Decoding) : ∃ lim, (if s.cr.cmd = 4 then some (s.wr.ostart, s.wr.oend) else none) =
      some (s.wr.ostart, lim) ∧ s.Apart lim ∧ s.wr.olimit ≤ lim := ⟨s.wr.oend, if_pos hd.command, hd.apart, hd.capacity⟩
  have compressing (hc : s.Compressing) : ∃ lim, some (s.wr.ostart, s.wr.olimit) = some (s.wr.ostart, lim) ∧ s.Apart lim ∧
      s.wr.olimit ≤ lim := ⟨s.wr.olimit, rfl, hc.apart, Nat.le_refl _⟩
  cases hst : s.st
  case idle | argcheck | readHeader | done | fault => rw [hst] at hp; exact absurd hp (by decide)
  all_goals simp only [State.unspecifiedOnFault, hst]
  case readTag => exact decoding ((State.phaseOk_readTag hst).1 h)
  case emitLiteral => exact decoding ((State.phaseOk_emitLiteral hst).1 h).1
  case emitCopy => exact decoding ((State.phaseOk_emitCopy hst).1 h).1
  case cHeader => exact compressing ((State.phaseOk_cHeader hst).1 h).1
  case cScan => exact compressing ((State.phaseOk_cScan hst).1 h).1
  case cEmit => exact compressing ((State.phaseOk_cEmit hst).1 h).1
  case cTail => exact compressing ((State.phaseOk_cTail hst).1 h).1

/-- A byte of the input view is no byte of a range of the output that is apart from it. -/
theorem State.Apart.not_mayWrite {s : State} {lim a : Nat} (hap : s.Apart lim)
    (hu : s.unspecifiedOnFault = some (s.wr.ostart, lim)) (hlo : s.wr.istart ≤ a) (hhi : a < s.wr.iend) :
    ¬ s.mayWrite (s.phys .input a) := by
  rw [State.mayWrite_some hu]
  rintro ⟨h1, h2⟩
  simp only [State.phys] at h1 h2
  refine hap a (s.phys .input a - s.cr.base .output) hlo hhi ?_ ?_ ?_ <;> simp only [State.phys] <;> omega

/-- The engine may write no byte of the input view (R56). -/
theorem State.PhaseOk.input_not_mayWrite {s : State} (h : s.PhaseOk) (hb : s.busy = true) (ha : s.st ≠ .argcheck) {a : Nat}
    (hlo : s.wr.istart ≤ a) (hhi : a < s.wr.iend) : ¬ s.mayWrite (s.phys .input a) := by
  rcases EngineState.readHeader_or_pastHeader hb ha with hst | hp
  · rcases ((State.phaseOk_readHeader hst).1 h).writable hst with hu | ⟨lim, hu, hap⟩
    · exact State.mayWrite_none hu _
    · exact hap.not_mayWrite hu hlo hhi
  · obtain ⟨lim, hu, hap, -⟩ := h.writable hp
    exact hap.not_mayWrite hu hlo hhi

/-- Past the header the engine may write every byte of its output view up to `olimit`. -/
theorem State.PhaseOk.output_mayWrite {s : State} (h : s.PhaseOk) (hp : s.st.pastHeader = true) {p : Nat}
    (hlo : s.phys .output s.wr.ostart ≤ p) (hhi : p < s.phys .output s.wr.olimit) : s.mayWrite p := by
  obtain ⟨lim, hu, -, hlim⟩ := h.writable hp
  exact (State.mayWrite_some hu).2 ⟨hlo, hhi.trans_le ((State.phys_le s .output).2 hlim)⟩

/-- A byte the engine may not write lies outside every range of its output view up to `olimit`. -/
theorem State.PhaseOk.outside_of_not_mayWrite {s : State} (h : s.PhaseOk) (hp : s.st.pastHeader = true) {p lo hi : Nat}
    (hw : ¬ s.mayWrite p) (hlo : s.wr.ostart ≤ lo) (hhi : hi ≤ s.wr.olimit) :
    p < s.phys .output lo ∨ s.phys .output hi ≤ p := by
  by_contra hcon
  rw [not_or, Nat.not_lt, Nat.not_le] at hcon
  exact hw (h.output_mayWrite hp (((State.phys_le s .output).2 hlo).trans hcon.1)
    (hcon.2.trans_le ((State.phys_le s .output).2 hhi)))

/-- Taking an error discards only bytes the engine may write (R121, R162). -/
theorem State.takeError_read {s : State} {p : Nat} (hp : ¬ s.mayWrite p) (e : Error) :
    (s.takeError e).mem.read p = s.mem.read p := by
  simp only [State.takeError]
  split
  · rename_i lo hi hu
    rw [State.mayWrite_some hu] at hp
    exact Memory.read_discard_outside _ (by omega)
  · rfl

/-! ### Writes (R58) -/

/-- `u` is `s` after part of a transition that has changed no byte the engine may not write, and what it may write is as before. -/
structure Within (s u : State) : Prop where
  cr : u.cr = s.cr
  unspecified : u.unspecifiedOnFault = s.unspecifiedOnFault
  outside : ∀ p, ¬ s.mayWrite p → u.mem.read p = s.mem.read p

theorem Within.refl (s : State) : Within s s := ⟨rfl, rfl, fun _ _ => rfl⟩

theorem RaisedFrom.within {s u : State} (r : RaisedFrom s u) : Within s u := ⟨r.cr, r.unspecified, fun _ _ => by rw [r.mem]⟩

/-- An emission that fits stays within the output view. -/
theorem Emitted.within {s t : State} {bs : List Byte} (he : Emitted s t bs) (h : s.PhaseOk) (hp : s.st.pastHeader = true)
    (hc : s.Compressing) (hfit : s.wr.op + bs.length ≤ s.wr.olimit) : Within s t where
  cr := he.cr
  unspecified := by simp only [State.unspecifiedOnFault, he.st, he.cr, he.wr]
  outside p hw := he.outside p (h.outside_of_not_mayWrite hp hw hc.opLow hfit)

/-- What a transition of the engine from `s` can answer: a state in which no byte has changed that the engine may not write, or a
refusal; never a fault of the model. -/
inductive Confined (s : State) : Host.Outcome State Fault Refusal → Prop
  | next {t : State} (outside : ∀ p, ¬ s.mayWrite p → t.mem.read p = s.mem.read p) : Confined s (.next t)
  | refused (r : Refusal) : Confined s (.refused r)

namespace Confined

variable {s t u : State} {o : Host.Outcome State Fault Refusal}

theorem same (em : t.mem = s.mem) : Confined s (.next t) := .next fun _ _ => by rw [em]

theorem takeError (w : Within s u) (e : Error) : Confined s (.next (u.takeError e)) :=
  .next fun p hp => (State.takeError_read (mt (State.mayWrite_congr w.cr w.unspecified p).1 hp) e).trans (w.outside p hp)

theorem ne_fault (c : Confined s o) (f : Fault) : o ≠ .fault f := by cases c <;> nofun

theorem read_next (c : Confined s (.next t)) {p : Nat} (hp : ¬ s.mayWrite p) : t.mem.read p = s.mem.read p := by
  cases c with
  | next outside => exact outside p hp

end Confined

theorem stepArgcheck_confined {s : State} (hst : s.st = .argcheck) : Confined s (stepArgcheck s) := by
  rcases stepArgcheck_cases s with ⟨-, -, -, e⟩ | ⟨-, -, e⟩ | ⟨-, -, e⟩ | ⟨-, -, e⟩ | ⟨err, e⟩ | e <;> rw [e]
  iterate 4 exact .same rfl
  · exact .same (State.takeError_mem_argcheck hst err)
  · exact .refused _

theorem stepReadHeader_confined {s : State} (h : s.ReadyForHeader) : Confined s (stepReadHeader s) := by
  obtain ⟨F, hF⟩ := table_some h.table
  have run := stepReadHeader_run h hF
  split at run
  · rw [run]
    exact .takeError (.refl s) _
  · obtain ⟨-, -, -, run⟩ := run
    rw [run]
    split_ifs
    · exact .same rfl
    · refine .takeError ?_ _
      exact ⟨rfl, rfl, fun _ _ => rfl⟩
    · exact .same rfl

/-- What `READ_TAG` answers: the command ends, an error is raised, or an operation has run (R113 to R119). -/
theorem stepReadTag_cases {s : State} (hst : s.st = .readTag) (hd : s.Decoding) (hw : s.mem.wf) :
    stepReadTag s = .next (s.complete s.wr.ulen) ∨
    (∃ u e, RaisedFrom s u ∧ stepReadTag s = .next (u.takeError e)) ∨
    ∃ t pos out, RanFrom s t pos out ∧ stepReadTag s = .next t := by
  by_cases hop : s.wr.op = s.wr.olimit <;> by_cases hip : s.wr.ip = s.wr.iend
  · exact .inl (stepReadTag_done hop hip)
  · exact .inr (.inl ⟨s, _, .refl s, stepReadTag_trailing hop hip⟩)
  · exact .inr (.inl ⟨s, _, .refl s, stepReadTag_truncated hop hip⟩)
  · exact .inr (stepReadTag_outcome hst hd hw hop hip)

/-- An operation of DECOMPRESS writes between `op` and `olimit` alone. -/
theorem RanFrom.confined {s t : State} {pos : Nat} {out : List Byte} (r : RanFrom s t pos out) (h : s.PhaseOk)
    (hp : s.st.pastHeader = true) (hd : s.Decoding) : Confined s (.next t) :=
  .next fun p hw => r.outside p (h.outside_of_not_mayWrite hp hw hd.opLow (Nat.le_refl _))

theorem stepReadTag_confined {s : State} (h : s.Inv) (hst : s.st = .readTag) : Confined s (stepReadTag s) := by
  have hd := (State.phaseOk_readTag hst).1 h.phase
  rcases stepReadTag_cases hst hd h.memory with e | ⟨u, err, hu, e⟩ | ⟨t, pos, out, ht, e⟩ <;> rw [e]
  · exact .same rfl
  · exact .takeError hu.within err
  · exact ht.confined h.phase (by rw [hst]; rfl) hd

/-- An `EMIT_*` state, by what its rule does on the bytes of the views (`emitLiteral_run`, `emitCopy_run`). -/
theorem emit_confined {s : State} (h : s.PhaseOk) (hp : s.st.pastHeader = true) (hd : s.Decoding) {f : Flow State}
    {r : Except Error (Nat × List Byte)}
    (run : match r with
      | .ok (pos, out) => ∃ t, f = .ok t ∧ RanFrom s t pos out
      | .error e => f = .error (.raised e s)) : Confined s (finish f) := by
  match r, run with
  | .ok _, ⟨t, hf, ht⟩ => rw [hf]; exact ht.confined h hp hd
  | .error e, hf => rw [hf]; exact .takeError (.refl s) e

/-- A transition of CMP that emits the bytes `bs` and then moves registers alone, or overruns the bound having emitted what fitted
(`cEmit_ok`, `cTail_ok`). -/
theorem emission_confined {s : State} (h : s.PhaseOk) (hp : s.st.pastHeader = true) (hc : s.Compressing) {f : Flow State}
    {bs : List Byte} {after : State → State}
    (run : (s.wr.op + bs.length ≤ s.wr.olimit → ∃ t, Emitted s t bs ∧ f = .ok (after t)) ∧
      (s.wr.olimit < s.wr.op + bs.length → ∃ t cs, f = .error (.raised (.capacity .emissionOverrun) t) ∧ Emitted s t cs ∧
        s.wr.op + cs.length ≤ s.wr.olimit))
    (hafter : ∀ t, (after t).mem = t.mem) : Confined s (finish f) := by
  obtain ⟨fits, overruns⟩ := run
  rcases Nat.lt_or_ge s.wr.olimit (s.wr.op + bs.length) with hover | hfit
  · obtain ⟨t, cs, e, he, hl⟩ := overruns hover
    rw [e]
    exact .takeError (he.within h hp hc hl) _
  · obtain ⟨t, he, e⟩ := fits hfit
    rw [e]
    exact .next fun p hw => by rw [hafter]; exact (he.within h hp hc hfit).outside p hw

/-- The bound of R141 has room for the header (R143). -/
theorem State.Compressing.header_fits {s : State} (hc : s.Compressing) (hop : s.wr.op = s.wr.ostart) :
    s.wr.op + (shortestVarint (s.wr.iend - s.wr.istart)).length ≤ s.wr.olimit := by
  have hlen := shortestVarint_length_le (s.wr.iend - s.wr.istart)
  have hbound := hc.bound
  simp only [mcl] at hbound
  omega

/-- `C_HEADER` emits the header, which fits. -/
theorem cHeader_confined {s : State} {F : FVT} (h : s.Inv) (hst : s.st = .cHeader) (hF : F ∈ tables) :
    Confined s (finish (cHeader F tableSize s)) := by
  obtain ⟨hc, hop⟩ := (State.phaseOk_cHeader hst).1 h.phase
  have hfit := hc.header_fits hop
  obtain ⟨t, e, he⟩ := emitHeader_ok (table_constants hF).1 h.memory hc.opLow hfit hc.output.mapped
  simp only [cHeader, e, Flow.ok_bind, finish_ok]
  exact .next (he.within h.phase (by rw [hst]; rfl) hc hfit).outside

/-- `C_SCAN` writes no byte. -/
theorem cScan_confined {s : State} {F : FVT} (hc : s.Compressing) (hscan : s.Scanning) : Confined s (finish (cScan F hash s)) := by
  have hip := hscan.anchorLow.trans hscan.anchorHigh
  by_cases hwin : s.wr.iend - s.wr.ip < Config.window
  · rw [cScan, if_pos hwin]
    exact .same rfl
  · rw [cScan_window hip (Nat.not_lt.1 hwin) hc.input.mapped]
    split <;> exact .same rfl

/-- A transition from a state that meets the invariant stays within what the engine may write, and no fault of the model stops it. -/
theorem engineStep_confined {s : State} (h : s.Inv) : Confined s (engineStep s) := by
  have phase := h.phase
  cases hst : s.st
  case idle | done | fault => rw [engineStep_waiting (State.busy_of_st hst)]; exact .same rfl
  case argcheck => rw [engineStep_argcheck hst]; exact stepArgcheck_confined hst
  case readHeader => rw [engineStep_readHeader hst]; exact stepReadHeader_confined ((State.phaseOk_readHeader hst).1 phase)
  case readTag => rw [engineStep_readTag hst]; exact stepReadTag_confined h hst
  all_goals
    have past : s.st.pastHeader = true := by rw [hst]; rfl
    simp only [engineStep, hst]
  case emitLiteral =>
    obtain ⟨hd, hdd⟩ := (State.phaseOk_emitLiteral hst).1 phase
    exact emit_confined phase past hd (emitLiteral_run hd hdd h.memory)
  case emitCopy =>
    obtain ⟨hd, hdd⟩ := (State.phaseOk_emitCopy hst).1 phase
    exact emit_confined phase past hd (emitCopy_run hd hdd h.memory)
  case cHeader =>
    obtain ⟨F, hF⟩ := table_some ((State.phaseOk_cHeader hst).1 phase).1.table
    rw [withTable_eq hF]
    exact cHeader_confined h hst (table_mem hF)
  case cScan =>
    obtain ⟨hc, hscan⟩ := (State.phaseOk_cScan hst).1 phase
    obtain ⟨F, hF⟩ := table_some hc.table
    rw [withTable_eq hF]
    exact cScan_confined hc hscan
  case cEmit =>
    obtain ⟨hc, hm⟩ := (State.phaseOk_cEmit hst).1 phase
    obtain ⟨F, hF⟩ := table_some hc.table
    rw [withTable_eq hF]
    exact emission_confined phase past hc (cEmit_ok (table_mem hF) h.memory hc (hm F hF)) fun _ => rfl
  case cTail =>
    obtain ⟨hc, hscan⟩ := (State.phaseOk_cTail hst).1 phase
    obtain ⟨F, hF⟩ := table_some hc.table
    rw [withTable_eq hF]
    exact emission_confined phase past hc (cTail_ok (table_mem hF) h.memory hc hscan.anchorLow) fun _ => rfl

/-- The descriptors are argument registers, so no transition moves an address (R32). -/
theorem Kept.phys {s t : State} (h : Kept s t) (x : Space) (a : Nat) : t.phys x a = s.phys x a := by
  have base (c : Control) : c.arguments.base x = c.base x := by cases x <;> rfl
  rw [State.phys, State.phys, ← base, h.arguments, base]

/-- Settles O52: a transition stays within what the engine may write, which has no byte of the input view (R56). -/
theorem writesConfined : Obligations.WritesConfined := by
  unfold Obligations.WritesConfined
  intro s t h ht
  have confined : Confined s (.next t) := ht ▸ engineStep_confined h
  refine ⟨fun a => confined.read_next, fun hb ha a hlo hhi => ?input⟩
  case input =>
    rw [State.inByte, (engineStep_kept ht).1.phys]
    exact confined.read_next (h.phase.input_not_mayWrite hb ha hlo hhi)

/-- Settles O53: of what `READ_TAG` answers without a fault, the end of the command writes no byte, and an operation writes
between `op` and `olimit` alone. -/
theorem decompressWritesBelowLimit : Obligations.DecompressWritesBelowLimit := by
  unfold Obligations.DecompressWritesBelowLimit
  intro s t h hst ht hfault a ha
  have hd := (State.phaseOk_readTag hst).1 h.phase
  rw [engineStep_readTag hst] at ht
  rcases stepReadTag_cases hst hd h.memory with e | ⟨u, err, -, e⟩ | ⟨u, pos, out, hu, e⟩ <;> rw [e] at ht <;> cases ht
  · rfl
  · exact absurd (State.takeError_st u err) hfault
  · exact hu.outside a (by omega)

/-! ### The host's loads and stores (R53, R57) -/

/-- The host's store at an address that exists. -/
theorem hostMove_storeByte {a : Nat} (ha : a < 2 ^ Config.paddrBits) (b : Byte) (s : State) :
    hostMove (.storeByte a b) s =
      if s.busy && (inSpan a s.inputRange || inSpan a s.outputRange) then .refused .hostTouchesView
      else .next { s with mem := s.mem.write a b } :=
  if_neg (Nat.not_le.2 ha)

/-- The host's load at an address that exists. -/
theorem hostMove_loadByte {a : Nat} (ha : a < 2 ^ Config.paddrBits) (s : State) :
    hostMove (.loadByte a) s =
      if s.busy && inSpan a s.outputRange then .refused .hostTouchesView
      else .next { s with readData := (s.mem.read a).setWidth 32 } :=
  if_neg (Nat.not_le.2 ha)

/-- Settles O23, by the one test that the store and the load each make. -/
theorem hostMemoryMoves : Obligations.HostMemoryMoves := by
  unfold Obligations.HostMemoryMoves
  intro s a b hw ha
  rw [hostMove_storeByte ha, hostMove_loadByte ha]
  refine ⟨fun hfree => ?stores, fun hfree => ?loads, fun hb hout => ?refused, fun hb hin => ?storeRefused⟩
  case stores =>
    have hpass : ¬ (s.busy && (inSpan a s.inputRange || inSpan a s.outputRange)) = true := by
      rcases hfree with hb | ⟨hin, hout⟩
      · simp [hb]
      · simp [hin, hout]
    rw [if_neg hpass]
    exact ⟨_, rfl, rfl, Memory.read_write_same hw a b, fun _ hp => Memory.read_write_other hw b hp⟩
  case loads =>
    have hpass : ¬ (s.busy && inSpan a s.outputRange) = true := by
      rcases hfree with hb | hout
      · simp [hb]
      · simp [hout]
    rw [if_neg hpass]
  case refused => exact ⟨if_pos (by simp [hb, hout]), if_pos (by simp [hb, hout])⟩
  case storeRefused => exact if_pos (by simp [hb, hin])

/-! ### No fault of the model -/

/-- A scheduled move of the host ends in no fault: its address exists. -/
theorem hostMove_ne_fault {m : HostMove} (hm : (Turn.host m).inRange) (s : State) (f : Fault) : hostMove m s ≠ .fault f := by
  cases m with
  | writeReg r v => nofun
  | readReg r => nofun
  | storeByte a b => rw [hostMove_storeByte hm]; split_ifs <;> nofun
  | loadByte a => rw [hostMove_loadByte hm]; split_ifs <;> nofun
  | reset => nofun

/-- Settles O51: a step is a transition of the engine, which is confined, or a move of the host at an address that exists. -/
theorem noModelFault : Obligations.NoModelFault := by
  unfold Obligations.NoModelFault
  intro s f h
  rcases step_cases s with ⟨-, e⟩ | ⟨rest, hturns, e⟩ | ⟨m, rest, hturns, e⟩ <;> rw [e]
  · exact (engineStep_confined h).ne_fault f
  · exact (engineStep_confined (h.withTurns fun m hm => hturns ▸ List.mem_cons_of_mem _ hm)).ne_fault f
  · exact hostMove_ne_fault (h.turns _ (hturns ▸ List.mem_cons_self)) _ f

/-! ### Reads (R58) -/

/-- Two states past the header that differ in memory alone, and there only outside the two views, are twins for the rules. -/
theorem Like.twin {A : Nat → Prop} {s s' : State} (hl : Like A s s') (h : s.Inv) (hp : s.st.pastHeader = true)
    (hin : ∀ a, s.wr.istart ≤ a → a < s.wr.iend → A (s.phys .input a)) (hout : ∀ p, s.mayWrite p → A p) : Twin A s s' where
  like := hl
  views := ⟨hin, fun _ hlo hhi =>
    hout _ (h.phase.output_mayWrite hp ((State.phys_le s .output).2 hlo) ((State.phys_lt s .output).2 hhi))⟩
  iend := h.registers.iend
  olimit := h.registers.olimit

/-- The running command's table is the same on both sides. -/
theorem Answers.withTable {A : Nat → Prop} {s s' : State} (hl : Like A s s') {f : FVT → State → Flow State} {F : FVT}
    (hF : tables[s.cr.format.toNat]? = some F) (hf : (f F s).Rel (Like A) (Like A) (f F s')) :
    Answers A (Machine.withTable f s) (Machine.withTable f s') := by
  rw [withTable_eq hF, withTable_eq (by rw [hl.cr]; exact hF)]
  exact .finish hf

/-- A transition depends on no byte outside the two views: the rule each state runs reads these alone (Laws/Confine). -/
theorem engineStep_answers {A : Nat → Prop} {s s' : State} (hl : Like A s s') (h : s.Inv)
    (hin : s.busy = true → s.st ≠ .argcheck → ∀ a, s.wr.istart ≤ a → a < s.wr.iend → A (s.phys .input a))
    (hout : ∀ p, s.mayWrite p → A p) : Answers A (engineStep s) (engineStep s') := by
  have phase := h.phase
  have st' := hl.st
  cases hst : s.st <;> rw [hst] at st'
  case idle | done | fault =>
    rw [engineStep_waiting (State.busy_of_st hst), engineStep_waiting (State.busy_of_st st')]
    exact .next hl
  case argcheck =>
    rw [engineStep_argcheck hst, engineStep_argcheck st']
    exact hl.stepArgcheck
  all_goals have input := hin (State.busy_of_st hst) (by rw [hst]; decide)
  case readHeader =>
    have hr := (State.phaseOk_readHeader hst).1 phase
    obtain ⟨F, hF⟩ := table_some hr.table
    rw [engineStep_readHeader hst, engineStep_readHeader st']
    exact hl.stepReadHeader hr hF input
  all_goals have twin : Twin A s s' := hl.twin h (by rw [hst]; rfl) input hout
  case readTag =>
    have hd := (State.phaseOk_readTag hst).1 phase
    obtain ⟨F, hF⟩ := table_some hd.table
    rw [engineStep_readTag hst, engineStep_readTag st']
    exact hl.stepReadTag hd hF input twin
  all_goals simp only [engineStep, hst, st']
  case emitLiteral => exact .finish twin.emitLiteral.drop
  case emitCopy => exact .finish twin.emitCopy.drop
  case cHeader =>
    obtain ⟨F, hF⟩ := table_some ((State.phaseOk_cHeader hst).1 phase).1.table
    exact .withTable hl hF (twin.cHeader F tableSize).drop
  case cScan =>
    obtain ⟨hc, hscan⟩ := (State.phaseOk_cScan hst).1 phase
    obtain ⟨F, hF⟩ := table_some hc.table
    exact .withTable hl hF (hl.cScan hscan hc input)
  case cEmit =>
    obtain ⟨F, hF⟩ := table_some ((State.phaseOk_cEmit hst).1 phase).1.table
    exact .withTable hl hF (twin.cEmit F).drop
  case cTail =>
    obtain ⟨F, hF⟩ := table_some ((State.phaseOk_cTail hst).1 phase).1.table
    exact .withTable hl hF (twin.cTail F)

/-- Settles O54: the two states are alike at the addresses where their memories agree, which hold the two views. -/
theorem readsConfined : Obligations.ReadsConfined := by
  unfold Obligations.ReadsConfined
  intro s m h hm hin hout
  have like : Like (fun a => m.read a = s.mem.read a) s { s with mem := m } := ⟨rfl, h.memory, hm, fun _ ha => ha⟩
  exact engineStep_answers like h hin hout

end Sys2Proof.Machine
end

section
/-! The statements of the family "30_encoding": which tags each class takes, the encoding read in both directions, the trailers,
the varint, the shortest encodings, the words of the spec's examples and the reserved tags. -/

namespace Sys2Proof

/-! ### Decode of encode -/

/-- An encoded operation of a table decodes to itself, whatever follows it: one of a class by its tag and trailers, a reserved
tag by having no class. -/
theorem decodeOperation_append_of_encode {F : FVT} (hF : F ∈ tables) {i : Instr} (hw : i.wf = true) (hhas : F.has i = true)
    {head : List Byte} (he : encode i = .operation head) (rest : List Byte) : decodeOperation F (head ++ rest) = .ok i := by
  match hop : i.operands with
  | some (n, len, off) =>
    obtain ⟨hinstr, henc, hclass⟩ := operation_eq hop
    obtain ⟨hcarries, hlen, hoff⟩ := carries_of_wf hop hw
    have hmem : n.row ∈ F.classes := by simpa [hclass F] using hhas
    obtain rfl : n.row.encode len off = head := by simpa [henc] using he
    rw [decodeOperation_encode hF hmem hcarries hlen hoff, hinstr]
  | none =>
    cases i with
    | reservedFvt1 tag =>
      obtain rfl : [tag] = head := by simpa [encode] using he
      exact decodeOperation_reserved (by simpa [FVT.has] using hhas)
    | hdr | maxlen | compress | getulen | decompress => cases he
    | litI | litT1 | litT2 | litT3 | litT4 | copy1 | copy2 | copy4 | copyX => cases hop

/-- An encoded header decodes to itself, whatever follows it. -/
theorem decodeHeader_append_of_encode {i : Instr} (hw : i.wf = true) {head : List Byte} (he : encode i = .header head)
    (rest : List Byte) : decodeHeader (head ++ rest) = .ok i := by
  cases i <;> cases he
  case hdr.refl size value =>
    simp only [Instr.wf, inRange, Bool.and_eq_true, decide_eq_true_eq] at hw
    obtain ⟨⟨⟨h1, h5⟩, hlt⟩, hmax⟩ := hw
    obtain ⟨hshape, hvalue⟩ := encodeVarint_reads h1 hlt
    have hsize := encodeVarint_length size value
    have hread := readVarint_ok rest hshape (by omega) (by omega)
    simp only [decodeHeader, hread, hvalue, hsize]

/-- A command's code decodes to the command. -/
theorem decodeCommand_of_encode {i : Instr} {w : Word} (he : encode i = .command w) : decodeCommand w = .ok i := by
  cases i <;> cases he <;> rfl

/-- Settles O2: the three kinds of code one by one; without following bytes, the bytes that follow are none. -/
theorem decodeOfEncode : Obligations.DecodeOfEncode := by
  unfold Obligations.DecodeOfEncode
  intro F hF i hw hhas
  refine ⟨?_, fun head rest he => decodeOperation_append_of_encode hF hw hhas he rest,
    fun head rest he => decodeHeader_append_of_encode hw he rest⟩
  cases he : encode i with
  | header head => simpa [decode] using decodeHeader_append_of_encode hw he []
  | operation head => simpa [decode] using decodeOperation_append_of_encode hF hw hhas he []
  | command w => exact decodeCommand_of_encode he

/-! ### The tags a class takes -/

theorem bits_low (t : Byte) : bits t 1 0 = t.toNat % 4 := by simp [bits]

theorem bits_high (t : Byte) : bits t 7 2 = t.toNat / 4 := by
  have := t.isLt
  simp only [bits]; omega

/-- A tag is its bits 7:2 and its bits 1:0. -/
theorem tag_eq_iff (t u : Byte) : t = u ↔ bits t 1 0 = bits u 1 0 ∧ bits t 7 2 = bits u 7 2 := by
  rw [bits_low, bits_low, bits_high, bits_high, ← BitVec.toNat_inj]
  omega

/-- The test of the mask `0x03` reads bits 1:0 of the tag. -/
theorem and_low_eq_iff (t p : Byte) : t &&& 3#8 = p ↔ bits t 1 0 = p.toNat := by
  rw [bits_low, ← BitVec.toNat_inj, BitVec.toNat_and]
  exact Eq.congr_left (Nat.and_two_pow_sub_one_eq_mod t.toNat 2)

theorem takes_litI (t : Byte) : ClassName.litI.row.takes t = true ↔ bits t 1 0 = 0 ∧ bits t 7 2 ≤ 59 := by
  rw [TagClass.takes, Bool.and_eq_true, beq_iff_eq]
  exact and_congr (and_low_eq_iff t 0) decide_eq_true_iff

theorem takes_literalTrailerClass (name : ClassName) (p : Byte) (n : Nat) (t : Byte) :
    (literalTrailerClass name p n).takes t = true ↔ bits t 1 0 = bits p 1 0 ∧ bits t 7 2 = bits p 7 2 := by
  have full : t &&& 255#8 = t := BitVec.and_allOnes
  simp [literalTrailerClass, TagClass.takes, full, tag_eq_iff]

theorem takes_copy1 (t : Byte) : ClassName.copy1.row.takes t = true ↔ bits t 1 0 = 1 := by
  simp [ClassName.row, TagClass.takes, and_low_eq_iff]

theorem takes_copy2 (t : Byte) : ClassName.copy2.row.takes t = true ↔ bits t 1 0 = 2 := by
  simp [ClassName.row, TagClass.takes, and_low_eq_iff]

theorem takes_copy4 (t : Byte) : ClassName.copy4.row.takes t = true ↔ bits t 1 0 = 3 := by
  simp [ClassName.row, TagClass.takes, and_low_eq_iff]

theorem takes_copyX (t : Byte) : ClassName.copyX.row.takes t = true ↔ t = 0x03 := by
  have full : t &&& 255#8 = t := BitVec.and_allOnes
  simp [ClassName.row, TagClass.takes, full]

/-- A tag has bits 1:0 of the pattern of every class that takes it. -/
theorem low_of_takes {n : ClassName} {t : Byte} (h : n.row.takes t = true) : bits t 1 0 = bits n.row.pattern 1 0 := by
  cases n with
  | litI => exact ((takes_litI t).1 h).1
  | litT1 | litT2 | litT3 | litT4 => exact ((takes_literalTrailerClass _ _ _ t).1 h).1
  | copy1 => exact (takes_copy1 t).1 h
  | copy2 => exact (takes_copy2 t).1 h
  | copy4 => exact (takes_copy4 t).1 h
  | copyX => rw [(takes_copyX t).1 h]; rfl

/-! ### The classes of the two tables -/

theorem fvt0_mem_tables : fvt0 ∈ tables := by simp [tables]

theorem fvt1_mem_tables : fvt1 ∈ tables := by simp [tables]

theorem row_mem_fvt0 (n : ClassName) : n.row ∈ fvt0.classes ↔ n ≠ .copyX := by cases n <;> decide

theorem row_mem_fvt1 (n : ClassName) : n.row ∈ fvt1.classes ↔ n ≠ .copy4 := by cases n <;> decide

theorem fvt0_classify {n : ClassName} {t : Byte} (hn : n ≠ .copyX) (h : n.row.takes t = true) :
    fvt0.classify t = some n.row := classify_of_takes fvt0_mem_tables ((row_mem_fvt0 n).2 hn) h

theorem fvt1_classify {n : ClassName} {t : Byte} (hn : n ≠ .copy4) (h : n.row.takes t = true) :
    fvt1.classify t = some n.row := classify_of_takes fvt1_mem_tables ((row_mem_fvt1 n).2 hn) h

/-- FVT0 has no reserved tag (R72): bits 1:0 name the kind of class, and for a literal bits 7:2 the class. -/
theorem exists_takes (t : Byte) : ∃ n : ClassName, n ≠ .copyX ∧ n.row.takes t = true := by
  have hlow : bits t 1 0 = 0 ∨ bits t 1 0 = 1 ∨ bits t 1 0 = 2 ∨ bits t 1 0 = 3 := by rw [bits_low]; omega
  have hhigh : bits t 7 2 ≤ 59 ∨ bits t 7 2 = 60 ∨ bits t 7 2 = 61 ∨ bits t 7 2 = 62 ∨ bits t 7 2 = 63 := by
    have := t.isLt
    rw [bits_high]; omega
  rcases hlow with h0 | h1 | h2 | h3
  · rcases hhigh with h | h | h | h | h
    · exact ⟨.litI, nofun, (takes_litI t).2 ⟨h0, h⟩⟩
    · exact ⟨.litT1, nofun, (takes_literalTrailerClass ..).2 ⟨h0, h⟩⟩
    · exact ⟨.litT2, nofun, (takes_literalTrailerClass ..).2 ⟨h0, h⟩⟩
    · exact ⟨.litT3, nofun, (takes_literalTrailerClass ..).2 ⟨h0, h⟩⟩
    · exact ⟨.litT4, nofun, (takes_literalTrailerClass ..).2 ⟨h0, h⟩⟩
  · exact ⟨.copy1, nofun, (takes_copy1 t).2 h1⟩
  · exact ⟨.copy2, nofun, (takes_copy2 t).2 h2⟩
  · exact ⟨.copy4, nofun, (takes_copy4 t).2 h3⟩

/-- The tags that have no class in FVT1 (R76). -/
theorem fvt1_classify_none {t : Byte} (h3 : bits t 1 0 = 3) (ht : t ≠ 0x03) : fvt1.classify t = none := by
  rw [Option.eq_none_iff_forall_not_mem]
  intro c hc
  obtain ⟨hmem, htakes⟩ := classify_mem hc
  obtain ⟨n, rfl⟩ := mem_classes fvt1_mem_tables hmem
  have hlow := low_of_takes htakes
  rw [h3] at hlow
  cases n with
  | copy4 => exact (row_mem_fvt1 _).1 hmem rfl
  | copyX => exact ht ((takes_copyX t).1 htakes)
  | litI | litT1 | litT2 | litT3 | litT4 | copy1 | copy2 => exact absurd hlow (by decide)

/-- A tag without a class in one of the tables is a reserved tag of FVT1. -/
theorem reserved_of_classify_none {F : FVT} (hF : F ∈ tables) {t : Byte} (h : F.classify t = none) :
    bits t 1 0 = 3 ∧ t ≠ 0x03 := by
  obtain ⟨n, hn, htakes⟩ := exists_takes t
  simp only [tables, List.mem_cons, List.not_mem_nil, or_false] at hF
  rcases hF with rfl | rfl
  · simp [fvt0_classify hn htakes] at h
  · constructor
    · by_cases h4 : n = .copy4
      · subst h4; exact low_of_takes htakes
      · simp [fvt1_classify h4 htakes] at h
    · intro h3
      simp [fvt1_classify (n := .copyX) nofun ((takes_copyX t).2 h3)] at h

theorem row_wellFormed (n : ClassName) : n.row.WellFormed := by
  cases n <;> simp only [TagClass.WellFormed] <;> decide

/-- Both tables meet R77. -/
theorem tables_wellFormed {F : FVT} (hF : F ∈ tables) : F.WellFormed := by
  obtain ⟨-, hminMatch, hmaxOffset, -, -⟩ := table_constants hF
  refine ⟨?classes, classes_disjoint hF, by omega, by omega, by rw [hmaxOffset]; decide, by simp [hF], ?literals, ?copies⟩
  case classes =>
    intro c hc
    obtain ⟨n, rfl⟩ := mem_classes hF hc
    exact row_wellFormed n
  case literals =>
    intro len h1 hmax
    obtain ⟨n, hchoose, -⟩ := choose_literal_some hF h1 (by simpa [hF] using hmax)
    exact ⟨n.row, choose_mem hchoose⟩
  case copies =>
    intro len off h4 hmax _ hoff
    obtain ⟨n, hchoose, -⟩ := choose_copy_some hF (by omega) hmax (hmaxOffset ▸ hoff)
    exact ⟨n.row, choose_mem hchoose⟩

/-- Settles O4: every class takes the tags R72 names, and a tag has the class that takes it. -/
theorem fvt0Classes : Obligations.Fvt0Classes := by
  unfold Obligations.Fvt0Classes
  refine ⟨tables_wellFormed fvt0_mem_tables, maxLen_literal fvt0_mem_tables, ?copy2, fun t => ⟨?litI, ?litT1, ?litT2, ?litT3,
    ?litT4, fun h => fvt0_classify nofun ((takes_copy1 t).2 h), fun h => fvt0_classify nofun ((takes_copy2 t).2 h),
    fun h => fvt0_classify nofun ((takes_copy4 t).2 h), ?total⟩⟩
  case copy2 =>
    intro len off h4 h64 _ hoff
    rw [represents_copy2, decide_eq_true_eq]
    exact ⟨by omega, h64, hoff⟩
  case litI => exact fun h0 h => fvt0_classify nofun ((takes_litI t).2 ⟨h0, h⟩)
  case litT1 => exact fun h0 h => fvt0_classify (n := .litT1) nofun ((takes_literalTrailerClass ..).2 ⟨h0, h⟩)
  case litT2 => exact fun h0 h => fvt0_classify (n := .litT2) nofun ((takes_literalTrailerClass ..).2 ⟨h0, h⟩)
  case litT3 => exact fun h0 h => fvt0_classify (n := .litT3) nofun ((takes_literalTrailerClass ..).2 ⟨h0, h⟩)
  case litT4 => exact fun h0 h => fvt0_classify (n := .litT4) nofun ((takes_literalTrailerClass ..).2 ⟨h0, h⟩)
  case total =>
    obtain ⟨n, hn, htakes⟩ := exists_takes t
    simp [fvt0_classify hn htakes]

/-- Settles O5: a tag with other bits 1:0 than 11 is taken by a class that both tables have. -/
theorem fvt1Classes : Obligations.Fvt1Classes := by
  unfold Obligations.Fvt1Classes
  refine ⟨tables_wellFormed fvt1_mem_tables, rfl, rfl, rfl, rfl, fun t => ⟨?shared, ?copyX, fvt1_classify_none⟩⟩
  case shared =>
    intro h3
    obtain ⟨n, hX, htakes⟩ := exists_takes t
    have h4 : n ≠ .copy4 := by rintro rfl; exact h3 (low_of_takes htakes)
    rw [fvt1_classify h4 htakes, fvt0_classify hX htakes]
  case copyX => exact fun _ ht => fvt1_classify nofun ((takes_copyX t).2 ht)

/-! ### Encode of decode -/

/-- What an operation that decodes is: well-formed, of the table, and encoded as the bytes at the head. -/
theorem encode_of_decodeOperation {F : FVT} (hF : F ∈ tables) {bs : List Byte} {i : Instr} (h : decodeOperation F bs = .ok i) :
    i.wf = true ∧ F.has i = true ∧ ∃ head, encode i = .operation head ∧ head <+: bs := by
  obtain ⟨t, rest, rfl, ⟨hnone, rfl⟩ | ⟨n, hclassify, htrailers, len, off, hlen, hoff, hlenMax, hoffMax, rfl⟩⟩ :=
    decodeOperation_inv hF h
  · obtain ⟨h3, ht⟩ := reserved_of_classify_none hF hnone
    rw [bits_low] at h3
    have ht' : t.toNat ≠ 3 := fun e => ht (BitVec.eq_of_toNat_eq e)
    exact ⟨by simp [Instr.wf, h3, ht'], by simp [FVT.has, hnone], [t], rfl, rest, rfl⟩
  · obtain ⟨hmem, htakes⟩ := classify_mem hclassify
    have assembled := encode_assembled n htakes (ls := rest.take n.row.nL) (us := (rest.drop n.row.nL).take n.row.nO)
      (by rw [List.length_take]; omega) (by rw [List.length_take, List.length_drop]; omega) (hlen ▸ hlenMax) (hoff ▸ hoffMax)
    rw [← hlen, ← hoff, ← List.take_add] at assembled
    obtain ⟨hbytes, hcarries⟩ := assembled
    have ⟨_, _, hliteral, _⟩ := hcarries
    obtain ⟨-, hencode, hclass⟩ := operation_eq (operands_toInstr n hliteral)
    refine ⟨wf_toInstr hcarries hlenMax, by simpa [hclass F] using hmem, _, hencode, ?_⟩
    rw [hbytes]
    exact List.cons_prefix_cons.2 ⟨rfl, List.take_prefix _ rest⟩

/-- A varint has at least one byte. -/
theorem VarintShape.length_pos {vs : List Byte} (h : VarintShape vs) : 1 ≤ vs.length := by
  cases vs with
  | nil => exact absurd h id
  | cons b vs => simp

/-- What a header that decodes is: well-formed, and encoded as the bytes at the head. -/
theorem encode_of_decodeHeader {bs : List Byte} {i : Instr} (h : decodeHeader bs = .ok i) :
    i.wf = true ∧ ∃ head, encode i = .header head ∧ head <+: bs := by
  match hread : readVarint bs with
  | .error e => simp [decodeHeader, hread] at h
  | .ok (value, size) =>
    obtain rfl : Instr.hdr size value = i := by simpa [decodeHeader, hread] using h
    obtain ⟨vs, rest, rfl, hshape, h5, rfl, rfl, hmax⟩ := readVarint_inv hread
    refine ⟨?_, vs, by rw [encode, encodeVarint_varintValue hshape], List.prefix_append vs rest⟩
    simp [Instr.wf, hshape.length_pos, h5, varintValue_lt vs, hmax]

/-- A command that decodes is encoded as the value it came from. -/
theorem encode_of_decodeCommand {w : Word} {i : Instr} (h : decodeCommand w = .ok i) : encode i = .command w := by
  simp only [decodeCommand] at h
  split at h <;> cases h <;> exact congrArg Code.command (BitVec.eq_of_toNat_eq (Eq.symm ‹_›))

/-- Settles O3: the three kinds of code one by one. -/
theorem encodeOfDecode : Obligations.EncodeOfDecode := by
  unfold Obligations.EncodeOfDecode
  exact fun F hF i => ⟨fun _ h => encode_of_decodeOperation hF h, fun _ h => encode_of_decodeHeader h,
    fun _ h => encode_of_decodeCommand h⟩

/-! ### The trailers -/

/-- Settles O6, from what the trailers of a field can do at weight 1 (Laws/Decode). -/
theorem trailersAssemble : Obligations.TrailersAssemble := by
  unfold Obligations.TrailersAssemble
  intro n acc bs hacc
  have eq := assemble_eq n 0 acc bs hacc
  rw [Nat.pow_zero, Nat.one_mul] at eq
  refine ⟨?overflow, ?missing, assemble_ok⟩
  case overflow => exact fun h => by rw [eq, if_pos h]
  case missing => exact fun h hn => by rw [eq, if_neg (by omega), if_pos hn]

/-! ### When a varint is legal -/

theorem varintShape_cons_cons (b c : Byte) (vs : List Byte) :
    VarintShape (b :: c :: vs) ↔ bits b 7 7 = 1 ∧ VarintShape (c :: vs) := Iff.rfl

/-- The shape of a varint, byte by byte. -/
theorem varintShape_iff (vs : List Byte) : VarintShape vs ↔ 1 ≤ vs.length ∧
    (∀ k (h : k < vs.length), k + 1 < vs.length → bits vs[k] 7 7 = 1) ∧
    ∀ k (h : k < vs.length), k + 1 = vs.length → bits vs[k] 7 7 = 0 := by
  induction vs with
  | nil => simp [VarintShape]
  | cons b vs ih =>
    cases vs with
    | nil => simp [VarintShape]
    | cons c vs =>
      rw [varintShape_cons_cons, ih]
      constructor
      · rintro ⟨hb, -, hbefore, hlast⟩
        refine ⟨by simp, fun k h hk => ?_, fun k h hk => ?_⟩
        · cases k with
          | zero => exact hb
          | succ k => exact hbefore k (by simpa using h) (by simpa using hk)
        · cases k with
          | zero => simp at hk
          | succ k => exact hlast k (by simpa using h) (by simpa using hk)
      · rintro ⟨-, hbefore, hlast⟩
        exact ⟨hbefore 0 (by simp) (by simp), by simp, fun k h hk => hbefore (k + 1) (by simpa using h) (by simpa using hk),
          fun k h hk => hlast (k + 1) (by simpa using h) (by simpa using hk)⟩

/-- The shape of the varint in the first `size` bytes, byte by byte. -/
theorem varintShape_take_iff {bs : List Byte} {size : Nat} (hlen : size ≤ bs.length) : VarintShape (bs.take size) ↔ 1 ≤ size ∧
    (∀ k (h : k < bs.length), k + 1 < size → bits bs[k] 7 7 = 1) ∧
    ∀ k (h : k < bs.length), k + 1 = size → bits bs[k] 7 7 = 0 := by
  simp only [varintShape_iff, List.length_take, Nat.min_eq_left hlen, List.getElem_take]
  exact ⟨fun ⟨hpos, hbefore, hlast⟩ => ⟨hpos, fun k _ hk => hbefore k (by omega) hk, fun k _ hk => hlast k (by omega) hk⟩,
    fun ⟨hpos, hbefore, hlast⟩ => ⟨hpos, fun k _ hk => hbefore k (by omega) hk, fun k _ hk => hlast k (by omega) hk⟩⟩

/-- A varint reads exactly when its bytes are at the head, at most five of them, with a value in range. -/
theorem readVarint_ok_iff (bs : List Byte) (value size : Nat) : readVarint bs = .ok (value, size) ↔
    size ≤ 5 ∧ size ≤ bs.length ∧ VarintShape (bs.take size) ∧ value = varintValue (bs.take size) ∧ value ≤ intMax := by
  constructor
  · intro h
    obtain ⟨vs, rest, rfl, hshape, h5, rfl, hvalue, hmax⟩ := readVarint_inv h
    rw [List.take_left]
    exact ⟨h5, by simp, hshape, hvalue, hmax⟩
  · rintro ⟨h5, hlen, hshape, rfl, hmax⟩
    have hread := readVarint_ok (bs.drop size) hshape (by rw [List.length_take]; omega) hmax
    rwa [List.take_append_drop, List.length_take, Nat.min_eq_left hlen] at hread

/-- The value of at most four bytes is in range. -/
theorem varintValue_le_intMax {bs : List Byte} (h : bs.length ≤ 4) : varintValue bs ≤ intMax :=
  calc varintValue bs ≤ 2 ^ (7 * bs.length) := (varintValue_lt bs).le
    _ ≤ 2 ^ 28 := Nat.pow_le_pow_right (by decide) (by omega)
    _ ≤ intMax := by decide

/-- A varint is truncated exactly when the bytes end before one without the continuation bit within five. -/
theorem readVarint_truncated_iff (bs : List Byte) : readVarint bs = .error .truncatedHeader ↔
    bs.length < 5 ∧ ∀ b ∈ bs, bits b 7 7 = 1 := by
  rw [readVarint, readVarintFrom_truncated (Nat.zero_le _), Nat.mul_zero, Nat.pow_zero, Nat.one_mul, Nat.zero_add]
  exact ⟨fun ⟨h5, hall, _⟩ => ⟨h5, hall⟩, fun ⟨h5, hall⟩ => ⟨h5, hall, varintValue_le_intMax (by omega)⟩⟩

/-- Either all bytes have the continuation bit, or the bytes begin with a varint. -/
theorem continue_or_varintShape (bs : List Byte) : (∀ b ∈ bs, bits b 7 7 = 1) ∨
    ∃ size, size ≤ bs.length ∧ VarintShape (bs.take size) := by
  induction bs with
  | nil => exact .inl nofun
  | cons b bs ih =>
    have hb : bits b 7 7 = 0 ∨ bits b 7 7 = 1 := by
      have := b.isLt
      rw [bits_continuation]; omega
    rcases hb with hb | hb
    · exact .inr ⟨1, by simp, hb⟩
    · rcases ih with hall | ⟨size, hlen, hshape⟩
      · exact .inl (List.forall_mem_cons.2 ⟨hb, hall⟩)
      · refine .inr ⟨size + 1, by simpa using hlen, ?_⟩
        rw [List.take_succ_cons]
        generalize bs.take size = vs at hshape ⊢
        cases vs with
        | nil => exact absurd hshape id
        | cons c vs => exact ⟨hb, hshape⟩

/-- What bytes with an invalid varint are: five, of which the first four continue, and the fifth continues too or brings the value
out of range. -/
theorem readVarint_invalid_inv {bs : List Byte} (h : readVarint bs = .error .invalidLength) :
    5 ≤ bs.length ∧ (∀ k (h : k < bs.length), k < 4 → bits bs[k] 7 7 = 1) ∧
      ∀ h : 4 < bs.length, bits bs[4] 7 7 = 1 ∨ intMax < varintValue (bs.take 5) := by
  rcases continue_or_varintShape bs with hall | ⟨size, hlen, hshape⟩
  · have h5 : 5 ≤ bs.length := by
      by_contra hlt
      simp [(readVarint_truncated_iff bs).2 ⟨by omega, hall⟩] at h
    exact ⟨h5, fun k hk _ => hall _ (List.getElem_mem hk), fun hk => .inl (hall _ (List.getElem_mem hk))⟩
  · have out (h5 : size ≤ 5) : intMax < varintValue (bs.take size) := by
      by_contra hle
      simp [(readVarint_ok_iff bs _ size).2 ⟨h5, hlen, hshape, rfl, by omega⟩] at h
    have h5 : 5 ≤ size := by
      by_contra hlt
      have inRange := varintValue_le_intMax (bs := bs.take size) (by rw [List.length_take]; omega)
      exact absurd (out (by omega)) (by omega)
    obtain ⟨-, hbefore, -⟩ := (varintShape_take_iff hlen).1 hshape
    refine ⟨by omega, fun k hk h4 => hbefore k hk (by omega), fun hk => ?_⟩
    rcases h5.eq_or_lt with rfl | hlt
    · exact .inr (out le_rfl)
    · exact .inl (hbefore 4 hk (by omega))

/-- Bytes of which the first four continue, and the fifth continues or brings the value out of range, hold an invalid varint. -/
theorem readVarint_invalid {bs : List Byte} (h5 : 5 ≤ bs.length) (hfour : ∀ k (h : k < bs.length), k < 4 → bits bs[k] 7 7 = 1)
    (hfifth : bits bs[4] 7 7 = 1 ∨ intMax < varintValue (bs.take 5)) : readVarint bs = .error .invalidLength := by
  match hread : readVarint bs with
  | .ok (value, size) =>
    obtain ⟨hsize, hlen, hshape, rfl, hmax⟩ := (readVarint_ok_iff bs value size).1 hread
    obtain ⟨hpos, -, hlast⟩ := (varintShape_take_iff hlen).1 hshape
    have hstop := hlast (size - 1) (by omega) (by omega)
    rcases hsize.eq_or_lt with rfl | hlt
    · rcases hfifth with hcontinues | hover
      · simp [hcontinues] at hstop
      · omega
    · rw [hfour (size - 1) (by omega) (by omega)] at hstop
      omega
  | .error e =>
    rcases readVarintFrom_error hread with rfl | rfl
    · have short := ((readVarint_truncated_iff bs).1 hread).1
      omega
    · rfl

/-- Settles O7: the three conditions, a varint's shape spelled out byte by byte. -/
theorem varintLegality : Obligations.VarintLegality := by
  unfold Obligations.VarintLegality
  refine fun bs => ⟨fun value size => ?legal, ?truncated, ?invalid⟩
  case legal =>
    rw [readVarint_ok_iff]
    constructor
    · rintro ⟨h5, hlen, hshape, hvalue, hmax⟩
      obtain ⟨hpos, hbefore, hlast⟩ := (varintShape_take_iff hlen).1 hshape
      exact ⟨hpos, h5, hlen, hbefore, hlast, hvalue, hmax⟩
    · rintro ⟨hpos, h5, hlen, hbefore, hlast, hvalue, hmax⟩
      exact ⟨h5, hlen, (varintShape_take_iff hlen).2 ⟨hpos, hbefore, hlast⟩, hvalue, hmax⟩
  case truncated => rw [readVarint_truncated_iff, List.forall_mem_iff_getElem]
  case invalid =>
    exact ⟨readVarint_invalid_inv, fun ⟨h5, hfour, hfifth⟩ => readVarint_invalid h5 hfour (hfifth (by omega))⟩

/-! ### The shortest varint -/

/-- A number that needs more than `l - 1` bytes and fits in `l` bytes, at most five, has the length of R64. -/
theorem shortestLength_of_range {n l : Nat} (hlow : l = 1 ∨ 2 ^ (7 * (l - 1)) ≤ n) (hhigh : n < 2 ^ (7 * l)) (h1 : 1 ≤ l)
    (h5 : l ≤ 5) : l = if n < 2 ^ 7 then 1 else if n < 2 ^ 14 then 2 else if n < 2 ^ 21 then 3 else if n < 2 ^ 28 then 4 else 5 := by
  interval_cases l <;> simp only [Nat.reduceMul, Nat.reduceSub, Nat.reducePow] at hlow hhigh ⊢ <;> split_ifs <;> omega

/-- Settles O8: the shortest varint of `n` with `l` bytes has `n` in `[2^(7(l-1)), 2^(7l))`, and `m` bytes carry less
than `2^(7m)`. -/
theorem shortestVarint_shortest : Obligations.ShortestVarint := by
  unfold Obligations.ShortestVarint
  intro n hn
  obtain ⟨hshape, hvalue, h5, hlow⟩ := shortestVarint_reads hn
  have hhigh := varintValue_lt (shortestVarint n)
  rw [hvalue] at hhigh
  refine ⟨readVarint_shortestVarint hn, shortestLength_of_range hlow hhigh hshape.length_pos h5, fun bs size hread => ?_⟩
  obtain ⟨vs, -, -, hvs, -, rfl, rfl, -⟩ := readVarint_inv hread
  rcases hlow with hone | hlow
  · rw [hone]; exact hvs.length_pos
  · have := (Nat.pow_lt_pow_iff_right (by decide)).1 (hlow.trans_lt (varintValue_lt vs))
    omega

/-! ### The shortest class -/

/-- Both tables take `COPY1` for a copy it represents. -/
theorem choose_copy1 {F : FVT} (hF : F ∈ tables) {len off : Nat} (h : ClassName.copy1.row.represents len off = true) :
    F.choose .copy len off = some ClassName.copy1.row := by
  simp only [tables, List.mem_cons, List.not_mem_nil, or_false] at hF
  rcases hF with rfl | rfl
  · rw [choose_copy_fvt0, if_pos h]
  · rw [choose_copy_fvt1, if_pos h]

/-- Both tables take `COPY2` for a copy it represents and `COPY1` does not. -/
theorem choose_copy2 {F : FVT} (hF : F ∈ tables) {len off : Nat} (h1 : ¬ ClassName.copy1.row.represents len off = true)
    (h2 : ClassName.copy2.row.represents len off = true) : F.choose .copy len off = some ClassName.copy2.row := by
  simp only [tables, List.mem_cons, List.not_mem_nil, or_false] at hF
  rcases hF with rfl | rfl
  · rw [choose_copy_fvt0, if_neg h1, if_pos h2]
  · rw [choose_copy_fvt1, if_neg h1, if_pos h2]

/-- Settles O9: the choice is the first class, in the order of size, that represents the operands (Laws/Tables). -/
theorem shortestClass : Obligations.ShortestClass := by
  unfold Obligations.ShortestClass
  refine ⟨?literal, ?copy, ?copyFvt0, ?copyFvt1⟩
  case literal =>
    intro F hF L h1 hmax
    rw [choose_literal_eq hF, represents_litI, represents_litT1, represents_litT2, represents_litT3, represents_litT4]
    simp only [decide_eq_true_eq, h1, hmax, true_and, and_true, if_true]
    split_ifs <;> rfl
  case copy =>
    intro F hF len off h1
    constructor
    · intro h4 h11 hoff
      exact choose_copy1 hF (by rw [represents_copy1, decide_eq_true_eq]; exact ⟨h4, h11, hoff⟩)
    · intro hnot h64 hoff
      exact choose_copy2 hF (by rwa [represents_copy1, decide_eq_true_eq])
        (by rw [represents_copy2, decide_eq_true_eq]; exact ⟨h1, h64, hoff⟩)
  case copyFvt0 =>
    intro len off h1 hmax
    rw [choose_copy_fvt0, represents_copy1, represents_copy2, represents_copy4]
    simp only [decide_eq_true_eq]
    exact ⟨fun h64 hoff => by rw [if_neg (by omega), if_neg (by omega), if_pos ⟨h1, h64, hmax⟩],
      fun h64 => by rw [if_neg (by omega), if_neg (by omega), if_neg (by omega)]⟩
  case copyFvt1 =>
    intro len off h64 hmax hoff
    rw [choose_copy_fvt1, represents_copy1, represents_copy2, represents_copyX]
    simp only [decide_eq_true_eq]
    rw [if_neg (by omega), if_neg (by omega), if_pos ⟨by omega, hmax, hoff⟩]

/-! ### The words of the spec's examples -/

/-- Settles O1: the decoder runs on the nineteen words. -/
theorem exampleWordsDecode : Obligations.ExampleWordsDecode := by
  unfold Obligations.ExampleWordsDecode
  decide

end Sys2Proof

namespace Sys2Proof.Machine

/-- Settles O37: a reserved tag's meaning is the fetch of the tag and then the fault, and neither asks anything of the state. -/
theorem reservedTagFaults : Obligations.ReservedTagFaults := by
  unfold Obligations.ReservedTagFaults
  exact fun _ _ _ => rfl

end Sys2Proof.Machine
end

section
/-! The statements of the family "40_buffer_view": the primitives on single bytes, the literal copy and the forward copy. -/

namespace Sys2Proof.Machine

/-! ### The failures of the primitives -/

/-- `BV.read` fails outside the view, the limit included (R92). -/
theorem State.bvRead_outOfRange {s : State} {V : View} {a : Nat} (h : a < V.start ∨ V.limit ≤ a) :
    s.bvRead V a = .error (.fault (.viewFailure .offsetOutOfRange)) := by
  simp only [State.bvRead]
  rw [if_pos h]
  rfl

/-- `BV.write` fails outside the view, the limit included (R93). -/
theorem State.bvWrite_outOfRange {s : State} {V : View} {a : Nat} {b : Byte} (h : a < V.start ∨ V.limit ≤ a) :
    s.bvWrite V a b = .error (.fault (.viewFailure .offsetOutOfRange)) := by
  simp only [State.bvWrite]
  rw [if_pos h]
  rfl

/-- A range `VAL.check` accepts passes the check inside a primitive. -/
theorem checkRange_of_none {a n : Nat} {V : View} (h : valCheck ((a : Int) - V.start) n ((V.limit : Int) - V.start) = none) :
    checkRange a n V = .ok () := by
  simp only [checkRange, h]

/-- A range `VAL.check` refuses fails the check inside a primitive, with its reason. -/
theorem checkRange_of_some {a n : Nat} {V : View} {r : Reason}
    (h : valCheck ((a : Int) - V.start) n ((V.limit : Int) - V.start) = some r) :
    checkRange a n V = .error (.fault (.viewFailure r)) := by
  simp only [checkRange, h, stopFault]

/-- `BV.copyForward` fails when its source begins before the view or not before its destination (R96). -/
theorem State.bvCopyForward_outOfRange {s : State} {V : View} {d a n : Nat} (h : a < V.start ∨ d ≤ a) :
    s.bvCopyForward V d a n = .error (.fault (.viewFailure .offsetOutOfRange)) := by
  simp only [State.bvCopyForward]
  rw [if_pos h]
  rfl

/-- With its source in order, `BV.copyForward` fails as the check of its destination range does (R96). -/
theorem State.bvCopyForward_of_some {s : State} {V : View} {d a n : Nat} {r : Reason} (h1 : V.start ≤ a) (h2 : a < d)
    (h : valCheck ((d : Int) - V.start) n ((V.limit : Int) - V.start) = some r) :
    s.bvCopyForward V d a n = .error (.fault (.viewFailure r)) := by
  simp only [State.bvCopyForward, checkRange_of_some h]
  rw [if_neg (by omega)]
  rfl

/-! ### The statements -/

/-- Settles O11: outside the view both fail, inside it the write is one `Memory.write`. -/
theorem singleByteAccess : Obligations.SingleByteAccess := by
  unfold Obligations.SingleByteAccess
  intro s V a b hw hmapped
  refine ⟨?outside, ?inside⟩
  case outside => exact fun hout => ⟨State.bvRead_outOfRange hout, State.bvWrite_outOfRange hout⟩
  case inside =>
    intro hstart hlimit
    exact ⟨State.bvRead_ok hstart hlimit hmapped, s.mem.write (s.phys V.space a) b, State.bvWrite_ok hstart hlimit hmapped,
      Memory.wf_write hw _ _, Memory.read_write_same hw _ _, fun p hp => Memory.read_write_other hw _ hp⟩

/-- Settles O12: the two checks in order, then the moved bytes, of which none is read after it was written. -/
theorem copyLiteral : Obligations.CopyLiteral := by
  unfold Obligations.CopyLiteral
  intro s Vd Vs d a n hw hsourceMax hdestMax hsourceMapped hdestMapped
  refine ⟨?sourceRefused, ?destRefused, ?moved⟩
  case sourceRefused =>
    intro r hsource
    simp only [State.bvCopyLiteral, checkRange_of_some hsource, Flow.error_bind]
  case destRefused =>
    intro r hsource hdest
    simp only [State.bvCopyLiteral, checkRange_of_none hsource, checkRange_of_some hdest, Flow.ok_bind, Flow.error_bind]
  case moved =>
    intro hsourceStart hsourceEnd hdestStart hdestEnd hapart
    have hsame := State.moveBytes_same Vd.space Vs.space n d a s
    refine ⟨(State.moveBytes Vd.space Vs.space n d a s).mem, ?_, hsame.wf hw, fun i hi => State.moveBytes_apart hw hapart hi,
      fun p hp => State.moveBytes_outside hw hp⟩
    rw [State.bvCopyLiteral_ok hsourceStart hsourceEnd hsourceMax hdestStart hdestEnd hdestMax hsourceMapped hdestMapped,
      ← hsame.eq]

/-- Settles O13: the failures in order, then the moved bytes, each equal to the byte `d - a` before it. -/
theorem copyForward : Obligations.CopyForward := by
  unfold Obligations.CopyForward
  intro s V d a n hw hmax hmapped
  refine ⟨?sourceRefused, ?destRefused, ?moved⟩
  case sourceRefused => exact State.bvCopyForward_outOfRange
  case destRefused => exact fun r => State.bvCopyForward_of_some
  case moved =>
    intro hstart hbefore hend
    have hsame := State.moveBytes_same V.space V.space n d a s
    refine ⟨(State.moveBytes V.space V.space n d a s).mem, ?_, hsame.wf hw, fun i hi => State.moveBytes_repeat hw hbefore hi,
      fun p hp => State.moveBytes_outside hw hp⟩
    rw [State.bvCopyForward_ok hstart hbefore hend hmax hmapped, ← hsame.eq]

end Sys2Proof.Machine
end

section
/-! The statement of the family "41_validator": the outcomes of `VAL.check`. -/

namespace Sys2Proof.Machine

/-- Settles O10: `Ok` by `valCheck_ok_iff`, the reasons along the tests of `VAL.check`. Each branch gives one outcome: that
outcome's condition is the branch's test with the tests before it passed, and no other outcome's condition holds there. -/
theorem validatorCheck : Obligations.ValidatorCheck := by
  unfold Obligations.ValidatorCheck
  intro o l e _ _ he
  refine ⟨valCheck_ok_iff he, ?_⟩
  simp only [valCheck]
  split_ifs with hneg hoff hlen hsum hext
  all_goals
    simp only [Option.some.injEq, reduceCtorEq, true_iff, false_iff]
    omega

end Sys2Proof.Machine
end

section
/-! The statements of the family "42_decompressor": the header, the completion test, the operations, and a whole DECOMPRESS as the
function `Decode`. -/

namespace Sys2Proof.Machine

/-! ### The header (R112) -/

/-- Settles O32: the header's length is written, and then its three ends are those of `acceptLength`. -/
theorem headerResult : Obligations.HeaderResult := by
  unfold Obligations.HeaderResult
  intro s size value hwf
  have hvalue : value ≤ intMax := by
    simp only [Instr.wf, Bool.and_eq_true, decide_eq_true_eq] at hwf
    exact hwf.2
  have hexec : exec (.hdr size value) s =
      finish (acceptLength { s with wr := { s.wr with ulen := value, ip := s.wr.ip + size } }) := by
    rw [← readHeader_eq hvalue]; rfl
  rw [hexec]
  refine ⟨fun hc => ?getulen, fun hc hfits => ?accepted, fun hc hover => ?exceeds⟩
  case getulen => rw [acceptLength_getulen (by exact hc)]; rfl
  case accepted => rw [acceptLength_ok (by exact hc) hfits]; rfl
  case exceeds => rw [acceptLength_exceeds (by exact hc) hover]; rfl

/-- Settles O33: the header is decoded from the view's bytes (`stepReadHeader_eq`), and what follows is `acceptLength`, for a table
without a header too. -/
theorem readHeaderRule : Obligations.ReadHeaderRule := by
  unfold Obligations.ReadHeaderRule
  intro s hformat hip hmapped accepted
  obtain ⟨F, hF⟩ := table_some (s := s) hformat
  have hstep := stepReadHeader_eq hF (table_constants (table_mem hF)).1 hip hmapped
  have haccept (t : State) (ulen : Nat) : acceptLength { t with wr := { t.wr with ulen := ulen } } = accepted t ulen := rfl
  rw [hstep, decodeHeader]
  refine ⟨fun hv => ?truncated, fun hv => ?invalid, fun value size hv => ?legal, fun _ => haccept s _⟩
  case truncated => rw [hv]; rfl
  case invalid => rw [hv]; rfl
  case legal =>
    obtain ⟨-, -, -, -, -, -, -, hvalue⟩ := readVarint_inv hv
    rw [hv, ← haccept]
    simp only [exec, execHdr, readHeader_eq hvalue]

/-! ### `READ_TAG` (R113 to R117) -/

/-- Settles O34, by the three ends of `READ_TAG` (Laws/Engine). -/
theorem completionTest : Obligations.CompletionTest := by
  unfold Obligations.CompletionTest
  exact fun _ => ⟨stepReadTag_done, stepReadTag_trailing, stepReadTag_truncated⟩

/-- Settles O38: with a tag at `ip`, the only rejections of an operation are those of its trailers (`decodeOperation_error`). -/
theorem undecodableOperationFaults : Obligations.UndecodableOperationFaults := by
  unfold Obligations.UndecodableOperationFaults
  intro s F hF hlow hhigh hop hmapped t
  have hstep := stepReadTag_eq hF hop hhigh.ne hlow hmapped
  refine ⟨fun hdec => ?truncated, fun hdec => ?overflow, fun e hdec => ?only⟩
  case truncated => rw [hstep, hdec]; rfl
  case overflow => rw [hstep, hdec]; rfl
  case only =>
    rw [State.bytesFrom_cons (V := s.vin) hhigh] at hdec
    exact (decodeOperation_error (table_mem hF) hdec).symm

/-! ### The operations (R118, R119, R122 to R130) -/

/-- A literal operation reads its tag and emits its literal. -/
theorem exec_literal {i : Instr} {c : ClassName} {len : Nat} (h : i.operands = some (c, len, 0)) (hk : c.row.kind = .literal)
    (hl : len ≤ intMax) (s : State) : exec i s = finish (emitLiteral (s.decoded c len 0)) := by
  rw [exec_operation h, hk, ← literalOp_eq hl]

/-- A copy operation reads its tag and emits its copy. -/
theorem exec_copy {i : Instr} {c : ClassName} {len off : Nat} (h : i.operands = some (c, len, off)) (hk : c.row.kind = .copy)
    (hl : len ≤ intMax) (ho : off ≤ intMax) (s : State) : exec i s = finish (emitCopy (s.decoded c len off)) := by
  rw [exec_operation h, hk, ← copyOp_eq hl ho]

/-- The operands of a well-formed operation are in range. -/
theorem operands_le {i : Instr} {c : ClassName} {len off : Nat} (h : i.operands = some (c, len, off)) (hw : i.wf = true) :
    1 ≤ len ∧ len ≤ intMax ∧ off ≤ intMax := carries_le (carries_of_wf h hw).1

/-- The tag of a class with inline fields, here `LIT_I` (R71); the copies' follow. -/
theorem tagOf_litI (len : Nat) : tagOf ClassName.litI.row len 0 = BitVec.ofNat 8 (4 * (len - 1)) :=
  congrArg (BitVec.ofNat 8) (show 0 + (len - 1) * 4 + 0 = 4 * (len - 1) by omega)

theorem tagOf_copy1 (len off : Nat) :
    tagOf ClassName.copy1.row len off = BitVec.ofNat 8 (1 + 4 * (len - 4) + 32 * (off / 256)) :=
  congrArg (BitVec.ofNat 8) (show 1 + (len - 4) * 4 + off / 256 * 32 = 1 + 4 * (len - 4) + 32 * (off / 256) by omega)

theorem tagOf_copy2 (len off : Nat) : tagOf ClassName.copy2.row len off = BitVec.ofNat 8 (2 + 4 * (len - 1)) :=
  congrArg (BitVec.ofNat 8) (show 2 + (len - 1) * 4 + 0 = 2 + 4 * (len - 1) by omega)

theorem tagOf_copy4 (len off : Nat) : tagOf ClassName.copy4.row len off = BitVec.ofNat 8 (3 + 4 * (len - 1)) :=
  congrArg (BitVec.ofNat 8) (show 3 + (len - 1) * 4 + 0 = 3 + 4 * (len - 1) by omega)

/-- Settles O35: the operation's row gives its index, tag and head (R71); then `EMIT_LITERAL` makes the two tests or moves the
bytes, of which none is read after it was written. -/
theorem literalOperations : Obligations.LiteralOperations := by
  unfold Obligations.LiteralOperations
  intro i cls tag head len s hrow hwf w u
  obtain ⟨c, hop, hk, hcls, htag, hhead⟩ : ∃ c : ClassName, i.operands = some (c, len, 0) ∧ c.row.kind = .literal ∧
      ClassName.index c = cls ∧ tagOf c.row len 0 = tag ∧ c.row.size = head := by
    simp only [List.mem_cons, List.not_mem_nil, or_false, Prod.mk.injEq] at hrow
    rcases hrow with ⟨rfl, rfl, rfl, rfl⟩ | ⟨rfl, rfl, rfl, rfl⟩ | ⟨rfl, rfl, rfl, rfl⟩ | ⟨rfl, rfl, rfl, rfl⟩ |
      ⟨rfl, rfl, rfl, rfl⟩
    · exact ⟨.litI, rfl, rfl, rfl, tagOf_litI len, rfl⟩
    · exact ⟨.litT1, rfl, rfl, rfl, rfl, rfl⟩
    · exact ⟨.litT2, rfl, rfl, rfl, rfl, rfl⟩
    · exact ⟨.litT3, rfl, rfl, rfl, rfl, rfl⟩
    · exact ⟨.litT4, rfl, rfl, rfl, rfl, rfl⟩
  obtain ⟨hlen, hmax, -⟩ := operands_le hop hwf
  have hu : s.decoded c len 0 = u := by simp only [State.decoded, hk, hcls, htag, hhead, u, w]
  rw [exec_literal hop hk hmax, hu]
  refine ⟨fun hin => ?exceeds, fun hin hout => ?overrun, fun hin hout hw hip hiend hos holim hmi hmo hdisjoint => ?moved⟩
  case exceeds => rw [emitLiteral_input (s := u) hin]; rfl
  case overrun => rw [emitLiteral_output (s := u) hin hout]; rfl
  case moved =>
    have hsame := State.moveBytes_same .output .input len s.wr.op (s.wr.ip + head) u
    have hapart (i j : Nat) (hi : i < len) (hj : j < len) : s.phys .input (s.wr.ip + head + i) ≠ s.phys .output (s.wr.op + j) :=
      hdisjoint _ _ (by omega) (by omega) (by omega) (by omega)
    rw [emitLiteral_ok (s := u) (hip.trans (Nat.le_add_right _ _)) (show s.wr.ip + head + len ≤ s.wr.iend by omega) hos
      (show s.wr.op + len ≤ s.wr.olimit by omega) hiend holim hmi hmo]
    exact ⟨_, rfl, hsame.wf hw, fun k hk => State.moveBytes_apart (s := u) hw hapart hk,
      fun p hp => State.moveBytes_outside (s := u) hw hp⟩

/-- Settles O36: the operation's row gives its index, tag and head (R71, R76); then `EMIT_COPY` makes the three tests or moves the
bytes, each equal to the byte `off` before it. -/
theorem copyOperations : Obligations.CopyOperations := by
  unfold Obligations.CopyOperations
  intro i cls tag head len off s hrow hwf w u
  obtain ⟨c, hop, hk, hcls, htag, hhead⟩ : ∃ c : ClassName, i.operands = some (c, len, off) ∧ c.row.kind = .copy ∧
      ClassName.index c = cls ∧ tagOf c.row len off = tag ∧ c.row.size = head := by
    simp only [List.mem_cons, List.not_mem_nil, or_false, Prod.mk.injEq] at hrow
    rcases hrow with ⟨rfl, rfl, rfl, rfl⟩ | ⟨rfl, rfl, rfl, rfl⟩ | ⟨rfl, rfl, rfl, rfl⟩ | ⟨rfl, rfl, rfl, rfl⟩
    · exact ⟨.copy1, rfl, rfl, rfl, tagOf_copy1 len off, rfl⟩
    · exact ⟨.copy2, rfl, rfl, rfl, tagOf_copy2 len off, rfl⟩
    · exact ⟨.copy4, rfl, rfl, rfl, tagOf_copy4 len off, rfl⟩
    · exact ⟨.copyX, rfl, rfl, rfl, rfl, rfl⟩
  obtain ⟨hlen, hmax, hoffMax⟩ := operands_le hop hwf
  have hu : s.decoded c len off = u := by simp only [State.decoded, hk, hcls, htag, hhead, u, w]
  rw [exec_copy hop hk hmax hoffMax, hu]
  refine ⟨fun hzero => ?zero, fun hoff hfar => ?beyond, fun hoff hnear hout => ?overrun,
    fun hoff hnear hout hw holim hm => ?moved⟩
  case zero => rw [emitCopy_zero (s := u) hzero]; rfl
  case beyond => rw [emitCopy_beyond (s := u) hoff hfar]; rfl
  case overrun => rw [emitCopy_output (s := u) hoff hnear hout]; rfl
  case moved =>
    have hsame := State.moveBytes_same .output .output len s.wr.op (s.wr.op - off) u
    rw [emitCopy_ok (s := u) hoff hnear (show s.wr.op + len ≤ s.wr.olimit by omega) holim hm]
    refine ⟨_, rfl, hsame.wf hw, fun k hk => ?repeats, fun p hp => State.moveBytes_outside (s := u) hw hp⟩
    case repeats =>
      have hmoved := State.moveBytes_repeat (x := .output) (d := s.wr.op) (a := s.wr.op - off) (s := u) hw (by omega) hk
      rwa [Nat.sub_sub_self (by omega)] at hmoved

/-! ### The end of a DECOMPRESS -/

/-- `t` is the end of a DECOMPRESS from `s` on, of declared length `ulen`, of which the function `Decode` says `r`: `DONE` with its
bytes in the output view (R120), or `FAULT` with its error latched (R121, R196). -/
inductive State.EndsAs (s : State) (ulen : Nat) (t : State) : BlockResult → Prop
  | ok {out : List Byte} (declared : out.length = ulen) (st : t.st = .done)
      (cr : t.cr = { s.cr with result := BitVec.ofNat 32 out.length }) (ip : t.wr.ip = s.wr.iend)
      (bytes : ∀ k (h : k < out.length), t.mem.read (s.phys .output (s.wr.ostart + k)) = out[k])
      (outside : ∀ a, (a < s.phys .output s.wr.ostart ∨ s.phys .output (s.wr.ostart + out.length) ≤ a) →
        t.mem.read a = s.mem.read a) : s.EndsAs ulen t (.ok out)
  | fault {e : Error} (st : t.st = .fault) (cr : t.cr = (s.latchError e).cr)
      (outside : ∀ a, (a < s.phys .output s.wr.ostart ∨ s.phys .output s.wr.oend ≤ a) → t.mem.read a = s.mem.read a) :
      s.EndsAs ulen t (.fault e)

/-- What ends a DECOMPRESS from `u` on ends it from an earlier state `s` on, when from `s` to `u` only bytes of the declared output
and registers other than the views' have changed. -/
theorem State.EndsAs.of_later {s u t : State} {ulen : Nat} {r : BlockResult} (h : u.EndsAs ulen t r) (ec : u.cr = s.cr)
    (ei : u.wr.iend = s.wr.iend) (eo : u.wr.ostart = s.wr.ostart) (ee : u.wr.oend = s.wr.oend)
    (hcap : s.wr.ostart + ulen ≤ s.wr.oend)
    (hmem : ∀ a, (a < s.phys .output s.wr.ostart ∨ s.phys .output (s.wr.ostart + ulen) ≤ a) → u.mem.read a = s.mem.read a) :
    s.EndsAs ulen t r := by
  have ep := State.phys_congr ec .output
  cases h with
  | ok declared st cr ip bytes outside =>
    simp only [ec, ei, eo, ep] at cr ip bytes outside
    exact .ok declared st cr ip bytes fun a ha => (outside a ha).trans (hmem a (declared ▸ ha))
  | fault st cr outside =>
    simp only [State.latchError_cr, ec, eo, ee, ep] at cr outside
    refine .fault st cr fun a ha => (outside a ha).trans (hmem a (ha.imp_right fun hhi => ?_))
    exact ((State.phys_le s .output).2 hcap).trans hhi

/-- In DECOMPRESS a fault leaves the whole output view unspecified (R121). -/
theorem State.unspecifiedOnFault_decompress {s : State} (hst : s.st = .readHeader ∨ s.st = .readTag) (hc : s.cr.cmd = 4) :
    s.unspecifiedOnFault = some (s.wr.ostart, s.wr.oend) := by
  rcases hst with hst | hst <;> simp only [State.unspecifiedOnFault, hst, if_pos hc]

/-- An error that a transition of DECOMPRESS raises ends the command so. -/
theorem Within.endsAs_fault {s u : State} (w : Within s u) (hu : s.unspecifiedOnFault = some (s.wr.ostart, s.wr.oend)) (ulen : Nat)
    (e : Error) : s.EndsAs ulen (u.takeError e) (.fault e) := by
  refine .fault (State.takeError_st u e) ?cr fun a ha => (Confined.takeError w e).read_next ?unwritten
  case cr => rw [State.takeError_cr, State.latchError_cr, State.latchError_cr, w.cr]
  case unwritten => rw [State.mayWrite_some hu]; omega

/-- With the declared length written and no input left, the end of the command (R113) is that of `Decode`. -/
theorem State.Decoding.endsAs_complete {s : State} (hd : s.Decoding) (hop : s.wr.op = s.wr.olimit) (hip : s.wr.ip = s.wr.iend) :
    s.EndsAs s.wr.ulen (s.complete s.wr.ulen) (.ok s.written) := by
  have hlen : s.written.length = s.wr.ulen := by
    have := hd.declared
    rw [State.written_length]; omega
  refine .ok hlen rfl ?cr hip (fun k hk => (State.written_getElem s k hk).symm) fun _ _ => rfl
  case cr => rw [hlen]; rfl

/-! ### `READ_TAG` is a pass of `Decode` -/

/-- An operation writes no byte of the input view (R56, R58). -/
theorem RanFrom.block {s t : State} {pos : Nat} {out : List Byte} (r : RanFrom s t pos out) (h : s.Inv) (hst : s.st = .readTag) :
    t.block = s.block := by
  have hd := (State.phaseOk_readTag hst).1 h.phase
  have confined : Confined s (.next t) := r.confined h.phase (by rw [hst]; rfl) hd
  apply List.ext_getElem
  · rw [State.block_length, State.block_length, r.iend, r.istart]
  · intro k hk hk'
    rw [State.block_length] at hk'
    rw [State.block_getElem, State.block_getElem, r.istart, State.inByte, State.phys_congr r.cr]
    exact confined.read_next (h.phase.input_not_mayWrite (State.busy_of_st hst) (by rw [hst]; decide) (by omega) (by omega))

/-- `READ_TAG` ends the command as one pass of `Decode` says, or runs the operation with which that pass goes on. -/
theorem stepReadTag_decodeFrom {s : State} {F : FVT} (h : s.Inv) (hst : s.st = .readTag)
    (hF : tables[s.cr.format.toNat]? = some F) (fuel : Nat) :
    (∃ t, stepReadTag s = .next t ∧ s.EndsAs s.wr.ulen t
      (decodeFrom F s.block s.wr.ulen (fuel + 1) (s.wr.ip - s.wr.istart) s.written)) ∨
    ∃ t pos out, stepReadTag s = .next t ∧ RanFrom s t pos out ∧ s.wr.ip < t.wr.ip ∧
      decodeFrom F s.block s.wr.ulen (fuel + 1) (s.wr.ip - s.wr.istart) s.written =
        decodeFrom F s.block s.wr.ulen fuel pos out := by
  have hd := (State.phaseOk_readTag hst).1 h.phase
  have hu := State.unspecifiedOnFault_decompress (.inr hst) hd.command
  have full : s.written.length = s.wr.ulen ↔ s.wr.op = s.wr.olimit := by
    have h1 := hd.declared
    have h2 := hd.opLow
    rw [State.written_length]; omega
  have consumed : s.wr.ip - s.wr.istart = s.block.length ↔ s.wr.ip = s.wr.iend := by
    have h1 := hd.ipLow
    have h2 := hd.ipHigh
    rw [State.block_length]; omega
  rw [decodeFrom_succ (table_mem hF)]
  simp only [full, consumed]
  by_cases hop : s.wr.op = s.wr.olimit <;> by_cases hip : s.wr.ip = s.wr.iend
  · rw [if_pos hop, if_pos hip]
    exact .inl ⟨_, stepReadTag_done hop hip, hd.endsAs_complete hop hip⟩
  · rw [if_pos hop, if_neg hip]
    exact .inl ⟨_, stepReadTag_trailing hop hip, (Within.refl s).endsAs_fault hu _ _⟩
  · rw [if_neg hop, if_pos hip]
    exact .inl ⟨_, stepReadTag_truncated hop hip, (Within.refl s).endsAs_fault hu _ _⟩
  · rw [if_neg hop, if_neg hip]
    have run := stepReadTag_run hst hd h.memory hF hop hip
    have raised {e : Error} (hs : ∃ u, RaisedFrom s u ∧ stepReadTag s = .next (u.takeError e)) :
        ∃ t, stepReadTag s = .next t ∧ s.EndsAs s.wr.ulen t (.fault e) := by
      obtain ⟨u, hu', hs⟩ := hs
      exact ⟨_, hs, hu'.within.endsAs_fault hu _ _⟩
    cases hdec : decodeOperation F (s.block.drop (s.wr.ip - s.wr.istart)) with
    | error e => simp only [hdec] at run ⊢; exact .inl (raised run)
    | ok i =>
      rcases hops : i.operands with _ | ⟨c, len, off⟩
      · simp only [hdec, hops] at run ⊢; exact .inl (raised run)
      · simp only [hdec, hops] at run ⊢
        cases hrun : runOperation s.block s.wr.ulen (s.wr.ip - s.wr.istart) (s.wr.ip - s.wr.istart + c.row.size) s.written
            c.row.kind len off with
        | error e => simp only [hrun] at run ⊢; exact .inl (raised run)
        | ok p =>
          simp only [hrun] at run ⊢
          obtain ⟨t, hs, ran, hmoves⟩ := run
          exact .inr ⟨t, p.1, p.2, hs, ran, hmoves, rfl⟩

/-! ### The run -/

theorem run_succ {s t : State} (h : step s = .next t) (n : Nat) :
    Host.Core.run Sys2Proof.core (n + 1) s = Host.Core.run Sys2Proof.core n t := by
  have h' : Sys2Proof.core.step s = .next t := h
  simp only [Host.Core.run, h']

theorem run_one {s t : State} (h : step s = .next t) : Host.Core.run Sys2Proof.core 1 s = .next t := run_succ h 0

/-- From `READ_TAG` on the engine ends as the passes of `Decode` do, and within the bound of R131: each operation consumes input
and writes output. -/
theorem run_decodeFrom {F : FVT} (fuel : Nat) {s : State} (h : s.Inv) (hst : s.st = .readTag) (hturns : s.turns = [])
    (hF : tables[s.cr.format.toNat]? = some F) (hfuel : s.wr.iend - s.wr.ip < fuel) :
    ∃ n t, n ≤ min (s.wr.iend - s.wr.ip) (s.wr.olimit - s.wr.op) + 1 ∧ Host.Core.run Sys2Proof.core n s = .next t ∧
      s.EndsAs s.wr.ulen t (decodeFrom F s.block s.wr.ulen fuel (s.wr.ip - s.wr.istart) s.written) := by
  induction fuel generalizing s with
  | zero => omega
  | succ fuel ih =>
    have hstep : step s = stepReadTag s := by rw [step_idle_turns hturns, engineStep_readTag hst]
    rcases stepReadTag_decodeFrom h hst hF fuel with ⟨t, hs, hend⟩ | ⟨u, pos, out, hs, ran, hip, hpass⟩
    · exact ⟨1, t, by omega, run_one (hstep.trans hs), hend⟩
    · have hd := (State.phaseOk_readTag hst).1 h.phase
      have hu : u.Inv := ran.inv h hd (by rw [hst]; decide) (by rw [hst]; decide)
      have hiend := ran.iend
      have holimit := ran.olimit
      have hipHigh := ran.ipHigh
      have hop := ran.opMoves
      have hopHigh := ran.opHigh
      obtain ⟨n, t, hn, hrun, hend⟩ := ih hu ran.st (ran.turns.trans hturns) (by rw [ran.cr]; exact hF) (by omega)
      refine ⟨n + 1, t, by omega, (run_succ (hstep.trans hs) n).trans hrun, ?_⟩
      have hpos : u.wr.ip - u.wr.istart = pos := by rw [ran.ip, ran.istart]; omega
      rw [ran.block h hst, ran.ulen, hpos, ran.written] at hend
      rw [hpass]
      refine hend.of_later ran.cr ran.iend ran.ostart ran.oend (hd.declared ▸ hd.capacity) fun a ha => ran.outside a ?_
      rw [hd.declared]
      exact ha.imp_left fun hlo => hlo.trans_le ((State.phys_le s .output).2 hd.opLow)

/-- Settles O55: the run of `run_decodeFrom`, which ends in `DONE` or `FAULT` whatever `Decode` says. -/
theorem decompressTerminates : Obligations.DecompressTerminates := by
  unfold Obligations.DecompressTerminates
  intro s h hst hturns
  obtain ⟨F, hF⟩ := table_some ((State.phaseOk_readTag hst).1 h.phase).table
  obtain ⟨n, t, hn, hrun, hend⟩ := run_decodeFrom _ h hst hturns hF (Nat.lt_succ_self _)
  refine ⟨n, t, hn, hrun, ?_⟩
  generalize decodeFrom F s.block s.wr.ulen _ _ s.written = r at hend
  cases hend with
  | ok _ st => exact .inl st
  | fault st => exact .inr st

/-- The state in which DECOMPRESS has accepted a header of `size` bytes that declares `ulen` (R112). -/
abbrev State.headerAccepted (s : State) (ulen size : Nat) : State :=
  { s with st := .readTag, wr := { s.wr with ulen := ulen, ip := s.wr.ip + size, olimit := s.wr.ostart + ulen } }

/-- From `READ_HEADER` on a DECOMPRESS ends as `Decode` says of its block (R180). -/
theorem run_decodeBlock {s : State} {F : FVT} (h : s.Inv) (hst : s.st = .readHeader) (hc : s.cr.cmd = 4) (hturns : s.turns = [])
    (hF : tables[s.cr.format.toNat]? = some F) (oob : Nat) :
    ∃ n t ulen, Host.Core.run Sys2Proof.core n s = .next t ∧
      s.EndsAs ulen t (decodeBlock F s.block (s.wr.oend - s.wr.ostart) oob) := by
  have hr := (State.phaseOk_readHeader hst).1 h.phase
  have hu := State.unspecifiedOnFault_decompress (.inl hst) hc
  have hcmd : s.cr.cmd ≠ 3 := by rw [hc]; decide
  have hstep : step s = stepReadHeader s := by rw [step_idle_turns hturns, engineStep_readHeader hst]
  have run := stepReadHeader_run hr hF
  rw [decodeBlock, if_pos (table_constants (table_mem hF)).1]
  cases hv : readVarint s.block with
  | error e =>
    simp only [hv] at run ⊢
    exact ⟨1, _, 0, run_one (hstep.trans run), (Within.refl s).endsAs_fault hu 0 _⟩
  | ok p =>
    obtain ⟨ulen, size⟩ := p
    simp only [hv] at run ⊢
    obtain ⟨-, -, -, run⟩ := run
    rw [if_neg hcmd] at run
    rw [decodeBody]
    by_cases hcap : ulen > s.wr.oend - s.wr.ostart
    · rw [if_pos hcap] at run ⊢
      refine ⟨1, _, 0, run_one (hstep.trans run), Within.endsAs_fault ?_ hu 0 _⟩
      exact ⟨rfl, rfl, fun _ _ => rfl⟩
    · rw [if_neg hcap] at run ⊢
      obtain ⟨-, hout, hop, -⟩ := hr.command.resolve_left hcmd
      have hord := hout.ordered
      have hstart := hr.atStart
      have hfuel : (s.headerAccepted ulen size).wr.iend - (s.headerAccepted ulen size).wr.ip < s.block.length + 1 := by
        rw [State.block_length]; simp only; omega
      obtain ⟨n, t, -, hrun, hend⟩ := run_decodeFrom _ (stepReadHeader_inv h hst run) rfl hturns hF hfuel
      have hpos : (s.headerAccepted ulen size).wr.ip - (s.headerAccepted ulen size).wr.istart = size := by simp only; omega
      have hwritten : (s.headerAccepted ulen size).written = [] := by
        rw [← List.length_eq_zero_iff, State.written_length]; simp only; omega
      rw [hpos, hwritten] at hend
      exact ⟨n + 1, t, ulen, (run_succ (hstep.trans run) n).trans hrun,
        hend.of_later rfl rfl rfl rfl (by simp only; omega) fun _ _ => rfl⟩

/-- Settles O57: the run of `run_decodeBlock`, the two ways a DECOMPRESS ends read off `State.EndsAs`. -/
theorem decompressIsDecode : Obligations.DecompressIsDecode := by
  unfold Obligations.DecompressIsDecode
  intro s F h hst hc hturns hF
  obtain ⟨n, t, ulen, hrun, hend⟩ := run_decodeBlock h hst hc hturns hF (sext s.cr.ulen).toNat
  refine ⟨n, t, hrun, ?_⟩
  rw [State.block] at hend
  generalize decodeBlock F _ _ _ = r at hend ⊢
  cases hend with
  | ok _ st cr ip bytes outside => exact ⟨st, cr, ip, bytes, outside⟩
  | fault st cr outside => exact ⟨st, cr, outside⟩

end Sys2Proof.Machine
end

section
/-! The statements of the family "43_compressor": the bound, the table and the hash, the emissions, the four transitions of CMP, and
a whole COMPRESS as the function `Encode`, which never passes its bound and which `Decode` undoes. -/

namespace Sys2Proof.Machine

/-! ### The bound and the OPEN parameters (R141, R145, R146) -/

/-- Settles O26: the bound is its formula, which grows by at least one with each byte. -/
theorem boundFormula : Obligations.BoundFormula := by
  unfold Obligations.BoundFormula
  refine ⟨fun _ => rfl, fun m n hlt => ?monotone, fun _ => mcl_le, rfl, by decide, by decide, by decide, by decide, by decide,
    by decide, by decide, by decide⟩
  case monotone =>
    simp only [mcl]
    omega

/-- From `2^j` on, at most `k` doublings lead to the first power of two that is at least `n`, where one of them is (R145). -/
theorem tableSizeFrom_spec (k j n : Nat) : ∃ m, j ≤ m ∧ m ≤ j + k ∧ tableSizeFrom k (2 ^ j) n = 2 ^ m ∧
    (n ≤ 2 ^ (j + k) → n ≤ 2 ^ m) ∧ (j < m → 2 ^ m / 2 < n) := by
  induction k generalizing j with
  | zero => exact ⟨j, Nat.le_refl j, Nat.le_refl j, rfl, id, fun h => absurd h (Nat.lt_irrefl j)⟩
  | succ k ih =>
    simp only [tableSizeFrom]
    split
    case isTrue hle => exact ⟨j, Nat.le_refl j, by omega, rfl, fun _ => hle, fun h => absurd h (Nat.lt_irrefl j)⟩
    case isFalse hgt =>
      obtain ⟨m, hlow, hhigh, heq, hreach, hleast⟩ := ih (j + 1)
      rw [← Nat.pow_succ']
      refine ⟨m, by omega, by omega, heq, fun h => hreach (by rwa [show j + 1 + k = j + (k + 1) by omega]), fun _ => ?_⟩
      rcases hlow.eq_or_lt with rfl | hlt
      · rw [Nat.pow_succ]; omega
      · exact hleast hlt

/-- Settles O48: the table's size is found by six doublings of 256, and a hash is an index of any table (`hash_lt`). -/
theorem tableAndHash : Obligations.TableAndHash := by
  unfold Obligations.TableAndHash
  intro n
  obtain ⟨m, hlow, hhigh, heq, hreach, hleast⟩ := tableSizeFrom_spec 6 8 n
  have hsize : tableSize n = 2 ^ m := heq
  rw [hsize]
  refine ⟨⟨m, hlow, hhigh, rfl⟩, hreach, fun h => hleast ?_, fun w => hash_lt w (Nat.two_pow_pos m)⟩
  exact (Nat.pow_lt_pow_iff_right (by decide : 1 < 2)).1 h

/-! ### Emissions (R147, R156 to R158) -/

/-- Settles O47: each emission reserves its bytes first (`reserve_overrun`). -/
theorem emissionOverrun : Obligations.EmissionOverrun := by
  unfold Obligations.EmissionOverrun
  intro s F c len off
  refine ⟨fun _ => reserve_overrun, fun _ => reserve_ok, fun hc hover => ?copy, fun a hc hover => ?literal,
    fun hh hover => ?header⟩
  case copy => simp only [copyEmission, hc, reserve_overrun hover, Flow.error_bind]
  case literal => simp only [literalPiece, hc, reserve_overrun hover, Flow.error_bind]
  case header => simp only [emitHeader, hh, if_true, reserve_overrun hover, Flow.error_bind]

/-! ### The transitions (R143, R144, R148 to R157) -/

/-- A transition that has emitted `bs` and then moved registers has written them at `op` and no other byte. -/
theorem Emitted.wrote {s t : State} {bs : List Byte} (he : Emitted s t bs) :
    (∀ k (h : k < bs.length), t.mem.read (s.phys .output (s.wr.op + k)) = bs[k]) ∧
      ∀ a, (a < s.phys .output s.wr.op ∨ s.phys .output (s.wr.op + bs.length) ≤ a) → t.mem.read a = s.mem.read a :=
  ⟨he.bytes, he.outside⟩

/-- The state in which the scan starts, with a header of `n` bytes written, the memory `m` and a table of `size` absent entries
(R143, R144). -/
abbrev State.scanStart (s : State) (m : Memory) (n size : Nat) : State :=
  { s with
    st := .cScan, mem := m, table := List.replicate size none
    wr := { s.wr with op := s.wr.op + n, ts := size, ip := s.wr.istart, anchor := s.wr.istart } }

/-- `C_HEADER` emits the header and starts the scan with an empty table (R143, R144). -/
theorem cHeader_ok {F : FVT} (hF : F.hasHeader = true) (tsz : Nat → Nat) {s : State} (hw : s.mem.wf) (h1 : s.wr.ostart ≤ s.wr.op)
    (h2 : s.wr.op + (shortestVarint (s.wr.iend - s.wr.istart)).length ≤ s.wr.olimit)
    (hm : s.phys .output s.wr.olimit ≤ 2 ^ Config.paddrBits) :
    ∃ t, Emitted s t (shortestVarint (s.wr.iend - s.wr.istart)) ∧ cHeader F tsz s =
      .ok (s.scanStart t.mem (shortestVarint (s.wr.iend - s.wr.istart)).length (tsz (s.wr.iend - s.wr.istart))) := by
  obtain ⟨t, e, he⟩ := emitHeader_ok hF hw h1 h2 hm
  refine ⟨t, he, ?_⟩
  simp only [cHeader, e, Flow.ok_bind]
  rw [he.eq]

/-- Settles O43: the header is the one emission of `C_HEADER`. -/
theorem compressHeader : Obligations.CompressHeader := by
  unfold Obligations.CompressHeader
  intro s tsz F hF hw hop hfit hmapped hb
  obtain ⟨t, he, e⟩ := cHeader_ok hF tsz hw hop hfit hmapped
  exact ⟨t.mem, e, he.wrote⟩

/-- `C_SCAN` with less than a window left (R148). -/
theorem cScan_tail (F : FVT) (h : List Byte → Nat → Nat) {s : State} (hlast : s.wr.iend - s.wr.ip < 4) :
    cScan F h s = .ok { s with st := .cTail } := if_pos hlast

/-- Settles O44: with a window left, the visit is what the finder answers for the entry of the window's slot (`findMatch_none`,
`findMatch_some`). -/
theorem compressScan : Obligations.CompressScan := by
  unfold Obligations.CompressScan
  intro s h F hF hanchor hip hend hmapped hentries slot table qualifies
  have hstart := hanchor.trans hip
  refine ⟨cScan_tail F h, fun hwin hnone => ?advance, fun hwin pos hpos => ?accept⟩
  case advance =>
    rw [cScan_window hstart hwin hmapped, findMatch_none hnone]
  case accept =>
    obtain ⟨hentry, hnear, hequal⟩ := hpos
    obtain ⟨hlow, hhigh⟩ := table_entry hentries pos hentry
    obtain ⟨p, cand, mlen, e, accepted⟩ := findMatch_some hF hlow hhigh hip (show s.wr.ip + 4 ≤ s.wr.iend by omega) hnear hequal
    refine ⟨p, cand, mlen, ?_, accepted⟩
    rw [cScan_window hstart hwin hmapped, hentry, e]

/-- The state of the scan past a match whose `n` bytes have been emitted, with the memory `m` (R156). -/
abbrev State.pastMatch (s : State) (m : Memory) (n : Nat) : State :=
  { s with
    st := .cScan, mem := m
    wr := { s.wr with op := s.wr.op + n, ip := s.wr.ip + s.wr.mlen, anchor := s.wr.ip + s.wr.mlen } }

theorem Emitted.pastMatch_eq {s t : State} {bs : List Byte} (he : Emitted s t bs) :
    ({ t with st := .cScan, wr := { t.wr with ip := t.wr.ip + t.wr.mlen, anchor := t.wr.ip + t.wr.mlen } } : State) =
      s.pastMatch t.mem bs.length := by
  rw [he.eq]

/-- Settles O45, from what `C_EMIT` does on the bytes of the views (`cEmit_ok`). -/
theorem compressEmit : Obligations.CompressEmit := by
  unfold Obligations.CompressEmit
  intro s F hF hw hc hm bytes
  obtain ⟨fits, overruns⟩ := cEmit_ok hF hw hc hm
  refine ⟨fun hfit => ?written, fun hover => ?overrun⟩
  case written =>
    obtain ⟨t, he, e⟩ := fits hfit
    exact ⟨t.mem, e.trans (congrArg Except.ok he.pastMatch_eq), he.wrote⟩
  case overrun =>
    obtain ⟨t, _, e, -⟩ := overruns hover
    exact ⟨t, e⟩

/-- The state in which the command has ended with its last `n` bytes emitted and the memory `m` (R157). -/
abbrev State.compressed (s : State) (m : Memory) (n : Nat) : State :=
  { s with
    st := .done, mem := m, wr := { s.wr with op := s.wr.op + n }
    cr := { s.cr with result := BitVec.ofNat 32 (s.wr.op + n - s.wr.ostart) } }

theorem Emitted.compressed_eq {s t : State} {bs : List Byte} (he : Emitted s t bs) :
    t.complete (t.wr.op - t.wr.ostart) = s.compressed t.mem bs.length := by
  rw [he.eq]; rfl

/-- Settles O46, from what `C_TAIL` does on the bytes of the views (`cTail_ok`). -/
theorem compressTail : Obligations.CompressTail := by
  unfold Obligations.CompressTail
  intro s F hF hw hc hscan bytes
  obtain ⟨fits, overruns⟩ := cTail_ok hF hw hc hscan.anchorLow
  refine ⟨fun hfit => ?written, fun hover => ?overrun⟩
  case written =>
    obtain ⟨t, he, e⟩ := fits hfit
    exact ⟨t.mem, e.trans (congrArg Except.ok he.compressed_eq), he.wrote⟩
  case overrun =>
    obtain ⟨t, _, e, -⟩ := overruns hover
    exact ⟨t, e⟩

/-! ### The block as a sequence of emissions (R148 to R160) -/

/-- The bytes of an accepted match of the block `b`: the pending literal run from `anchor` on, then the copy (R156). -/
def matchBytes (F : FVT) (b : List Byte) (anchor p cand mlen : Nat) : List Byte :=
  literalRunBytes F b p (p - anchor) anchor ++ copyBytes F mlen (p - cand)

/-- The bytes of the last literal run of the block `b`, pending from `anchor` on (R157). -/
def tailBytes (F : FVT) (b : List Byte) (anchor : Nat) : List Byte :=
  literalRunBytes F b b.length (b.length - anchor) anchor

/-- An accepted match in the block `b`: `mlen` bytes at `p` that stand at `cand` too (R151 to R154). -/
structure BlockMatch (F : FVT) (b : List Byte) (anchor p cand mlen : Nat) : Prop where
  anchored : anchor ≤ p
  before : cand < p
  near : p - cand ≤ 65535
  window : 4 ≤ mlen
  longest : mlen ≤ F.maxLen .copy
  inside : p + mlen ≤ b.length
  equal : ∀ k, k < mlen → b.getD (cand + k) 0 = b.getD (p + k) 0

/-- What the scan of the block `b` can emit from `anchor` on, whatever the hash table finds: matches, then the last literal run. -/
inductive Encodes (F : FVT) (b : List Byte) : Nat → List Byte → Prop
  | tail {anchor : Nat} (inside : anchor ≤ b.length) : Encodes F b anchor (tailBytes F b anchor)
  | emit {anchor p cand mlen : Nat} {rest : List Byte} (found : BlockMatch F b anchor p cand mlen)
      (more : Encodes F b (p + mlen) rest) : Encodes F b anchor (matchBytes F b anchor p cand mlen ++ rest)

/-- A scan that goes on from `ip` with room for all its positions emits such a sequence, for every `HASH` and every table that holds
positions before `ip` alone. -/
theorem encodeFrom_encodes {F : FVT} (hF : F ∈ tables) (h : List Byte → Nat → Nat) (ts : Nat) (b : List Byte) (fuel : Nat)
    {T : List (Option Nat)} {anchor ip : Nat} (hT : ∀ q, some q ∈ T → 0 ≤ q ∧ q < ip) (ha : anchor ≤ ip) (hip : ip ≤ b.length)
    (hfuel : b.length - ip < fuel) : Encodes F b anchor (encodeFrom F h ts b fuel T anchor ip) := by
  induction fuel generalizing T anchor ip with
  | zero => omega
  | succ fuel ih =>
    simp only [encodeFrom, Config.window]
    split
    case isTrue hlast => exact .tail (ha.trans hip)
    case isFalse hwin =>
      generalize h (windowAt (fun a => b.getD a 0) ip) ts = slot
      rcases findMatch_cases hF (fun a => b.getD a 0) (table_entry (slot := slot) hT) ha (show ip + 4 ≤ b.length by omega) with
        e | ⟨p, cand, mlen, e, hanchor, -, -, hcand, hnear, hlen, hmax, hcover, hinside, hequal⟩ <;>
        simp only [e]
      · exact ih (table_set_below hT (Nat.zero_le ip) (Nat.lt_succ_self ip)) (by omega) (by omega) (by omega)
      · rw [(table_constants hF).2.2.1] at hnear
        exact .emit ⟨hanchor, hcand, hnear, hlen, hmax, hinside, hequal⟩
          (ih (table_set_below hT (Nat.zero_le ip) (by omega)) (Nat.le_refl _) hinside (by omega))

/-- The block of `Encode` under a table of this hardware: the header, then what the scan emits from the start on (R165). -/
theorem encodeBlock_eq {F : FVT} (hF : F ∈ tables) (h : List Byte → Nat → Nat) (tsz : Nat → Nat) (b : List Byte) :
    ∃ body, Encodes F b 0 body ∧ encodeBlock F h tsz b = shortestVarint b.length ++ body := by
  have empty (q : Nat) (hq : some q ∈ List.replicate (tsz b.length) none) : 0 ≤ q ∧ q < 0 :=
    absurd (List.eq_of_mem_replicate hq) nofun
  refine ⟨_, encodeFrom_encodes hF h (tsz b.length) b (b.length + 1) empty (Nat.le_refl 0) (Nat.zero_le _) (Nat.lt_succ_self _), ?_⟩
  simp only [encodeBlock, (table_constants hF).1, if_true]

/-- A pending literal run: nothing, or one literal of the whole run (R158). -/
theorem literalRunBytes_cases {F : FVT} (hF : F ∈ tables) {b : List Byte} (hb : b.length ≤ intMax) {a e : Nat} (hae : a ≤ e)
    (he : e ≤ b.length) : (a = e ∧ literalRunBytes F b e (e - a) a = []) ∨
    ∃ n : ClassName, n.row ∈ F.classes ∧ n.row.kind = .literal ∧ n.carries (e - a) 0 ∧ n.row.size ≤ 5 ∧
      (e - a ≤ 60 → n.row.size = 1) ∧ 1 ≤ e - a ∧
      literalRunBytes F b e (e - a) a = n.row.encode (e - a) 0 ++ (b.drop a).take (e - a) := by
  rw [literalRunBytes_eq hF hae (by omega)]
  rcases hae.eq_or_lt with rfl | hlt
  · exact .inl ⟨rfl, if_neg (Nat.lt_irrefl a)⟩
  · obtain ⟨n, hchoose, hmem, hkind, hcarries, h5, h1⟩ := literal_size hF (L := e - a) (by omega) (by omega)
    refine .inr ⟨n, hmem, hkind, hcarries, h5, h1, by omega, ?_⟩
    rw [if_pos hlt, hchoose]

/-- The copy of an accepted match is one operation (R160). -/
theorem copyBytes_cases {F : FVT} (hF : F ∈ tables) {b : List Byte} {anchor p cand mlen : Nat}
    (m : BlockMatch F b anchor p cand mlen) : ∃ n : ClassName, n.row ∈ F.classes ∧ n.row.kind = .copy ∧
      n.carries mlen (p - cand) ∧ n.row.size ≤ 7 ∧ (mlen ≤ 64 → n.row.size ≤ 3) ∧
      copyBytes F mlen (p - cand) = n.row.encode mlen (p - cand) := by
  obtain ⟨n, hchoose, hmem, hkind, hcarries, h7, h3⟩ := copy_size hF m.window m.longest m.near
  exact ⟨n, hmem, hkind, hcarries, h7, h3, by rw [copyBytes, hchoose]⟩

/-! ### The bound (R142) -/

/-- A literal run of `L` bytes takes at most 5 more, and only one more where it is short. -/
theorem literalRunBytes_length_le {F : FVT} (hF : F ∈ tables) {b : List Byte} (hb : b.length ≤ intMax) {a e : Nat} (hae : a ≤ e)
    (he : e ≤ b.length) : (literalRunBytes F b e (e - a) a).length ≤ e - a + 5 ∧
      (e - a ≤ 60 → (literalRunBytes F b e (e - a) a).length ≤ e - a + 1) := by
  rcases literalRunBytes_cases hF hb hae he with ⟨-, hnil⟩ | ⟨n, -, -, -, h5, h1, -, hrun⟩
  · simp [hnil]
  · have hlen : (literalRunBytes F b e (e - a) a).length = n.row.size + (e - a) := by
      rw [hrun, List.length_append, encode_length, List.length_take, List.length_drop]; omega
    rw [hlen]
    exact ⟨by omega, fun h => by rw [h1 h]; omega⟩

/-- Each match pays for itself but for a sixth of the bytes it covers with its pending run, so a scan from `anchor` on emits at most
seven sixths of the bytes left, and the head of the last literal. -/
theorem Encodes.length_le {F : FVT} (hF : F ∈ tables) {b : List Byte} (hb : b.length ≤ intMax) {anchor : Nat} {bs : List Byte}
    (h : Encodes F b anchor bs) : 6 * bs.length ≤ 7 * (b.length - anchor) + 30 := by
  induction h with
  | @tail anchor inside =>
    have hrun := (literalRunBytes_length_le hF hb inside (Nat.le_refl _)).1
    rw [tailBytes]
    omega
  | @emit anchor p cand mlen rest found more ih =>
    have hanchor := found.anchored
    have hinside := found.inside
    have hwindow := found.window
    obtain ⟨hlong, hshort⟩ := literalRunBytes_length_le hF hb hanchor (show p ≤ b.length by omega)
    obtain ⟨n, -, -, -, h7, h3, hcopy⟩ := copyBytes_cases hF found
    rw [matchBytes, List.length_append, List.length_append, hcopy, encode_length]
    by_cases hL : p - anchor ≤ 60 <;> by_cases hm : mlen ≤ 64
    · have := hshort hL; have := h3 hm; omega
    · have := hshort hL; omega
    · have := h3 hm; omega
    · omega

/-- Settles O59: at most 5 bytes of header, and of `Encodes.length_le` 5 bytes beside the input and its sixth; the bound has room
for 32. -/
theorem encodeWithinBound : Obligations.EncodeWithinBound := by
  unfold Obligations.EncodeWithinBound
  intro F hF h tsz b hb
  obtain ⟨body, hbody, e⟩ := encodeBlock_eq hF h tsz b
  have hheader := shortestVarint_length_le b.length
  have hlen := hbody.length_le hF (hb.trans (by decide))
  rw [e, List.length_append, mcl]
  omega

/-! ### Decode of the block (R163) -/

/-- A pending literal run decodes to the bytes it covers, by at most one pass. -/
theorem decodeFrom_literalRun {F : FVT} (hF : F ∈ tables) {b : List Byte} (hb : b.length ≤ intMax) {a e : Nat} (hae : a ≤ e)
    (he : e ≤ b.length) {B rest : List Byte} {pos fuel : Nat} (hB : B.drop pos = literalRunBytes F b e (e - a) a ++ rest)
    (hfuel : B.length - pos < fuel) : ∃ fuel', B.length - (pos + (literalRunBytes F b e (e - a) a).length) < fuel' ∧
      decodeFrom F B b.length fuel pos (b.take a) =
        decodeFrom F B b.length fuel' (pos + (literalRunBytes F b e (e - a) a).length) (b.take e) := by
  rcases literalRunBytes_cases hF hb hae he with ⟨rfl, hnil⟩ | ⟨n, hmem, hkind, hcarries, -, -, hpos, hrun⟩
  · rw [hnil, List.length_nil]
    exact ⟨fuel, hfuel, rfl⟩
  · rw [hrun] at hB ⊢
    have hlit : ((b.drop a).take (e - a)).length = e - a := by rw [List.length_take, List.length_drop]; omega
    have hlen := congrArg List.length hB
    simp only [List.length_drop, List.length_append, hlit] at hlen ⊢
    obtain ⟨fuel, rfl⟩ : ∃ k, fuel = k + 1 := ⟨fuel - 1, by omega⟩
    refine ⟨fuel, by omega, ?_⟩
    rw [decodeFrom_literal hF hmem hkind hcarries hlit hB (by rw [List.length_take]; omega), ← List.take_add,
      show a + (e - a) = e by omega, List.length_append, hlit]

/-- The forward copy of a match continues the block (R52). -/
theorem BlockMatch.copyOut_take {F : FVT} {b : List Byte} {anchor p cand mlen : Nat} (m : BlockMatch F b anchor p cand mlen) :
    copyOut (p - cand) mlen (b.take p) = b.take (p + mlen) := by
  have hbefore := m.before
  have hinside := m.inside
  have hp : (b.take p).length = p := by rw [List.length_take]; omega
  have hl : (b.take (p + mlen)).length = p + mlen := by rw [List.length_take]; omega
  symm
  apply eq_copyOut (by omega) mlen (b.take p) (b.take (p + mlen)) <;> rw [hp]
  · omega
  · exact hl
  · rw [List.take_take, Nat.min_eq_left (by omega)]
  · intro i hi hil
    rw [hl] at hil
    have hequal := m.equal (i - p) (by omega)
    rw [show p + (i - p) = i by omega, show cand + (i - p) = i - (p - cand) by omega, List.getD_eq_getElem _ _ (by omega),
      List.getD_eq_getElem _ _ (by omega)] at hequal
    rw [List.getElem?_take_of_lt hil, List.getElem?_take_of_lt (by omega), List.getElem?_eq_getElem (by omega),
      List.getElem?_eq_getElem (by omega), hequal]

/-- Decoding what the scan emits from `anchor` on completes the block. -/
theorem Encodes.decodeFrom_eq {F : FVT} (hF : F ∈ tables) {b : List Byte} (hb : b.length ≤ intMax) {anchor : Nat} {bs : List Byte}
    (h : Encodes F b anchor bs) {B : List Byte} {pos fuel : Nat} (hpos : pos ≤ B.length) (hB : B.drop pos = bs)
    (hfuel : B.length - pos < fuel) : decodeFrom F B b.length fuel pos (b.take anchor) = .ok b := by
  induction h generalizing pos fuel with
  | @tail anchor inside =>
    rw [tailBytes, ← List.append_nil (literalRunBytes _ _ _ _ _)] at hB
    obtain ⟨fuel', hfuel', e⟩ := decodeFrom_literalRun hF hb inside (Nat.le_refl _) hB hfuel
    have hlen := congrArg List.length hB
    rw [List.length_drop, List.append_nil] at hlen
    obtain ⟨fuel', rfl⟩ : ∃ k, fuel' = k + 1 := ⟨fuel' - 1, by omega⟩
    rw [e, List.take_length, decodeFrom_succ hF, if_pos rfl, if_pos (by omega)]
  | @emit anchor p cand mlen rest found more ih =>
    have hbefore := found.before
    have hinside := found.inside
    have hwindow := found.window
    obtain ⟨n, hmem, hkind, hcarries, -, -, hcopy⟩ := copyBytes_cases hF found
    rw [matchBytes, hcopy, List.append_assoc] at hB
    obtain ⟨fuel', hfuel', e⟩ := decodeFrom_literalRun hF hb found.anchored (by omega) hB hfuel
    generalize hrun : literalRunBytes F b p (p - anchor) anchor = run at *
    have hB' : B.drop (pos + run.length) = n.row.encode mlen (p - cand) ++ rest := by
      rw [← List.drop_drop, hB, List.drop_left]
    have hlen := congrArg List.length hB'
    have hsize : 1 ≤ n.row.size := by simp only [TagClass.size]; omega
    rw [List.length_drop, List.length_append, encode_length] at hlen
    obtain ⟨fuel', rfl⟩ : ∃ k, fuel' = k + 1 := ⟨fuel' - 1, by omega⟩
    have hp : (b.take p).length = p := by rw [List.length_take]; omega
    rw [e, decodeFrom_copy hF hmem hkind hcarries hB' (by omega) (by omega) (by omega), found.copyOut_take, encode_length]
    refine ih (by omega) ?_ (by omega)
    rw [← List.drop_drop, hB', List.drop_left' (encode_length _ _ _)]

/-- Settles O60: the header reads back as the length (`readVarint_shortestVarint`), and the passes of `Decode` then complete the
block (`Encodes.decodeFrom_eq`). -/
theorem roundTrip : Obligations.RoundTrip := by
  unfold Obligations.RoundTrip
  intro F hF h tsz b cap oob hb hcap
  have hmax : b.length ≤ intMax := hb.trans (by decide)
  obtain ⟨body, hbody, e⟩ := encodeBlock_eq hF h tsz b
  have hread := readVarint_shortestVarint hmax body
  rw [e]
  refine ⟨?decodes, _, hread⟩
  case decodes =>
    simp only [decodeBlock, (table_constants hF).1, if_true, hread, decodeBody]
    rw [if_neg (by omega)]
    exact hbody.decodeFrom_eq hF hmax (by rw [List.length_append]; omega) List.drop_left (by omega)

/-! ### One visit of `C_SCAN` is one pass of `Encode` (R165) -/

/-- The entries of the machine's table that stand for those of `Encode`'s, whose positions count from the view's start `lo`. -/
def shiftTable (lo : Nat) (T : List (Option Nat)) : List (Option Nat) := T.map (Option.map (lo + ·))

theorem shiftTable_entry (lo : Nat) (T : List (Option Nat)) (slot : Nat) :
    ((shiftTable lo T)[slot]?).getD none = ((T[slot]?).getD none).map (lo + ·) := by
  rw [shiftTable, List.getElem?_map]
  cases T[slot]? <;> rfl

theorem shiftTable_set (lo : Nat) (T : List (Option Nat)) (slot pos : Nat) :
    (shiftTable lo T).set slot (some (lo + pos)) = shiftTable lo (T.set slot (some pos)) := by
  rw [shiftTable, shiftTable, List.map_set]; rfl

theorem shiftTable_replicate (lo n : Nat) : shiftTable lo (List.replicate n none) = List.replicate n none := by
  rw [shiftTable, List.map_replicate]; rfl

/-- The bytes of the input view, counted from its start. -/
def State.blockByte (s : State) (a : Nat) : Byte := s.block.getD a 0

theorem State.inByte_eq_blockByte {s : State} {a : Nat} (h : a < s.wr.iend - s.wr.istart) :
    s.inByte (s.wr.istart + a) = s.blockByte a := by
  rw [State.blockByte, List.getD_eq_getElem _ _ (by rwa [State.block_length]), State.block_getElem]

/-- The slot of the window at the scan's position (R149). -/
def State.slot (s : State) : Nat := hash (windowAt s.inByte s.wr.ip) s.wr.ts

/-- The slot is found from the bytes of the view, counted from its start. -/
theorem State.slot_eq {s : State} (hip : s.wr.istart ≤ s.wr.ip) (h4 : 4 ≤ s.wr.iend - s.wr.ip) :
    s.slot = hash (windowAt s.blockByte (s.wr.ip - s.wr.istart)) s.wr.ts := by
  have hshift := windowAt_shift s.inByte s.wr.istart (s.wr.ip - s.wr.istart)
  rw [show s.wr.istart + (s.wr.ip - s.wr.istart) = s.wr.ip by omega] at hshift
  rw [State.slot, hshift]
  exact congrArg (hash · _) (windowAt_congr (fun _ _ => State.inByte_eq_blockByte) (Nat.zero_le _) (by omega))

/-- What the finder answers at the scan's position for the entry of `Encode`'s table `T`, in positions of the block. -/
def State.found (s : State) (F : FVT) (T : List (Option Nat)) : Option (Nat × Nat × Nat) :=
  findMatch F s.blockByte 0 s.block.length (s.wr.anchor - s.wr.istart) (s.wr.ip - s.wr.istart) ((T[s.slot]?).getD none)

/-- `Encode`'s table `T` with the scan's position entered (R149). -/
def State.entered (s : State) (T : List (Option Nat)) : List (Option Nat) := T.set s.slot (some (s.wr.ip - s.wr.istart))

/-- What `Encode` emits from the scan's cursors on, with the table `T` and `fuel` passes. -/
def State.toEmit (s : State) (F : FVT) (fuel : Nat) (T : List (Option Nat)) : List Byte :=
  encodeFrom F hash s.wr.ts s.block fuel T (s.wr.anchor - s.wr.istart) (s.wr.ip - s.wr.istart)

/-- The last pass: what is left is the last literal run. -/
theorem State.toEmit_last {s : State} (F : FVT) (fuel : Nat) (T : List (Option Nat)) (hip : s.wr.istart ≤ s.wr.ip)
    (h4 : s.wr.iend - s.wr.ip < 4) : s.toEmit F (fuel + 1) T = tailBytes F s.block (s.wr.anchor - s.wr.istart) := by
  rw [State.toEmit, encodeFrom, if_pos (by rw [State.block_length, Config.window]; omega), tailBytes]

/-- A pass with a window left. -/
theorem State.toEmit_succ {s : State} (F : FVT) (fuel : Nat) (T : List (Option Nat)) (hip : s.wr.istart ≤ s.wr.ip)
    (h4 : 4 ≤ s.wr.iend - s.wr.ip) : s.toEmit F (fuel + 1) T =
      match s.found F T with
      | none => encodeFrom F hash s.wr.ts s.block fuel (s.entered T) (s.wr.anchor - s.wr.istart) (s.wr.ip - s.wr.istart + 1)
      | some (p, cand, mlen) => matchBytes F s.block (s.wr.anchor - s.wr.istart) p cand mlen ++
          encodeFrom F hash s.wr.ts s.block fuel (s.entered T) (p + mlen) (p + mlen) := by
  have hwin : ¬ s.block.length - (s.wr.ip - s.wr.istart) < Config.window := by rw [State.block_length, Config.window]; omega
  have hread : (fun a => s.block.getD a 0) = s.blockByte := rfl
  rcases hfound : s.found F T with _ | ⟨p, cand, mlen⟩ <;> rw [State.found] at hfound <;>
    simp only [State.toEmit, encodeFrom, if_neg hwin, hread, ← State.slot_eq hip h4, hfound, State.entered,
      matchBytes]

/-- The state of the scan that has advanced over its position, with the table `U`. -/
abbrev State.advanced (s : State) (U : List (Option Nat)) : State := { s with table := U, wr := { s.wr with ip := s.wr.ip + 1 } }

/-- The state of the scan that has accepted the match `m`, with the table `U`. -/
abbrev State.accepted (s : State) (U : List (Option Nat)) (m : Nat × Nat × Nat) : State :=
  { s with st := .cEmit, table := U, wr := { s.wr with ip := m.1, cand := m.2.1, mlen := m.2.2 } }

/-- The engine stands in `C_SCAN` with nothing scheduled, and its table stands for `Encode`'s table `T`. -/
structure State.ScansWith (s : State) (F : FVT) (T : List (Option Nat)) : Prop where
  inv : s.Inv
  st : s.st = .cScan
  turns : s.turns = []
  format : tables[s.cr.format.toNat]? = some F
  table : s.table = shiftTable s.wr.istart T

section

variable {s : State} {F : FVT} {T : List (Option Nat)}

theorem State.ScansWith.compressing (h : s.ScansWith F T) : s.Compressing := ((State.phaseOk_cScan h.st).1 h.inv.phase).1

theorem State.ScansWith.scanning (h : s.ScansWith F T) : s.Scanning := ((State.phaseOk_cScan h.st).1 h.inv.phase).2

theorem State.ScansWith.ipLow (h : s.ScansWith F T) : s.wr.istart ≤ s.wr.ip :=
  h.scanning.anchorLow.trans h.scanning.anchorHigh

/-- The entry that `Encode` looks at is a position before the scan's. -/
theorem State.ScansWith.entry_lt (h : s.ScansWith F T) (q : Nat) (hq : (T[s.slot]?).getD none = some q) :
    q < s.wr.ip - s.wr.istart := by
  have hentry : (s.table[s.slot]?).getD none = some (s.wr.istart + q) := by rw [h.table, shiftTable_entry, hq]; rfl
  obtain ⟨-, hlt⟩ := table_entry h.scanning.table.entries _ hentry
  omega

/-- The finder in the view answers what it answers in the block. -/
theorem State.ScansWith.findMatch_eq (h : s.ScansWith F T) (h4 : 4 ≤ s.wr.iend - s.wr.ip) :
    findMatch F s.inByte s.wr.istart s.wr.iend s.wr.anchor s.wr.ip ((s.table[s.slot]?).getD none) =
      (s.found F T).map (shiftMatch s.wr.istart) := by
  have hip := h.ipLow
  have hshift := findMatch_shift F s.inByte s.wr.istart (s.wr.iend - s.wr.istart) (s.wr.anchor - s.wr.istart)
    (s.wr.ip - s.wr.istart) ((T[s.slot]?).getD none)
  have hanchor : s.wr.istart + (s.wr.anchor - s.wr.istart) = s.wr.anchor := Nat.add_sub_cancel' h.scanning.anchorLow
  rw [show s.wr.istart + (s.wr.iend - s.wr.istart) = s.wr.iend by omega, hanchor,
    show s.wr.istart + (s.wr.ip - s.wr.istart) = s.wr.ip by omega] at hshift
  rw [h.table, shiftTable_entry, hshift, State.found, State.block_length]
  refine congrArg _ (findMatch_congr (fun _ _ => State.inByte_eq_blockByte) (fun q hq => ⟨Nat.zero_le q, ?_⟩) (by omega))
  exact h.entry_lt q hq

/-- An accepted match covers the window at the scan's position. -/
theorem State.ScansWith.found_covers (h : s.ScansWith F T) (h4 : 4 ≤ s.wr.iend - s.wr.ip) {p cand mlen : Nat}
    (hfound : s.found F T = some (p, cand, mlen)) : s.wr.ip - s.wr.istart + 4 ≤ p + mlen := by
  have hip := h.ipLow
  have hanchor := h.scanning.anchorHigh
  rcases findMatch_cases (table_mem h.format) s.blockByte (istart := 0) (iend := s.block.length)
      (anchor := s.wr.anchor - s.wr.istart) (fun q hq => ⟨Nat.zero_le q, h.entry_lt q hq⟩) (by omega)
      (by rw [State.block_length]; omega) with e | ⟨_, _, _, e, -, -, -, -, -, -, -, hcover, -⟩ <;>
    rw [State.found, e] at hfound <;> cases hfound
  exact hcover

/-- A visit of `C_SCAN` with a window left does what the pass of `Encode` does. -/
theorem State.ScansWith.cScan_eq (h : s.ScansWith F T) (h4 : 4 ≤ s.wr.iend - s.wr.ip) : cScan F hash s =
    match s.found F T with
    | none => .ok (s.advanced (shiftTable s.wr.istart (s.entered T)))
    | some m => .ok (s.accepted (shiftTable s.wr.istart (s.entered T)) (shiftMatch s.wr.istart m)) := by
  have hip := h.ipLow
  have hset : s.table.set s.slot (some s.wr.ip) = shiftTable s.wr.istart (s.entered T) := by
    rw [h.table, State.entered, ← shiftTable_set, Nat.add_sub_cancel' hip]
  have hslot : hash (windowAt s.inByte s.wr.ip) s.wr.ts = s.slot := rfl
  have hscan := cScan_window (F := F) (h := hash) hip h4 h.compressing.input.mapped
  simp only [hslot, hset] at hscan
  rw [hscan, h.findMatch_eq h4]
  cases s.found F T <;> rfl

end

/-! ### What a COMPRESS has written -/

/-- `s` with the memory `m` and the output cursor `n` further: what an emission of `n` bytes leaves (R97, R147). -/
abbrev State.wrote (s : State) (m : Memory) (n : Nat) : State := { s with mem := m, wr := { s.wr with op := s.wr.op + n } }

/-- An emission rests on the output cursor, the control registers and memory alone. -/
theorem Emitted.congr {s s' t : State} {bs : List Byte} (he : Emitted s t bs) (ec : s'.cr = s.cr) (em : s'.mem = s.mem)
    (eo : s'.wr.op = s.wr.op) : Emitted s' (s'.wrote t.mem bs.length) bs := by
  have ep := State.phys_congr ec .output
  refine ⟨rfl, he.memory, fun r hr => ?_, fun k hk => ?_, fun a ha => ?_⟩
  · rw [em]; exact he.stamps r hr
  · rw [ep, eo]; exact he.bytes k hk
  · rw [ep, ep, eo] at ha
    rw [em]; exact he.outside a ha

/-- `t` is the end of a COMPRESS that from `s` on emits the bytes `bs` and no others (R157). -/
structure State.CompressEnds (s t : State) (bs : List Byte) : Prop where
  st : t.st = .done
  cr : t.cr = { s.cr with result := BitVec.ofNat 32 (s.wr.op + bs.length - s.wr.ostart) }
  emitted : Emitted s (s.wrote t.mem bs.length) bs

/-- The end of a COMPRESS seen from a state before an emission, which is followed by changes of other registers alone. -/
theorem State.CompressEnds.of_later {s u t : State} {xs ys : List Byte} (h : u.CompressEnds t ys)
    (he : Emitted s (s.wrote u.mem xs.length) xs) (ec : u.cr = s.cr) (eo : u.wr.op = s.wr.op + xs.length)
    (es : u.wr.ostart = s.wr.ostart) : s.CompressEnds t (xs ++ ys) := by
  refine ⟨h.st, ?cr, ?emitted⟩
  case cr => rw [h.cr, ec, eo, es, List.length_append, Nat.add_assoc]
  case emitted => exact (he.append (h.emitted.congr (s' := s.wrote u.mem xs.length) ec.symm rfl eo.symm)).congr rfl rfl rfl

/-! ### The steps of CMP -/

section

variable {s : State} {F : FVT}

theorem step_cHeader (hst : s.st = .cHeader) (hturns : s.turns = []) (hF : tables[s.cr.format.toNat]? = some F) :
    step s = finish (cHeader F tableSize s) := by
  rw [step_idle_turns hturns]; simp only [engineStep, hst, withTable_eq hF]

theorem step_cScan (hst : s.st = .cScan) (hturns : s.turns = []) (hF : tables[s.cr.format.toNat]? = some F) :
    step s = finish (cScan F hash s) := by
  rw [step_idle_turns hturns]; simp only [engineStep, hst, withTable_eq hF]

theorem step_cEmit (hst : s.st = .cEmit) (hturns : s.turns = []) (hF : tables[s.cr.format.toNat]? = some F) :
    step s = finish (cEmit F s) := by
  rw [step_idle_turns hturns]; simp only [engineStep, hst, withTable_eq hF]

theorem step_cTail (hst : s.st = .cTail) (hturns : s.turns = []) (hF : tables[s.cr.format.toNat]? = some F) :
    step s = finish (cTail F s) := by
  rw [step_idle_turns hturns]; simp only [engineStep, hst, withTable_eq hF]

end

/-- `C_HEADER` emits the header, which fits, and leaves the block alone. -/
theorem step_cHeader_starts {s : State} {F : FVT} (h : s.Inv) (hst : s.st = .cHeader) (hturns : s.turns = [])
    (hF : tables[s.cr.format.toNat]? = some F) :
    let header := shortestVarint s.block.length
    ∃ m, step s = .next (s.scanStart m header.length (tableSize s.block.length)) ∧
      Emitted s (s.wrote m header.length) header ∧
      (s.scanStart m header.length (tableSize s.block.length)).block = s.block := by
  obtain ⟨hc, hop⟩ := (State.phaseOk_cHeader hst).1 h.phase
  have hroom := hc.header_fits hop
  obtain ⟨t, he, e⟩ := cHeader_ok (table_constants (table_mem hF)).1 tableSize h.memory hc.opLow hroom hc.output.mapped
  have he' := he.congr rfl rfl rfl
  have hblock := he'.block hc hroom
  rw [← State.block_length] at e he'
  exact ⟨t.mem, by rw [step_cHeader hst hturns hF, e, finish_ok], he', hblock⟩

/-- The pending literal run and the copy that `C_EMIT` is to emit, in positions of the block (R156). -/
def State.matchToEmit (s : State) (F : FVT) : List Byte :=
  matchBytes F s.block (s.wr.anchor - s.wr.istart) (s.wr.ip - s.wr.istart) (s.wr.cand - s.wr.istart) s.wr.mlen

/-- `C_EMIT` emits the match, where its bytes fit, and leaves the block alone. -/
theorem step_cEmit_fits {s : State} {F : FVT} (h : s.Inv) (hst : s.st = .cEmit) (hturns : s.turns = [])
    (hF : tables[s.cr.format.toNat]? = some F) (hfit : s.wr.op + (s.matchToEmit F).length ≤ s.wr.olimit) :
    ∃ m, step s = .next (s.pastMatch m (s.matchToEmit F).length) ∧
      Emitted s (s.wrote m (s.matchToEmit F).length) (s.matchToEmit F) ∧
      (s.pastMatch m (s.matchToEmit F).length).block = s.block := by
  obtain ⟨hc, hm⟩ := (State.phaseOk_cEmit hst).1 h.phase
  have hm := hm F hF
  have hanchor := hm.anchorLow
  have hhigh := hm.anchorHigh
  have hcand := hm.candLow
  have hbytes : literalRunBytes F s.block (s.wr.ip - s.wr.istart) (s.wr.ip - s.wr.anchor) (s.wr.anchor - s.wr.istart) ++
      copyBytes F s.wr.mlen (s.wr.ip - s.wr.cand) = s.matchToEmit F := by
    rw [State.matchToEmit, matchBytes,
      show s.wr.ip - s.wr.istart - (s.wr.anchor - s.wr.istart) = s.wr.ip - s.wr.anchor by omega,
      show s.wr.ip - s.wr.istart - (s.wr.cand - s.wr.istart) = s.wr.ip - s.wr.cand by omega]
  obtain ⟨fits, -⟩ := cEmit_ok (table_mem hF) h.memory hc hm
  rw [hbytes] at fits
  obtain ⟨t, he, e⟩ := fits hfit
  rw [he.pastMatch_eq] at e
  have he' := he.congr rfl rfl rfl
  exact ⟨t.mem, by rw [step_cEmit hst hturns hF, e, finish_ok], he', he'.block hc hfit⟩

/-- `C_TAIL` ends the command, where its bytes fit. -/
theorem step_cTail_ends {s : State} {F : FVT} (h : s.Inv) (hst : s.st = .cTail) (hturns : s.turns = [])
    (hF : tables[s.cr.format.toNat]? = some F)
    (hfit : s.wr.op + (tailBytes F s.block (s.wr.anchor - s.wr.istart)).length ≤ s.wr.olimit) :
    ∃ t, step s = .next t ∧ s.CompressEnds t (tailBytes F s.block (s.wr.anchor - s.wr.istart)) := by
  obtain ⟨hc, hscan⟩ := (State.phaseOk_cTail hst).1 h.phase
  have hanchor := hscan.anchorLow
  have hlen : s.block.length - (s.wr.anchor - s.wr.istart) = s.wr.iend - s.wr.anchor := by rw [State.block_length]; omega
  rw [tailBytes, hlen, State.block_length] at hfit ⊢
  obtain ⟨t, he, e⟩ := (cTail_ok (table_mem hF) h.memory hc hanchor).1 hfit
  rw [he.compressed_eq] at e
  exact ⟨s.compressed t.mem _, by rw [step_cTail hst hturns hF, e, finish_ok], rfl, rfl, he.congr rfl rfl rfl⟩

/-- A run in two parts. -/
theorem run_add {k : Nat} {s w : State} (h : Host.Core.run Sys2Proof.core k s = .next w) (n : Nat) :
    Host.Core.run Sys2Proof.core (k + n) s = Host.Core.run Sys2Proof.core n w := by
  induction k generalizing s with
  | zero => cases h; rw [Nat.zero_add]
  | succ k ih =>
    rw [Nat.add_right_comm]
    simp only [Host.Core.run] at h ⊢
    split at h
    · exact ih h
    · cases h
    · cases h

/-- `w` is `s` after `k` steps of the scan, which have emitted `xs` and moved at least `k` positions, as one pass of `Encode` does
that goes on with the table `T`. -/
structure Scanned (F : FVT) (s : State) (k : Nat) (w : State) (T : List (Option Nat)) (xs : List Byte) : Prop where
  run : Host.Core.run Sys2Proof.core k s = .next w
  scans : w.ScansWith F T
  moved : s.wr.ip + k ≤ w.wr.ip
  emitted : Emitted s (s.wrote w.mem xs.length) xs
  cr : w.cr = s.cr
  iend : w.wr.iend = s.wr.iend
  ostart : w.wr.ostart = s.wr.ostart
  olimit : w.wr.olimit = s.wr.olimit
  op : w.wr.op = s.wr.op + xs.length

section

variable {s : State} {F : FVT} {T : List (Option Nat)}

/-- The last visit: two steps end the command. -/
theorem State.ScansWith.ends (h : s.ScansWith F T) (h4 : s.wr.iend - s.wr.ip < 4) (fuel : Nat)
    (hfit : s.wr.op + (s.toEmit F (fuel + 1) T).length ≤ s.wr.olimit) :
    ∃ t, Host.Core.run Sys2Proof.core 2 s = .next t ∧ s.CompressEnds t (s.toEmit F (fuel + 1) T) := by
  rw [State.toEmit_last F fuel T h.ipLow h4] at hfit ⊢
  have hstep : step s = .next { s with st := .cTail } := by
    rw [step_cScan h.st h.turns h.format, cScan_tail F hash h4, finish_ok]
  obtain ⟨t, hstep', hends⟩ := step_cTail_ends (stepKeepsInvariant _ _ h.inv hstep) rfl h.turns h.format hfit
  exact ⟨t, (run_add (run_one hstep) 1).trans (run_one hstep'), hends.st, hends.cr, hends.emitted.congr rfl rfl rfl⟩

/-- Where the finder answers no match, one step advances the scan. -/
theorem State.ScansWith.advances (h : s.ScansWith F T) (h4 : 4 ≤ s.wr.iend - s.wr.ip) (hfound : s.found F T = none) (fuel : Nat) :
    ∃ w, Scanned F s 1 w (s.entered T) [] ∧ s.toEmit F (fuel + 1) T = w.toEmit F fuel (s.entered T) := by
  have hip := h.ipLow
  have hscan := h.cScan_eq h4
  have hpass := State.toEmit_succ F fuel T hip h4
  simp only [hfound] at hscan hpass
  have hstep : step s = .next (s.advanced (shiftTable s.wr.istart (s.entered T))) := by
    rw [step_cScan h.st h.turns h.format, hscan, finish_ok]
  refine ⟨_, {
    run := run_one hstep
    scans := ⟨stepKeepsInvariant s _ h.inv hstep, h.st, h.turns, h.format, rfl⟩
    moved := Nat.le_refl _
    emitted := (Emitted.nil h.inv.memory).congr rfl rfl rfl
    cr := rfl, iend := rfl, ostart := rfl, olimit := rfl, op := rfl }, ?_⟩
  rw [hpass, show s.wr.ip - s.wr.istart + 1 = s.wr.ip + 1 - s.wr.istart by omega]
  rfl

/-- Where the finder answers a match, one step accepts it and the next emits it. -/
theorem State.ScansWith.emits (h : s.ScansWith F T) (h4 : 4 ≤ s.wr.iend - s.wr.ip) {m : Nat × Nat × Nat}
    (hfound : s.found F T = some m) (fuel : Nat) (hfit : s.wr.op + (s.toEmit F (fuel + 1) T).length ≤ s.wr.olimit) :
    ∃ w xs, Scanned F s 2 w (s.entered T) xs ∧ s.toEmit F (fuel + 1) T = xs ++ w.toEmit F fuel (s.entered T) := by
  obtain ⟨p, cand, mlen⟩ := m
  have hip := h.ipLow
  have hcover := h.found_covers h4 hfound
  have hscan := h.cScan_eq h4
  have hpass := State.toEmit_succ F fuel T hip h4
  simp only [hfound, shiftMatch] at hscan hpass
  generalize hu : s.accepted (shiftTable s.wr.istart (s.entered T)) (s.wr.istart + p, s.wr.istart + cand, mlen) = u at hscan
  have hstep : step s = .next u := by rw [step_cScan h.st h.turns h.format, hscan, finish_ok]
  have hinv := stepKeepsInvariant s u h.inv hstep
  have hmatch : u.matchToEmit F = matchBytes F s.block (s.wr.anchor - s.wr.istart) p cand mlen := by
    rw [← hu, State.matchToEmit]
    simp only [Nat.add_sub_cancel_left]
    rfl
  rw [hpass, List.length_append, ← hmatch] at hfit
  subst hu
  obtain ⟨m, hstep', he, hblock⟩ := step_cEmit_fits hinv rfl h.turns h.format (by simp only at hfit ⊢; omega)
  refine ⟨_, _, {
    run := (run_add (run_one hstep) 1).trans (run_one hstep')
    scans := ⟨stepKeepsInvariant _ _ hinv hstep', rfl, h.turns, h.format, rfl⟩
    moved := by simp only; omega
    emitted := he.congr rfl rfl rfl
    cr := rfl, iend := rfl, ostart := rfl, olimit := rfl, op := rfl }, ?_⟩
  rw [hpass, ← hmatch, State.toEmit, hblock]
  simp only [Nat.add_assoc, Nat.add_sub_cancel_left]
  rfl

/-- While a window is left, at most two steps do what one pass of `Encode` does. -/
theorem State.ScansWith.passes (h : s.ScansWith F T) (h4 : 4 ≤ s.wr.iend - s.wr.ip) (fuel : Nat)
    (hfit : s.wr.op + (s.toEmit F (fuel + 1) T).length ≤ s.wr.olimit) : ∃ k w xs, 1 ≤ k ∧ Scanned F s k w (s.entered T) xs ∧
      s.toEmit F (fuel + 1) T = xs ++ w.toEmit F fuel (s.entered T) := by
  cases hfound : s.found F T with
  | none =>
    obtain ⟨w, hw, hpass⟩ := h.advances h4 hfound fuel
    exact ⟨1, w, [], Nat.le_refl 1, hw, hpass⟩
  | some m =>
    obtain ⟨w, xs, hw, hpass⟩ := h.emits h4 hfound fuel hfit
    exact ⟨2, w, xs, by omega, hw, hpass⟩

end

/-- From `C_SCAN` on the engine emits what the passes of `Encode` do, where that fits, and ends: each step but the last two moves
the scan on by at least one position (R164). -/
theorem run_encodeFrom {F : FVT} (fuel : Nat) {s : State} {T : List (Option Nat)} (h : s.ScansWith F T)
    (hfuel : s.wr.iend - s.wr.ip < fuel) (hfit : s.wr.op + (s.toEmit F fuel T).length ≤ s.wr.olimit) :
    ∃ n t, n ≤ s.wr.iend - s.wr.ip + 2 ∧ Host.Core.run Sys2Proof.core n s = .next t ∧ s.CompressEnds t (s.toEmit F fuel T) := by
  induction fuel generalizing s T with
  | zero => omega
  | succ fuel ih =>
    rcases Nat.lt_or_ge (s.wr.iend - s.wr.ip) 4 with h4 | h4
    · obtain ⟨t, hrun, hends⟩ := h.ends h4 fuel hfit
      exact ⟨2, t, by omega, hrun, hends⟩
    · obtain ⟨k, w, xs, hk, hw, hpass⟩ := h.passes h4 fuel hfit
      have hmoved := hw.moved
      have hiend := hw.iend
      have hhigh := hw.scans.scanning.ipHigh
      rw [hpass, List.length_append] at hfit
      obtain ⟨n, t, hn, hrun, hends⟩ := ih hw.scans (by omega) (by rw [hw.op, hw.olimit]; omega)
      refine ⟨k + n, t, by omega, (run_add hw.run n).trans hrun, ?_⟩
      rw [hpass]
      exact hends.of_later hw.emitted hw.cr hw.op hw.ostart

/-! ### A whole COMPRESS (R164, R175) -/

/-- The input view of a COMPRESS is no longer than `MAX_BLOCK`, since its bound stands in the output view (R141, R174). -/
theorem State.Compressing.block_le {s : State} (hc : s.Compressing) : s.block.length ≤ maxBlock := by
  have hbound := hc.bound
  have hlimit := hc.output.lim_le
  rw [State.block_length, ← mcl_le]
  omega

/-- The block of `Encode` is the header and what is left to emit where the scan starts. -/
theorem encodeBlock_eq_scanStart {F : FVT} (hF : F ∈ tables) {s : State} {m : Memory} {n : Nat}
    (hblock : (s.scanStart m n (tableSize s.block.length)).block = s.block) :
    encodeBlock F hash tableSize s.block = shortestVarint s.block.length ++
      (s.scanStart m n (tableSize s.block.length)).toEmit F (s.block.length + 1)
        (List.replicate (tableSize s.block.length) none) := by
  rw [State.toEmit, hblock]
  simp only [encodeBlock, (table_constants hF).1, if_true, Nat.sub_self]

/-- From `C_HEADER` on a COMPRESS ends as `Encode` says of its block, for which the bound has room (R142). -/
theorem run_encodeBlock {s : State} {F : FVT} (h : s.Inv) (hst : s.st = .cHeader) (hturns : s.turns = [])
    (hF : tables[s.cr.format.toNat]? = some F) : ∃ n t, n ≤ s.wr.iend - s.wr.istart + 3 ∧
      Host.Core.run Sys2Proof.core n s = .next t ∧ s.CompressEnds t (encodeBlock F hash tableSize s.block) := by
  obtain ⟨hc, hop⟩ := (State.phaseOk_cHeader hst).1 h.phase
  have hbound := hc.bound
  have hwithin := encodeWithinBound F (table_mem hF) hash tableSize s.block hc.block_le
  have hlen := s.block_length
  obtain ⟨m, hstep, he, hblock⟩ := step_cHeader_starts h hst hturns hF
  have hscans : State.ScansWith _ F (List.replicate (tableSize s.block.length) none) :=
    ⟨stepKeepsInvariant s _ h hstep, rfl, hturns, hF, (shiftTable_replicate _ _).symm⟩
  rw [encodeBlock_eq_scanStart (table_mem hF) hblock] at hwithin ⊢
  rw [List.length_append] at hwithin
  rw [← hlen] at hbound
  obtain ⟨n, t, hn, hrun, hends⟩ := run_encodeFrom (s.block.length + 1) hscans (by simp only; omega) (by simp only; omega)
  refine ⟨1 + n, t, ?_, (run_add (run_one hstep) n).trans hrun, hends.of_later (he.congr rfl rfl rfl) rfl rfl rfl⟩
  simp only at hn
  omega

/-- Settles O58: the run of `run_encodeBlock` from `op = ostart` on; a block has at least its header, and at most its bound
(O59). -/
theorem compressIsEncode : Obligations.CompressIsEncode := by
  unfold Obligations.CompressIsEncode
  intro s F h hst hturns hF block
  have hblock : block = encodeBlock F hash tableSize s.block := rfl
  obtain ⟨hc, hop⟩ := (State.phaseOk_cHeader hst).1 h.phase
  have hF' := table_mem hF
  obtain ⟨n, t, -, hrun, hends⟩ := run_encodeBlock h hst hturns hF
  obtain ⟨bytes, outside⟩ := hends.emitted.wrote
  have hcr := hends.cr
  simp only [← hblock, hop, Nat.add_sub_cancel_left] at bytes outside hcr
  refine ⟨n, t, hrun, hends.st, hcr, ?positive, ?bounded, bytes, outside⟩
  case positive =>
    obtain ⟨body, -, e⟩ := encodeBlock_eq hF' hash tableSize s.block
    have hheader := (shortestVarint_reads (hc.block_le.trans (by decide))).1.length_pos
    rw [hblock, e, List.length_append]
    omega
  case bounded =>
    rw [← State.block_length]
    exact encodeWithinBound F hF' hash tableSize s.block hc.block_le

/-- Settles O56: the run of `run_encodeBlock`. -/
theorem compressTerminates : Obligations.CompressTerminates := by
  unfold Obligations.CompressTerminates
  intro s h hst hturns
  obtain ⟨F, hF⟩ := table_some ((State.phaseOk_cHeader hst).1 h.phase).1.table
  obtain ⟨n, t, hn, hrun, hends⟩ := run_encodeBlock h hst hturns hF
  exact ⟨n, t, hn, hrun, .inl hends.st⟩

end Sys2Proof.Machine
end

section
/-! The statements of the family "44_commands": `ARG.view`, `MAXLEN`, and the entries of the other three commands with the faults
of `ARGCHECK` in their order. -/

namespace Sys2Proof.Machine

/-! ### A command is its `ARGCHECK` transition (log 5) -/

theorem exec_maxlen (s : State) : exec .maxlen s = finish (argMaxlen s) := rfl
theorem exec_compress (s : State) : exec .compress s = finish (argCompress s) := rfl
theorem exec_getulen (s : State) : exec .getulen s = finish (argGetulen s) := rfl
theorem exec_decompress (s : State) : exec .decompress s = finish (argDecompress s) := rfl

/-! ### `ARG.view` (R172) -/

/-- A reason of `VAL.check` on a present buffer is the view's. -/
theorem argView_valCheck {s : State} {x : Space} {off len : Int} (hv : s.cr.valid x = true) {r : Reason}
    (hr : valCheck off len (s.cr.extent x) = some r) :
    argView s x off len = .error (.raised (.invalidArgument (.val r)) s) := by
  rw [argView_eq, if_neg (by simp [hv]), hr]

/-- Settles O24: each reason of `VAL.check` is the view's (O10); a range that passes it lies in a buffer, whose addresses are
tested last. -/
theorem argumentView : Obligations.ArgumentView := by
  unfold Obligations.ArgumentView
  intro s x off len hoff hlen ext fails
  obtain ⟨hok, hnegative, hoffset, hlength, hoverflow, hexceeds⟩ :=
    validatorCheck off len ext hoff hlen (extent_le s x)
  refine ⟨fun hv => argView_absent hv off len, fun hv h => argView_valCheck hv (hnegative.2 h),
    fun hv ho hl he => ⟨?offset, ?length, ?overflow, ?exceeds, ?unmapped⟩, argView_ok_iff⟩
  case offset => exact fun h => argView_valCheck hv (hoffset.2 ⟨ho, hl, he, h⟩)
  case length => exact fun hoe h => argView_valCheck hv (hlength.2 ⟨ho, hl, hoe, h⟩)
  case overflow => exact fun hoe hle h => argView_valCheck hv (hoverflow.2 ⟨ho, hl, hoe, hle, h⟩)
  case exceeds => exact fun hoe hle hsum h => argView_valCheck hv (hexceeds.2 ⟨ho, hl, hoe, hle, h, hsum⟩)
  case unmapped => exact fun hin h => argView_unmapped hv (hok.2 ⟨ho, hl, hin⟩) h

/-! ### `MAXLEN` (R173) -/

/-- What the tests of `MAXLEN` answer, in order. -/
theorem argMaxlen_eq (s : State) : argMaxlen s =
    if sext s.cr.arg < 0 then raise (.invalidArgument (.val .negativeValue)) s
    else if maxBlock < sext s.cr.arg then raise (.invalidArgument (.val .arithmeticOverflow)) s
    else .ok (s.complete (mcl (sext s.cr.arg).toNat)) := by
  simp only [argMaxlen]
  split_ifs <;> rfl

/-- Settles O25: both tests of `MAXLEN` pass for an argument that has a bound, which is an `INT` (R141). The working registers and
the table are as before in `DONE` by the model's choice (DESIGN CHOICE, log 18). -/
theorem maxlenResult : Obligations.MaxlenResult := by
  unfold Obligations.MaxlenResult
  intro s
  rw [exec_maxlen, argMaxlen_eq]
  refine ⟨fun hnonneg hblock => ⟨?result, ?bound⟩, fun hneg => ?negative, fun hlong => ?overflow⟩
  case result => rw [if_neg (by omega), if_neg (by simp only [maxBlock]; omega)]; rfl
  case bound => exact mcl_le.2 (by simp only [maxBlock]; omega)
  case negative => rw [if_pos hneg]; rfl
  case overflow => rw [if_neg (by omega), if_pos (by simp only [maxBlock]; omega)]; rfl

/-! ### The entries, once the table is selected (R174, R176, R179) -/

section

variable {s : State} (hformat : s.cr.format.toNat < 2)
include hformat

/-- The tests of `COMPRESS`, on the registers as signed integers: `MAX_BLOCK` and the bound are positive, so a negative register
compares with them as its natural number 0 does. -/
theorem argCompress_eq : argCompress s = (do
    argView s .input (sext s.cr.inOff) (sext s.cr.inLen)
    argView s .output (sext s.cr.outOff) (sext s.cr.outMax)
    if 1840700242 < sext s.cr.inLen then raise (.invalidArgument (.val .arithmeticOverflow)) s
    else if sext s.cr.outMax < mcl (sext s.cr.inLen).toNat then raise (.capacity .outputTooSmall) s
    else do
      viewsDisjoint s (sext s.cr.inOff).toNat (sext s.cr.inLen).toNat (sext s.cr.outOff).toNat (sext s.cr.outMax).toNat
      .ok s.compressEntered) := by
  obtain ⟨F, -, hF, -⟩ := selectTable_ok hformat
  have hblock : (sext s.cr.inLen).toNat > maxBlock ↔ 1840700242 < sext s.cr.inLen := by simp only [maxBlock]; omega
  have hroom : (sext s.cr.outMax).toNat < mcl (sext s.cr.inLen).toNat ↔ sext s.cr.outMax < mcl (sext s.cr.inLen).toNat := by
    simp only [mcl]; omega
  simp only [argCompress, hF, Flow.ok_bind, hblock, hroom]
  rfl

/-- Every table has a header, so `GETULEN` tests its view alone. -/
theorem argGetulen_eq : argGetulen s = (do
    argView s .input (sext s.cr.inOff) 0
    .ok s.getulenEntered) := by
  obtain ⟨F, hmem, hF, -⟩ := selectTable_ok hformat
  have hheader : ¬ F.hasHeader = false := by simp [(table_constants hmem).1]
  rw [argGetulen, hF, Flow.ok_bind, getulenEntry, if_neg hheader]

/-- Every table has a header, so `DECOMPRESS` does not test `ULEN`. -/
theorem argDecompress_eq : argDecompress s = (do
    argView s .input (sext s.cr.inOff) (sext s.cr.inLen)
    argView s .output (sext s.cr.outOff) (sext s.cr.outMax)
    viewsDisjoint s (sext s.cr.inOff).toNat (sext s.cr.inLen).toNat (sext s.cr.outOff).toNat (sext s.cr.outMax).toNat
    .ok s.decompressEntered) := by
  obtain ⟨F, hmem, hF, -⟩ := selectTable_ok hformat
  have hheader : ¬ (F.hasHeader = false ∧ sext s.cr.ulen < 0) := by simp [(table_constants hmem).1]
  simp only [argDecompress, hF, Flow.ok_bind, decompressEntry, hheader, if_false]

end

/-- Settles O27: each test of `argCompress_eq` passes. -/
theorem compressEntry : Obligations.CompressEntry := by
  unfold Obligations.CompressEntry
  intro s hformat hin hout hblock hroom hdisjoint
  rw [exec_compress, argCompress_eq hformat, argView_ok_iff.2 hin, Flow.ok_bind, argView_ok_iff.2 hout, Flow.ok_bind,
    if_neg (by omega), if_neg (by omega), viewsDisjoint_ok hdisjoint]
  rfl

/-- Settles O28: the first test of `argCompress_eq` that does not pass ends the entry. -/
theorem compressEntryStops : Obligations.CompressEntryStops := by
  unfold Obligations.CompressEntryStops
  intro s
  dsimp only
  rw [exec_compress]
  refine ⟨fun hbad => ?badFormat, fun hformat => ?selected⟩
  case badFormat => rw [argCompress, selectTable_bad hbad]; rfl
  case selected =>
    rw [argCompress_eq hformat]
    refine ⟨fun r hin => ?input, fun r hin hout => ?output, fun hin hout => ?views⟩
    case input => rw [hin]; rfl
    case output => rw [hin, Flow.ok_bind, hout]; rfl
    case views =>
      rw [hin, Flow.ok_bind, hout, Flow.ok_bind]
      refine ⟨fun hlong => ?overflow, fun hblock hsmall => ?tooSmall, fun hblock hroom hoverlap => ?refused⟩
      case overflow => rw [if_pos hlong]; rfl
      case tooSmall => rw [if_neg (by omega), if_pos hsmall]; rfl
      case refused => rw [if_neg (by omega), if_neg (by omega), viewsDisjoint_refused hoverlap]; rfl

/-- Settles O29: the entry under a legal format is `argGetulen_eq`; before the view `selectTable` tests the format and
`getulenEntry` the header. (The name `getulenEntry` is the model's.) -/
theorem getulenEntry_holds : Obligations.GetulenEntry := by
  unfold Obligations.GetulenEntry
  intro s
  rw [exec_getulen]
  refine ⟨fun hformat hin => ?entered, fun hbad => ?badFormat, fun F hheader => ?noHeader, fun r hformat hin => ?input⟩
  case entered => rw [argGetulen_eq hformat, argView_ok_iff.2 hin]; rfl
  case badFormat => rw [argGetulen, selectTable_bad hbad]; rfl
  case noHeader => rw [getulenEntry, if_pos hheader]; rfl
  case input => rw [argGetulen_eq hformat, hin]; rfl

/-- Settles O30: each test of `argDecompress_eq` passes. (The name `decompressEntry` is the model's.) -/
theorem decompressEntry_holds : Obligations.DecompressEntry := by
  unfold Obligations.DecompressEntry
  intro s hformat hin hout hdisjoint
  rw [exec_decompress, argDecompress_eq hformat, argView_ok_iff.2 hin, Flow.ok_bind, argView_ok_iff.2 hout, Flow.ok_bind,
    viewsDisjoint_ok hdisjoint]
  rfl

/-- Settles O31: the first test of `argDecompress_eq` that does not pass ends the entry; `ULEN` is tested between the views and
their overlap, for a table without a header. -/
theorem decompressEntryStops : Obligations.DecompressEntryStops := by
  unfold Obligations.DecompressEntryStops
  intro s
  dsimp only
  rw [exec_decompress]
  refine ⟨fun hbad => ?badFormat, fun r hformat hin => ?input, fun r hformat hin hout => ?output,
    fun F hheader hin hout hulen => ?negative, fun hformat hin hout hoverlap => ?refused⟩
  case badFormat => rw [argDecompress, selectTable_bad hbad]; rfl
  case input => rw [argDecompress_eq hformat, hin]; rfl
  case output => rw [argDecompress_eq hformat, hin, Flow.ok_bind, hout]; rfl
  case negative =>
    rw [decompressEntry, hin, Flow.ok_bind, hout, Flow.ok_bind,
      if_pos ⟨hheader, hulen⟩]
    rfl
  case refused =>
    rw [argDecompress_eq hformat, hin, Flow.ok_bind, hout, Flow.ok_bind,
      viewsDisjoint_refused hoverlap]
    rfl

end Sys2Proof.Machine
end

section
/-! The statement of the family "60_exceptions": what taking an error changes (R196). -/

namespace Sys2Proof.Machine

/-- Settles O19: the control registers are those of the latch (`takeError_cr`), an argument register reads as before
(`Kept.takeError`), and only the output view is discarded (`takeError_read`). -/
theorem raiseChanges : Obligations.RaiseChanges := by
  unfold Obligations.RaiseChanges
  intro s e
  have latched := State.takeError_cr s e
  exact ⟨State.takeError_st s e,
    congrArg Control.errKind latched, congrArg Control.errReason latched,
    congrArg Control.errOffset latched, congrArg Control.result latched,
    fun _ hq => ((Kept.refl s).takeError e).readReg hq,
    State.takeError_wr s e, State.takeError_table s e, fun _ ha => State.takeError_read ha e⟩

end Sys2Proof.Machine
end

section
/-! The statement of the family "70_reset_and_hazards": what a reset leaves of the registers and of memory (R220 to R222). -/

namespace Sys2Proof.Machine

/-- Memory after a reset that abandons a command: its output view is discarded (U2). -/
theorem State.memAfterReset_busy {s : State} (hb : s.busy = true) :
    s.memAfterReset = s.mem.discard s.outputRange.1.toNat s.outputRange.2.toNat s.draws := if_pos hb

/-- Memory after a reset that finds no command running (R222). -/
theorem State.memAfterReset_waiting {s : State} (hb : s.busy = false) : s.memAfterReset = s.mem :=
  if_neg (by simp [hb])

/-- A reset changes no byte outside the output view, whether or not a command runs. -/
theorem State.read_memAfterReset_outside {s : State} {a : Nat} (h : ¬ (s.outputRange.1 ≤ a ∧ (a : Int) < s.outputRange.2)) :
    s.memAfterReset.read a = s.mem.read a := by
  cases hb : s.busy
  case false => rw [State.memAfterReset_waiting hb]
  case true =>
    rw [State.memAfterReset_busy hb]
    exact Memory.read_discard_outside _ (by omega)

/-- Every byte of the output view of an abandoned command is a free value. A range that begins below
address 0 loses nothing when it is cut there. -/
theorem State.read_memAfterReset_inside {s : State} (hb : s.busy = true) {a : Nat} (hlo : s.outputRange.1 ≤ a)
    (hhi : (a : Int) < s.outputRange.2) : s.memAfterReset.read a = Config.freeByte s.draws a := by
  rw [State.memAfterReset_busy hb]
  exact Memory.read_discard_inside _ (by omega)

/-- Every register reads 0 after a reset; `STATUS` does since the engine is in `IDLE` (R221). -/
theorem State.readReg_resetEvent (s : State) (r : CReg) : s.resetEvent.readReg r = 0 := by
  cases r
  case status => exact EngineState.statusWord_idle _
  all_goals rfl

/-- Settles O21: the host's reset is `resetEvent`; memory follows from the two cases of `memAfterReset`. -/
theorem resetEvent : Obligations.ResetEvent := by
  unfold Obligations.ResetEvent
  intro s
  exact ⟨s.resetEvent, rfl, State.resetEvent_st s, State.readReg_resetEvent s,
    fun _ => State.read_memAfterReset_outside, fun hb _ => State.read_memAfterReset_inside hb, State.memAfterReset_waiting⟩

end Sys2Proof.Machine
end
